-- ==== Sys2Proof/Word.lean ====
section
/-! DEFINITION. The words of the block: bytes, the 16-bit chain word, Frames (00_scope R9, R10), and the closed sets of
names that instructions carry as operands (60_exceptions R251, 45_main_loop R234). -/

namespace Sys2Proof

/-- An unsigned 8-bit value (00 R9). -/
abbrev Byte := BitVec 8

/-- The 16-bit word of the shift stage and the output latch (10 R38, R39). -/
abbrev ChainWord := BitVec 16

/-- A row index 0..7 (10 R28): three bits, so that adding one wraps 7 to 0. -/
abbrev RowIndex := BitVec 3

/-- A Frame: exactly 8 row bitmasks, row 0 the top one (00 R10). -/
structure Frame where
  row0 : Byte
  row1 : Byte
  row2 : Byte
  row3 : Byte
  row4 : Byte
  row5 : Byte
  row6 : Byte
  row7 : Byte
  deriving DecidableEq, Repr

/-- `ZERO_FRAME` (00 R10). -/
def Frame.zero : Frame := ⟨0, 0, 0, 0, 0, 0, 0, 0⟩

/-- The four error kinds; the names are the codes (60 R251, R252). -/
inductive ErrorKind where
  | readTimeout
  | invalidEndMarker
  | invalidFrameCount
  | unknownMarker
  deriving DecidableEq, Repr

/-- The three commands that a start marker begins (30 R102). -/
inductive CommandKind where
  | singleFrame
  | animation
  | brightness
  deriving DecidableEq, Repr

/-- The two edges of a critical section (45 R234): `ENTER_CRITICAL` and `LEAVE_CRITICAL`. -/
inductive CriticalEdge where
  | enter
  | leave
  deriving DecidableEq, Repr

end Sys2Proof
end

