-- ==== Sys2Proof/Config.lean ====
section
/-! DEFINITION. What is fixed for one block: the constants of 00_scope R5, the parameters of R6 and R8 with their
constraint R7, and the free values (the draws of 10_state, after R46), which have no body, so that no proof can see them. -/

namespace Sys2Proof

/-- `MAX_FRAMES` (00 R5). -/
abbrev Config.maxFrames : Nat := 10
/-- `FRAME_INTERVAL_MS` (00 R5). -/
abbrev Config.frameIntervalMs : Nat := 500
/-- `BAUD` (00 R5): the line rate; only the byte time below is computed from it. -/
abbrev Config.baud : Nat := 9600
/-- `M_SINGLE`, the start marker of SINGLE_FRAME (00 R5). -/
abbrev Config.mSingle : Byte := 0xFF#8
/-- `M_SINGLE_END` (00 R5). -/
abbrev Config.mSingleEnd : Byte := 0xFE#8
/-- `M_ANIM`, the start marker of ANIMATION (00 R5). -/
abbrev Config.mAnim : Byte := 0xFA#8
/-- `M_ANIM_END` (00 R5). -/
abbrev Config.mAnimEnd : Byte := 0xFB#8
/-- `M_BRIGHT`, the start marker of BRIGHTNESS (00 R5). -/
abbrev Config.mBright : Byte := 0xFC#8

/-- `SERIAL_FORMAT` (00 R8, OPEN; 20 R65): the character format of the line. The model works on whole bytes; only the
byte time of 70 R314 depends on it (log 28). -/
structure SerialFormat where
  dataBits   : Nat
  parityBits : Nat
  stopBits   : Nat
  deriving DecidableEq, Repr

/-- PRESUMED (spec: "from general knowledge, not in source"; log 28): eight data bits, no parity, one stop bit. -/
def SerialFormat.eightN1 : SerialFormat := ⟨8, 0, 1⟩

/-- Nanoseconds one character takes on the line: one start bit, then the format's bits (70 R314). -/
def SerialFormat.byteTimeNs (f : SerialFormat) : Nat :=
  (1 + f.dataBits + f.parityBits + f.stopBits) * 1000000000 / Config.baud

/-- `SHIFT_ORDER` (00 R8, D4): which byte enters the chain first. -/
inductive ShiftOrder where
  | colThenRow
  | rowThenCol
  deriving DecidableEq, Repr

/-- `READ_UNIT` (00 R8, D7): what one read attempt, and so one timeout, covers: a whole `ReadBytes` call, or each byte. -/
inductive ReadUnit where
  | group
  | byte
  deriving DecidableEq, Repr

/-- `RENDER_ON_ANIM_ABORT` (00 R8, D12, C1): whether a failed ANIMATION command keeps `RB` or copies `SI` to it. -/
inductive RenderOnAbort where
  | keep
  | static
  deriving DecidableEq, Repr

/-- `TICK_COMPARE` (00 R8, D17). -/
inductive TickCompare where
  | atLeast
  | moreThan
  deriving DecidableEq, Repr

/-- The named parameters of the model (00 R6, R8). They are arguments of the step relation (10, after R46); the host's
`step` takes none, so State carries them (log 3) and a statement about every state holds for every value of them. -/
structure Params where
  brightnessMin     : Nat
  brightnessMax     : Nat
  readTimeoutMs     : Nat
  shiftOrder        : ShiftOrder
  readUnit          : ReadUnit
  renderOnAnimAbort : RenderOnAbort
  tickCompare       : TickCompare
  /-- `RX_FIFO_DEPTH`: a natural number, or infinity (`none`). -/
  rxFifoDepth       : Option Nat
  diagOnUnknown     : Bool
  deriving DecidableEq, Repr

/-- The constraints on the parameters (00 R7). -/
abbrev Params.Legal (p : Params) : Prop := p.brightnessMin ≤ p.brightnessMax ∧ 1 ≤ p.readTimeoutMs

/-- `BRIGHTNESS_DEFAULT` (00 R8, 44 R226, D15). -/
def Params.brightnessDefault (p : Params) : Nat := (p.brightnessMin + p.brightnessMax) / 2

/-- Free value (00 R8 `RX_FIFO_DEPTH`, OPEN, D21; log 7). -/
opaque Config.rxFifoDepth : Option Nat
/-- Free value (00 R8 `DIAG_ON_UNKNOWN`, OPEN, D20; log 18). -/
opaque Config.diagOnUnknown : Bool
/-- Free value: `SR` from power-on to the first SHIFT (10 R47, U2; log 6). -/
opaque Config.srPowerOn : ChainWord
/-- Free value: `OUT` from power-on to the first LATCH (10 R47, U2; log 6). -/
opaque Config.outPowerOn : ChainWord
/-- Free value: the duration in microseconds of the `n`-th operation whose duration the environment has not put into the
state's `clock.pace` (45 R236, U4; log 10). -/
opaque Config.duration : Nat → Nat
/-- Free value: the bytes, possibly none, of the `n`-th diagnostic write (40 R132, U3; log 18). -/
opaque Config.diagText : Nat → List Byte

/-- The parameters a block has at reset: the spec's values (00 R6, R8), and free values where it says OPEN. -/
def Params.initial : Params where
  brightnessMin     := 500
  brightnessMax     := 5000
  readTimeoutMs     := 1000
  shiftOrder        := .colThenRow
  readUnit          := .group
  renderOnAnimAbort := .keep
  tickCompare       := .atLeast
  rxFifoDepth       := Config.rxFifoDepth
  diagOnUnknown     := Config.diagOnUnknown

end Sys2Proof
end

