-- ==== Sys2Proof/Syntax.lean ====
section
/-! DEFINITION. The instruction set: the commands of the byte stream, the chain words and the internal operations of
spec/opcode_table.json (00_scope R2). The nine IGNORED rows are one instruction whose operand is the byte; the row
ENTER_CRITICAL / LEAVE_CRITICAL is one instruction whose operand is the edge (log 26).

An operand that a command did not receive before its read timed out is `none` (30 R95, 40 R123; log 20). -/

namespace Sys2Proof

inductive Instr where
  /-- SINGLE_FRAME (40 R125): the eight row bytes and the byte at the end-marker position. -/
  | singleFrame (rows : Option Frame) (endMarker : Option Byte)
  /-- ANIMATION (40 R126): the count byte, the Frames received whole, and the byte at the end-marker position. -/
  | animation (count : Option Byte) (frames : List Frame) (endMarker : Option Byte)
  /-- BRIGHTNESS (40 R127): the brightness byte. -/
  | brightness (b : Option Byte)
  /-- IGNORED (40 R128): a first byte that is no start marker. -/
  | ignored (m : Byte)
  /-- ROW_ACTIVATE (30 R100, 42 R181): the word of the pair (`1 << row`, `c`). -/
  | rowActivate (c : Byte) (row : RowIndex)
  /-- BLANK (30 R101): the zero word. -/
  | blank
  /-- MAIN_LOOP (45 R230): one iteration of the loop (log 2). -/
  | mainLoop
  /-- POLL (45 R231). -/
  | poll
  /-- HANDLE_COMMAND (40 R120): the marker `m` has been removed from `RXQ`. -/
  | handleCommand (m : Byte)
  /-- READ_BYTES (40 R121): `k` = 1 or 8. -/
  | readBytes (k : Nat)
  /-- ABORT (60 R262). -/
  | abort (e : ErrorKind) (cmd : CommandKind)
  /-- COMMIT_STATIC (41 R161). -/
  | commitStatic (t : Frame)
  /-- COMMIT_ANIMATION (41 R162). -/
  | commitAnimation (n : Nat) (g : List Frame)
  /-- CLEAR_ANIMATION (41 R163). -/
  | clearAnimation
  /-- SET_RENDER (41 R164). -/
  | setRender (f : Frame)
  /-- SET_BRIGHTNESS (44 R221). -/
  | setBrightness (b : Byte)
  /-- SCAN_STEP (42 R180). -/
  | scanStep
  /-- ASSERT (42 R181). -/
  | assert
  /-- SHIFT of one bit (42 R182). -/
  | shift (d : Bool)
  /-- LATCH (42 R184). -/
  | latch
  /-- HOLD (42 R185). -/
  | hold
  /-- BLANK_STEP (42 R186). -/
  | blankStep
  /-- ADVANCE (42 R187). -/
  | advance
  /-- ANIM_TICK (43 R210). -/
  | animTick
  /-- ENTER_CRITICAL / LEAVE_CRITICAL (45 R234). -/
  | critical (edge : CriticalEdge)
  deriving DecidableEq, Repr

end Sys2Proof
end

