-- ==== Sys2Proof/Decode.lean ====
section
/-! DEFINITION. Decoding of the byte stream and of the chain words, total on any bytes, and the encoder
(30_encoding R90 to R107). A decoder of the byte stream never fails on a first byte (30 R102); it refuses, by name, the
absence of one, and a chain word that no ASSERT or BLANK latches (30 R100, R101). -/

namespace Sys2Proof

/-- `bitrev8` (00 R9): bit `i` of the result is bit `7 - i` of `v`. -/
def bitrev8 (v : Byte) : Byte :=
  BitVec.ofBool (v.getLsbD 0) ++ BitVec.ofBool (v.getLsbD 1) ++ BitVec.ofBool (v.getLsbD 2) ++
    BitVec.ofBool (v.getLsbD 3) ++ BitVec.ofBool (v.getLsbD 4) ++ BitVec.ofBool (v.getLsbD 5) ++
    BitVec.ofBool (v.getLsbD 6) ++ BitVec.ofBool (v.getLsbD 7)

/-- The row-select byte `1 << row` (30 R99). -/
def rowSelect (row : RowIndex) : Byte := 1#8 <<< row.toNat

/-- The row a one-hot row-select byte selects (30 R99). -/
def selectedRow (r : Byte) : Option RowIndex :=
  match r with
  | 0x01#8 => some 0
  | 0x02#8 => some 1
  | 0x04#8 => some 2
  | 0x08#8 => some 3
  | 0x10#8 => some 4
  | 0x20#8 => some 5
  | 0x40#8 => some 6
  | 0x80#8 => some 7
  | _ => none

/-- The `SR16` word of the pair (`1 << row`, `c`): `{bitrev8(c), 1 << row}` (30 R100). -/
def rowWord (c : Byte) (row : RowIndex) : ChainWord := bitrev8 c ++ rowSelect row

/-- A count byte the receiver accepts: `1 <= n <= MAX_FRAMES`, unsigned (30 R97, R106). -/
def countAccepted (n : Byte) : Bool := decide (1 ≤ n.toNat) && decide (n.toNat ≤ Config.maxFrames)

/-- A first byte that starts a command which reads further bytes (30 R102). -/
def isStartMarker (m : Byte) : Bool := m == Config.mSingle || m == Config.mAnim || m == Config.mBright

/-- A Frame operand: eight bytes as they are, `F[k]` the `k`-th (30 R96, 20 R61); none if there are fewer. -/
def takeFrame : List Byte → Option (Frame × List Byte)
  | b0 :: b1 :: b2 :: b3 :: b4 :: b5 :: b6 :: b7 :: rest => some (⟨b0, b1, b2, b3, b4, b5, b6, b7⟩, rest)
  | _ => none

/-- The bytes of a Frame in the order sent, row 0 first (20 R61). -/
def Frame.bytes (f : Frame) : List Byte := [f.row0, f.row1, f.row2, f.row3, f.row4, f.row5, f.row6, f.row7]

/-- Up to `n` Frames in the order sent (20 R62), and the bytes after them. A Frame cut short takes its bytes with it
(40 R123). -/
def takeFrames : Nat → List Byte → List Frame × List Byte
  | 0, bs => ([], bs)
  | n + 1, bs =>
    match takeFrame bs with
    | none => ([], [])
    | some (f, rest) =>
      match takeFrames n rest with
      | (fs, after) => (f :: fs, after)

/-- The byte at an operand position, if it arrived. -/
def takeByte : List Byte → Option Byte × List Byte
  | [] => (none, [])
  | b :: rest => (some b, rest)

/-- The four command kinds (00 R2), as the receiver's dispatch sees them (40 R120). -/
inductive Command where
  | singleFrame (rows : Option Frame) (endMarker : Option Byte)
  | animation (count : Option Byte) (frames : List Frame) (endMarker : Option Byte)
  | brightness (b : Option Byte)
  | ignored (m : Byte)
  deriving DecidableEq, Repr

/-- The instruction a command is. -/
def Command.toInstr : Command → Instr
  | .singleFrame rows e => .singleFrame rows e
  | .animation n frames e => .animation n frames e
  | .brightness b => .brightness b
  | .ignored m => .ignored m

/-- The operands of SINGLE_FRAME (format F10, 30 R91). -/
def decodeSingleFrame (bs : List Byte) : Command × List Byte :=
  match takeFrame bs with
  | none => (.singleFrame none none, [])
  | some (f, rest) => (.singleFrame (some f) (takeByte rest).1, (takeByte rest).2)

/-- The Frames and the end marker of ANIMATION after an accepted count `n`. -/
def decodeFrames (n : Byte) (bs : List Byte) : Command × List Byte :=
  match takeFrames n.toNat bs with
  | (fs, after) =>
    if fs.length = n.toNat then (.animation (some n) fs (takeByte after).1, (takeByte after).2)
    else (.animation (some n) fs none, [])

/-- The operands of ANIMATION (format AV, 30 R92): a rejected count ends the command (30 R106). -/
def decodeAnimation (bs : List Byte) : Command × List Byte :=
  match bs with
  | [] => (.animation none [] none, [])
  | n :: rest => if countAccepted n then decodeFrames n rest else (.animation (some n) [] none, rest)

/-- The map of first bytes (30 R102): the command a first byte `m` begins, its operands taken from the bytes that follow
by position (20 R67), and the bytes after the command. Bytes that do not follow are operands that did not arrive. -/
def decodeCommand (m : Byte) (bs : List Byte) : Command × List Byte :=
  if m = Config.mSingle then decodeSingleFrame bs
  else if m = Config.mAnim then decodeAnimation bs
  else if m = Config.mBright then (.brightness (takeByte bs).1, (takeByte bs).2)
  else (.ignored m, bs)

/-- Why a decoder refuses. -/
inductive DecodeError where
  /-- There is no first byte. -/
  | noFirstByte
  /-- The 16-bit word is neither zero nor one with a one-hot row-select byte (30 R99 to R101). -/
  | noScanWord
  deriving DecidableEq, Repr

/-- Decoding of the byte stream: the instruction and the bytes after it. -/
def decode : List Byte → Except DecodeError (Instr × List Byte)
  | [] => .error .noFirstByte
  | m :: bs => .ok ((decodeCommand m bs).1.toInstr, (decodeCommand m bs).2)

/-- Decoding of a chain word (30 R100, R101). -/
def decodeChainWord (w : ChainWord) : Except DecodeError Instr :=
  if w = 0 then .ok .blank
  else
    match selectedRow (w.extractLsb' 0 8) with
    | some row => .ok (.rowActivate (bitrev8 (w.extractLsb' 8 8)) row)
    | none => .error .noScanWord

/-! ## The encoder, from the same tables -/

/-- The words of an encoded instruction: bytes of the stream, or one chain word. -/
inductive Code where
  | stream (bytes : List Byte)
  | chain (w : ChainWord)
  deriving DecidableEq, Repr

/-- Decoding of either kind of words, the whole of them. -/
def Code.decode : Code → Except DecodeError (Instr × List Byte)
  | .stream bytes => Sys2Proof.decode bytes
  | .chain w =>
    match decodeChainWord w with
    | .ok i => .ok (i, [])
    | .error e => .error e

/-- The row bytes of an ANIMATION payload: Frame 0's rows, then Frame 1's (20 R62). -/
def framesBytes : List Frame → List Byte
  | [] => []
  | f :: fs => f.bytes ++ framesBytes fs

/-- The bytes of a command that arrived (formats F10, AV, B2, U1: 30 R91 to R94). A part that did not arrive has none. -/
def Command.bytes : Command → List Byte
  | .singleFrame rows e => Config.mSingle :: ((rows.map Frame.bytes).getD [] ++ e.toList)
  | .animation n frames e => Config.mAnim :: (n.toList ++ framesBytes frames ++ e.toList)
  | .brightness b => Config.mBright :: b.toList
  | .ignored m => [m]

/-- The words of an instruction; the internal operations have none (spec/opcode_table.json, space "internal operation"). -/
def encode : Instr → Option Code
  | .singleFrame rows e => some (.stream (Command.singleFrame rows e).bytes)
  | .animation n frames e => some (.stream (Command.animation n frames e).bytes)
  | .brightness b => some (.stream (Command.brightness b).bytes)
  | .ignored m => some (.stream (Command.ignored m).bytes)
  | .rowActivate c row => some (.chain (rowWord c row))
  | .blank => some (.chain 0)
  | .mainLoop => none
  | .poll => none
  | .handleCommand _ => none
  | .readBytes _ => none
  | .abort _ _ => none
  | .commitStatic _ => none
  | .commitAnimation _ _ => none
  | .clearAnimation => none
  | .setRender _ => none
  | .setBrightness _ => none
  | .scanStep => none
  | .assert => none
  | .shift _ => none
  | .latch => none
  | .hold => none
  | .blankStep => none
  | .advance => none
  | .animTick => none
  | .critical _ => none

/-! ## The host's words -/

/-- The longest command, in bytes (30 R92). -/
abbrev longestCommand : Nat := 83

/-- The bytes of a command whose first `nbits` bits are `w`, the first byte the least significant, zeros after them up
to the longest command. -/
def tableBytes (nbits w : Nat) : List Byte :=
  (List.range longestCommand).map fun j => BitVec.ofNat 8 (if 8 * j < nbits then w >>> (8 * j) else 0)

/-- The instruction the decoder reads from the table's words: 16 bits are a chain word, any other length is a command of
the byte stream (spec/opcode_table.json, "space"; log 26). -/
def decodeTableWord (nbits w : Nat) : Option Instr :=
  if nbits = 16 then
    match decodeChainWord (BitVec.ofNat 16 w) with
    | .ok i => some i
    | .error _ => none
  else if nbits = 0 then none
  else
    match decode (tableBytes nbits w) with
    | .ok (i, _) => some i
    | .error _ => none

end Sys2Proof
end

