-- ==== Sys2Proof/WellFormed.lean ====
section
/-! DEFINITION. Which instructions the spec's formats admit. -/

namespace Sys2Proof

/-- Which error kinds a command can raise (60 R251, R265, R266). -/
def canRaise : CommandKind → ErrorKind → Bool
  | _, .readTimeout => true
  | .singleFrame, .invalidEndMarker => true
  | .animation, .invalidEndMarker => true
  | .animation, .invalidFrameCount => true
  | .singleFrame, .invalidFrameCount => false
  | .brightness, .invalidEndMarker => false
  | .brightness, .invalidFrameCount => false
  | _, .unknownMarker => false

/-- Operands received in stream order: no ANIMATION operand follows one that did not arrive, and a rejected count ends
the command (30 R92, R95, R106). -/
def wellFormedAnimation : Option Byte → List Frame → Option Byte → Bool
  | none, frames, e => frames.isEmpty && e.isNone
  | some n, frames, e =>
    if countAccepted n then
      match e with
      | some _ => frames.length == n.toNat
      | none => decide (frames.length ≤ n.toNat)
    else frames.isEmpty && e.isNone

/-- The form checks. -/
def Instr.wellFormed : Instr → Bool
  | .singleFrame rows e => rows.isSome || e.isNone
  | .animation n frames e => wellFormedAnimation n frames e
  | .brightness _ => true
  | .ignored m => !isStartMarker m
  | .rowActivate _ _ => true
  | .blank => true
  | .mainLoop => true
  | .poll => true
  | .handleCommand _ => true
  | .readBytes k => k == 1 || k == 8
  | .abort e cmd => canRaise cmd e
  | .commitStatic _ => true
  | .commitAnimation n g => decide (1 ≤ n) && decide (n ≤ Config.maxFrames) && g.length == n
  | .clearAnimation => true
  | .setRender _ => true
  | .setBrightness _ => true
  | .scanStep => true
  | .assert => true
  | .shift _ => true
  | .latch => true
  | .hold => true
  | .blankStep => true
  | .advance => true
  | .animTick => true
  | .critical _ => true

/-- `i` is an instruction the spec's formats admit. -/
abbrev WellFormed (i : Instr) : Prop := i.wellFormed = true

end Sys2Proof
end

