-- ==== Sys2Proof/Machine/State.lean ====
section
/-! DEFINITION. The state of the block (10_state R20 to R46), the reasons a step can stop, and the state after reset
(10_state R47, 70_reset_and_hazards R290, R291). Which fields are the spec's and which the model's own is said in
INVENTORY.md under State. -/

namespace Sys2Proof.Machine

/-- `phase` (10 R26): the position in the main loop. -/
inductive Phase where
  | poll
  | scan
  | tick
  deriving DecidableEq, Repr

/-- `rxstate` (10 R27). -/
inductive RxState where
  | idle
  | readingPayload
  | readingEndMarker
  | commit
  | abort
  deriving DecidableEq, Repr

/-- `scanphase` (10 R29). -/
inductive ScanPhase where
  | assert
  | hold
  | blank
  | advance
  deriving DecidableEq, Repr

/-- What `ReadBytes` returns to its caller (40 R121): `Ok(bytes)` or `Timeout`. -/
inductive ReadResult where
  | ok (bytes : List Byte)
  | timeout
  deriving DecidableEq, Repr

/-- Ghost events: a test aid, read by no operation (60 R252; 00 R14, 42 R192; log 22). -/
inductive Event where
  /-- An error of the kind, raised by the command, or by POLL's dispatch where there is none (60 R251). -/
  | error (e : ErrorKind) (cmd : Option CommandKind)
  /-- The commit of a valid command. -/
  | committed (cmd : CommandKind)
  /-- `ClearAnimation`, with the Frame `AB[currentFrameIndex]` if an animation was active (10 R23, third arm). -/
  | cleared (shown : Option Frame)
  /-- A LATCH: the word the outputs took, and the instant. -/
  | latched (out : ChainWord) (instant : Nat)
  deriving DecidableEq, Repr

/-- A byte of the serial line with the instant, in microseconds, at which it arrives (10 R42). -/
structure RxByte where
  arrival : Nat
  byte    : Byte
  deriving DecidableEq, Repr

/-- The three buffers (10 R20, R21, R22). `ab` lists the live Frames, `AB[0]` to `AB[frameCount - 1]`. -/
structure FrameStore where
  si : Frame
  ab : List Frame
  rb : Frame
  deriving DecidableEq, Repr

/-- AnimationState and the frame-change timer (10 R30, R34, R35, R36). -/
structure Animation where
  active            : Bool
  frameCount        : Nat
  currentFrameIndex : Nat
  lastFrameChangeMs : Nat
  deriving DecidableEq, Repr

/-- The sequencer state (10 R26). -/
structure Sequencer where
  phase      : Phase
  rxstate    : RxState
  scanphase  : ScanPhase
  currentRow : RowIndex
  deriving DecidableEq, Repr

/-- The shift-register chain and its three lines (10 R38, R39, R40). -/
structure Chain where
  sr    : ChainWord
  out   : ChainWord
  ser   : Bool
  srclk : Bool
  rclk  : Bool
  deriving DecidableEq, Repr

/-- The receiver's hidden state: `STAGE` (10 R44), `read_start_ms` (10 R45), and the value its last `ReadBytes` call
returned (the model's own, log 19). -/
structure Receiver where
  stage       : List Byte
  readStartMs : Nat
  lastRead    : ReadResult
  deriving DecidableEq, Repr

/-- The serial line towards the block: `RXQ`, the bytes that have arrived, oldest first (10 R42), and the bytes the host
has still to send, in the order sent (10, after R46: a parameter of the step relation; log 29). -/
structure Link where
  rxq        : List RxByte
  hostStream : List RxByte
  deriving DecidableEq, Repr

/-- `TXQ` (10 R43) and the number of diagnostic texts drawn so far (log 18). -/
structure Transmit where
  txq   : List Byte
  draws : Nat
  deriving DecidableEq, Repr

/-- `t` in microseconds (10 R46), the durations the environment has chosen for the next operations, and the number of
durations drawn after those (00 R12, 45 R236; log 10). -/
structure Clock where
  t     : Nat
  pace  : List Nat
  draws : Nat
  deriving DecidableEq, Repr

/-- The whole state. -/
structure State where
  store   : FrameStore
  anim    : Animation
  seq     : Sequencer
  dwellUs : Nat
  ie      : Bool
  chain   : Chain
  rx      : Receiver
  link    : Link
  tx      : Transmit
  clock   : Clock
  params  : Params
  trace   : List Event
  deriving DecidableEq, Repr

/-- Why a step stops. -/
inductive Fault where
  /-- A byte arrived while `RXQ` held `RX_FIFO_DEPTH` bytes (10 R42, U7). Raised by the delivery of arrivals, in any
  operation in which time passes. Safe: the spec leaves the loss open, and no claim covers the run. -/
  | rxOverrun
  deriving DecidableEq, Repr

/-- Why an instruction has no meaning. -/
inductive Refusal where
  /-- Rejected by name in `exec`'s arm. Safe. No arm of this model does so. -/
  | notModelled (mnemonic : String)
  deriving DecidableEq, Repr

/-- The machine right after power-on, the one reset (10 R47, 70 R290, R291). -/
def State.reset : State where
  store   := { si := Frame.zero, ab := [], rb := Frame.zero }
  anim    := { active := false, frameCount := 0, currentFrameIndex := 0, lastFrameChangeMs := 0 }
  seq     := { phase := .poll, rxstate := .idle, scanphase := .assert, currentRow := 0 }
  dwellUs := Params.initial.brightnessDefault
  ie      := true
  chain   := { sr := Config.srPowerOn, out := Config.outPowerOn, ser := false, srclk := false, rclk := false }
  rx      := { stage := [], readStartMs := 0, lastRead := .ok [] }
  link    := { rxq := [], hostStream := [] }
  tx      := { txq := [], draws := 0 }
  clock   := { t := 0, pace := [], draws := 0 }
  params  := Params.initial
  trace   := []

end Sys2Proof.Machine
end

