-- ==== Sys2Proof/Machine/Flags.lean ====
section
/-! DEFINITION. The flags and comparisons an operation tests: `rx_avail` (10_state R32), the read deadline
(40_serial_protocol_receiver R122), the due tick (43_animation_scheduler R211), the full queue (93 U7), and the writes
of `IE` (45_main_loop R234). -/

namespace Sys2Proof.Machine

/-- `now_ms = t div 1000` (00 R12). -/
def nowMs (s : State) : Nat := s.clock.t / 1000

/-- `rx_avail`: `RXQ` holds a byte (10 R32). -/
def rxAvail (s : State) : Bool := !s.link.rxq.isEmpty

/-- `D`, the first instant at which `now_ms - read_start_ms` reaches `READ_TIMEOUT_MS` (40 R122). -/
def readDeadline (s : State) : Nat := (s.rx.readStartMs + s.params.readTimeoutMs) * 1000

/-- The last instant at which a read attempt that starts now can still end: it lasts less than `READ_TIMEOUT_MS + 1` ms,
counted from the instant it starts (40 R134). -/
def readLimit (s : State) : Nat := s.clock.t + (s.params.readTimeoutMs + 1) * 1000 - 1

/-- `now_ms - lastFrameChange_ms` against `FRAME_INTERVAL_MS`, by `TICK_COMPARE` (43 R211). -/
def intervalElapsed (s : State) : Bool :=
  match s.params.tickCompare with
  | .atLeast => decide (Config.frameIntervalMs ≤ nowMs s - s.anim.lastFrameChangeMs)
  | .moreThan => decide (Config.frameIntervalMs < nowMs s - s.anim.lastFrameChangeMs)

/-- A tick is due (43 R210, 60 R254). -/
def tickDue (s : State) : Bool := s.anim.active && intervalElapsed s

/-- A queue of `n` bytes is full at depth `RX_FIFO_DEPTH`; an infinite queue never is (10 R42). -/
def queueFull (depth : Option Nat) (n : Nat) : Bool :=
  match depth with
  | none => false
  | some d => decide (d ≤ n)

/-- `EnterCritical`: `IE <- 0` (45 R234). -/
def enterCritical (s : State) : State := { s with ie := false }

/-- `LeaveCritical`: `IE <- 1` (45 R234). -/
def leaveCritical (s : State) : State := { s with ie := true }

/-- `atomic { IE <- 0; …; IE <- 1 }` (20 R71, 41 R165): one indivisible transition. -/
def atomically (f : State → State) (s : State) : State := leaveCritical (f (enterCritical s))

end Sys2Proof.Machine
end

