-- ==== Sys2Proof/Machine/Operands.lean ====
section
/-! DEFINITION. The operands of the operations: cells of the frame store (00_scope R11, 10_state R41), the bits an ASSERT
shifts (42_display_scanner R183), and the chain word a scan step is about to latch. -/

namespace Sys2Proof.Machine

/-- `F[r]`, the row bitmask of row `r` (00 R10). -/
def rowOf (f : Frame) (r : RowIndex) : Byte :=
  match r with
  | 0#3 => f.row0
  | 1#3 => f.row1
  | 2#3 => f.row2
  | 3#3 => f.row3
  | 4#3 => f.row4
  | 5#3 => f.row5
  | 6#3 => f.row6
  | 7#3 => f.row7

/-- `F` with row `r` replaced. No operation of the block writes one cell; the host's fetch words do. -/
def setRow (f : Frame) (r : RowIndex) (c : Byte) : Frame :=
  match r with
  | 0#3 => { f with row0 := c }
  | 1#3 => { f with row1 := c }
  | 2#3 => { f with row2 := c }
  | 3#3 => { f with row3 := c }
  | 4#3 => { f with row4 := c }
  | 5#3 => { f with row5 := c }
  | 6#3 => { f with row6 := c }
  | 7#3 => { f with row7 := c }

/-- `C = RB[currentRow]`, the column-data byte of the next ASSERT (42 R181). -/
def columnData (s : State) : Byte := rowOf s.store.rb s.seq.currentRow

/-- `AB[f]`. An index outside the live Frames, which 20 R76 excludes, gives the Frame on display (log 21). -/
def animationFrame (s : State) (f : Nat) : Frame := (s.store.ab[f]?).getD s.store.rb

/-- The bits of a byte in the order `ShiftLSBFirst` shifts them (42 R183). -/
def lsbFirst (v : Byte) : List Bool :=
  [v.getLsbD 0, v.getLsbD 1, v.getLsbD 2, v.getLsbD 3, v.getLsbD 4, v.getLsbD 5, v.getLsbD 6, v.getLsbD 7]

/-- The bits of a byte in the order `ShiftMSBFirst` shifts them (42 R183). -/
def msbFirst (v : Byte) : List Bool :=
  [v.getLsbD 7, v.getLsbD 6, v.getLsbD 5, v.getLsbD 4, v.getLsbD 3, v.getLsbD 2, v.getLsbD 1, v.getLsbD 0]

/-- The sixteen bits that put the pair (`1 << row`, `c`) into the chain: column data least significant bit first, row
select most significant bit first (20 R63), in the order of the two bytes that `SHIFT_ORDER` gives (20 R64). -/
def pairBits (order : ShiftOrder) (c : Byte) (row : RowIndex) : List Bool :=
  match order with
  | .colThenRow => lsbFirst c ++ msbFirst (rowSelect row)
  | .rowThenCol => msbFirst (rowSelect row) ++ lsbFirst c

/-- The word the outputs take for the pair (`1 << row`, `c`) (20 R64). -/
def pairWord (order : ShiftOrder) (c : Byte) (row : RowIndex) : ChainWord :=
  match order with
  | .colThenRow => rowWord c row
  | .rowThenCol => rowSelect row ++ bitrev8 c

/-- `dwell(b)`: exact product first, then truncating division, then the sum (44 R221, R222). -/
def dwellOf (p : Params) (b : Byte) : Nat :=
  p.brightnessMin + b.toNat * (p.brightnessMax - p.brightnessMin) / 255

/-- The words of the command in flight that the receiver holds after its marker: `STAGE`, and the byte read at the
end-marker position (10 R44, 40 R124). -/
def receivedBytes (s : State) : List Byte :=
  match s.seq.rxstate, s.rx.lastRead with
  | .readingEndMarker, .ok bs => s.rx.stage ++ bs
  | _, _ => s.rx.stage

end Sys2Proof.Machine
end

