-- ==== Sys2Proof/Machine/Ops.lean ====
section
/-! DEFINITION. The shared operations: sequencing, the passing of time with the arrival of bytes, the deadline-bounded
read, diagnostics, the abort sequence (60_exceptions R262) with the return to the main loop (R268), the writes of the
frame store, the chain and the dwell time, and the reception of a command's operands. -/

namespace Sys2Proof.Machine

/-- The outcome of an operation that answers a value of `α`. -/
abbrev Result (α : Type) := Host.Outcome α Fault Refusal

/-- First `o`, then `f` on what it answers (20 R77: each operation ends before the next begins). -/
def andThen {α β : Type} (o : Result α) (f : α → Result β) : Result β :=
  match o with
  | .next a => f a
  | .fault r => .fault r
  | .refused r => .refused r

/-! ## Named updates -/

/-- `phase <- p`. -/
def setPhase (p : Phase) (s : State) : State := { s with seq.phase := p }

/-- `scanphase <- p`. -/
def setScanphase (p : ScanPhase) (s : State) : State := { s with seq.scanphase := p }

/-- `rxstate <- r`. -/
def setRxstate (r : RxState) (s : State) : State := { s with seq.rxstate := r }

/-- A ghost event (60 R252). -/
def note (e : Event) (s : State) : State := { s with trace := e :: s.trace }

/-- The clock at instant `t`. -/
def setTime (t : Nat) (s : State) : State := { s with clock.t := t }

/-! ## Time and arrivals -/

/-- Bytes whose arrival instant has come join the queue in the order sent; none if one of them finds the queue full
(10 R42, U7). Bytes that arrive at one instant all join before the block acts at that instant (log 8). -/
def arrive (depth : Option Nat) (now : Nat) : List RxByte → List RxByte → Option Link
  | q, [] => some { rxq := q, hostStream := [] }
  | q, b :: bs =>
    if b.arrival ≤ now then
      if queueFull depth q.length then none else arrive depth now (q ++ [b]) bs
    else some { rxq := q, hostStream := b :: bs }

/-- The arrivals up to the present instant. -/
def deliver (s : State) : Result State :=
  match arrive s.params.rxFifoDepth s.clock.t s.link.rxq s.link.hostStream with
  | some l => .next { s with link := l }
  | none => .fault .rxOverrun

/-- The clock after `us` microseconds and one drawn duration: the environment's next choice, or a free value
(45 R236). -/
def clockAfter (us : Nat) (c : Clock) : Clock :=
  match c.pace with
  | d :: ds => { c with t := c.t + us + d, pace := ds }
  | [] => { c with t := c.t + us + Config.duration c.draws, draws := c.draws + 1 }

/-- At least `us` microseconds pass (`wait_us`, 00 R11), and the bytes that arrive meanwhile join `RXQ`. -/
def pass (us : Nat) (s : State) : Result State := deliver { s with clock := clockAfter us s.clock }

/-- The finite, unspecified time an operation takes (45 R236). -/
def elapse (s : State) : Result State := pass 0 s

/-- The clock after one drawn duration cut off at the instant `limit`. -/
def clockUntil (limit : Nat) (c : Clock) : Clock :=
  { clockAfter 0 c with t := max c.t (min limit (clockAfter 0 c).t) }

/-- The time an operation takes that ends by `limit`. -/
def elapseUntil (limit : Nat) (s : State) : Result State := deliver { s with clock := clockUntil limit s.clock }

/-! ## The receive queue and the deadline-bounded read -/

/-- The oldest byte of `RXQ`, removed from it; none if there is none (20 R72). -/
def removeOldest (s : State) : Option (Byte × State) :=
  match s.link.rxq with
  | [] => none
  | b :: q => some (b.byte, { s with link.rxq := q })

/-- The wait of `ReadBytes` for one byte (40 R122). With `RXQ` empty, time passes until the next byte arrives or the
deadline is reached; a byte is tested for before the deadline. -/
def awaitByte (s : State) : Result (Option Byte × State) :=
  andThen (deliver s) fun s =>
    match removeOldest s with
    | some (b, s) => .next (some b, s)
    | none =>
      match s.link.hostStream with
      | [] => .next (none, setTime (max s.clock.t (readDeadline s)) s)
      | b :: _ =>
        if b.arrival ≤ max s.clock.t (readDeadline s) then
          andThen (deliver (setTime (max s.clock.t b.arrival) s)) fun s =>
            match removeOldest s with
            | some (b, s) => .next (some b, s)
            | none => .next (none, s)
        else .next (none, setTime (max s.clock.t (readDeadline s)) s)

/-- Under `READ_UNIT = BYTE` each byte starts a new timeout; under `GROUP` the call has one (40 R121, D7). -/
def restartRead (s : State) : State :=
  match s.params.readUnit with
  | .group => s
  | .byte => { s with rx.readStartMs := nowMs s }

/-- The last instant of the attempt that waits for the next byte, where that of the one before it is `limit`: the attempt
is a new one under `READ_UNIT = BYTE`, the same under `GROUP`. -/
def attemptLimit (limit : Nat) (s : State) : Nat :=
  match s.params.readUnit with
  | .group => limit
  | .byte => readLimit s

/-- The loop of `ReadBytes` with `k` bytes still to take, `got` taken, and `limit` the last instant of the attempt under
way. On `Timeout` the bytes taken are discarded (40 R123). A call that succeeds returns some time after its last byte, by
`limit` (40 R134). -/
def readLoop : Nat → List Byte → Nat → State → Result State
  | 0, got, limit, s => elapseUntil limit { s with rx.lastRead := .ok got }
  | k + 1, got, limit, s =>
    andThen (awaitByte (restartRead s)) fun p =>
      match p with
      | (some b, u) => readLoop k (got ++ [b]) (attemptLimit limit s) u
      | (none, s) => .next { s with rx.lastRead := .timeout }

/-- `ReadBytes(k)` (40 R121, R122). What it returns to its caller is left in `rx.lastRead`. -/
def readBytes (k : Nat) (s : State) : Result State :=
  readLoop k [] (readLimit s) { s with rx.readStartMs := nowMs s }

/-! ## Diagnostics -/

/-- `diagnostic(draw)` (40 R132): zero or more bytes of text no rule chooses, and the time the write takes. -/
def diagnostic (s : State) : Result State :=
  elapse { s with tx := { txq := s.tx.txq ++ Config.diagText s.tx.draws, draws := s.tx.draws + 1 } }

/-! ## The frame store, the animation state and the dwell time -/

/-- The animation made inactive and `AB` emptied (10 R24, R21). -/
def deactivate (s : State) : State :=
  { s with store.ab := [], anim.active := false, anim.frameCount := 0, anim.currentFrameIndex := 0 }

/-- `RB <- F`, all eight cells in one step (41 R164). -/
def writeRender (f : Frame) (s : State) : State := { s with store.rb := f }

/-- `CommitStatic(T)` (41 R161). -/
def commitStatic (t : Frame) (s : State) : State :=
  note (.committed .singleFrame)
    (atomically (fun s => deactivate (writeRender t { s with store.si := t })) s)

/-- `CommitAnimation(n, G)` (41 R162). `G` has `n >= 1` Frames; with none, which 30 R97 excludes, `RB` is kept. -/
def commitAnimation (n : Nat) (g : List Frame) (s : State) : State :=
  note (.committed .animation)
    (atomically
      (fun s =>
        { s with
          store.ab := g.take n
          store.rb := g.head?.getD s.store.rb
          anim := { active := true, frameCount := n, currentFrameIndex := 0, lastFrameChangeMs := nowMs s } })
      s)

/-- The Frame `AB[currentFrameIndex]` if an animation is active. -/
def shownFrame (s : State) : Option Frame :=
  if s.anim.active then some (animationFrame s s.anim.currentFrameIndex) else none

/-- `RB` after a failed ANIMATION command, by `RENDER_ON_ANIM_ABORT` (41 R163, C1). -/
def renderOnAbort (s : State) : State :=
  match s.params.renderOnAnimAbort with
  | .keep => s
  | .static => writeRender s.store.si s

/-- `ClearAnimation()` (41 R163). -/
def clearAnimation (s : State) : State :=
  note (.cleared (shownFrame s)) (atomically (fun s => renderOnAbort (deactivate s)) s)

/-- `SetBrightness(b)` (44 R221). -/
def setBrightness (b : Byte) (s : State) : State :=
  note (.committed .brightness) (atomically (fun s => { s with dwellUs := dwellOf s.params b }) s)

/-- The update of ANIM_TICK (43 R210): the index moves on, `RB` takes the Frame at the new index, the timer is set to
the present time. -/
def advanceFrame (s : State) : State :=
  atomically
    (fun s =>
      let i := (s.anim.currentFrameIndex + 1) % s.anim.frameCount
      writeRender (animationFrame s i)
        { s with anim.currentFrameIndex := i, anim.lastFrameChangeMs := nowMs s })
    s

/-! ## The abort sequence and the return to the main loop -/

/-- The end of a command: `rxstate <- IDLE`, `STAGE` dead (60 R268, 10 R44). -/
def returnToLoop (s : State) : State := { s with seq.rxstate := .idle, rx.stage := [] }

/-- What an abort writes before its diagnostic: nothing of the payload is kept, and an ANIMATION command clears the
animation (60 R262 to R265). -/
def abortWrites (e : ErrorKind) (cmd : CommandKind) (s : State) : State :=
  let s := note (.error e (some cmd)) { s with seq.rxstate := .abort, rx.stage := [] }
  match cmd with
  | .animation => clearAnimation s
  | .singleFrame => s
  | .brightness => s

/-- `raise E(cmd)`, the abort sequence (40 R129, 60 R262): nothing is saved, and control goes on in the main loop just
after POLL. -/
def raiseError (e : ErrorKind) (cmd : CommandKind) (s : State) : Result State :=
  andThen (diagnostic (abortWrites e cmd s)) fun s => .next (returnToLoop s)

/-- The end of a valid command: `rxstate <- COMMIT`, its commit, a diagnostic, `rxstate <- IDLE` (40 R125 to R127). -/
def finishCommand (commit : State → State) (s : State) : Result State :=
  andThen (elapse (commit (setRxstate .commit s))) fun s =>
    andThen (diagnostic s) fun s => .next (returnToLoop s)

/-! ## The chain -/

/-- `Shift(d)` on the chain: `SR <- {SR[14:0], d}` (10 R38, 42 R182); the lines end at their idle levels. -/
def chainShift (d : Bool) (c : Chain) : Chain :=
  { c with sr := (c.sr.setWidth 15).concat d, ser := d, srclk := false }

/-- `Latch()` on the chain: `OUT <- SR` (10 R39, 42 R184). -/
def chainLatch (c : Chain) : Chain := { c with out := c.sr, rclk := false }

/-- SHIFT of one bit, and the time it takes (42 R182). -/
def shiftBit (d : Bool) (s : State) : Result State := elapse { s with chain := chainShift d s.chain }

/-- LATCH, and the time it takes (42 R184). -/
def latchOutputs (s : State) : Result State :=
  elapse (note (.latched s.chain.sr s.clock.t) { s with chain := chainLatch s.chain })

/-- SHIFTs of the listed bits, in order. -/
def shiftBits : List Bool → State → Result State
  | [], s => .next s
  | d :: ds, s => andThen (shiftBit d s) (shiftBits ds)

/-- `MemWrite(OUTW, 0, 2, w)`: sixteen SHIFTs and one LATCH (00 R11, 42 R181). -/
def outputBits (bits : List Bool) (s : State) : Result State := andThen (shiftBits bits s) latchOutputs

/-! ## Reception of a command's operands -/

/-- `case ReadBytes(k) of Ok(B) -> STAGE <- STAGE ++ B` (10 R44); after a `Timeout` the stage is as it was. -/
def stageRead (s : State) : State :=
  match s.rx.lastRead with
  | .ok bs => { s with rx.stage := s.rx.stage ++ bs }
  | .timeout => s

/-- A `ReadBytes(k)` call of the receiver, and the time the receiver takes after it (45 R236). -/
def readOperand (k : Nat) (s : State) : Result State := andThen (readBytes k s) elapse

/-- `ReadBytes(k)` of payload. -/
def readPayload (k : Nat) (s : State) : Result State := andThen (readOperand k s) fun s => .next (stageRead s)

/-- `f` if the last read returned `Ok`; nothing more is read after a `Timeout` (60 R256). -/
def ifRead (f : State → Result State) (s : State) : Result State :=
  match s.rx.lastRead with
  | .ok _ => f s
  | .timeout => .next s

/-- The Frames of an ANIMATION payload, one `ReadBytes(8)` each (40 R126). -/
def readFrames : Nat → State → Result State
  | 0, s => .next s
  | n + 1, s => andThen (readPayload 8 s) (ifRead (readFrames n))

/-- `rxstate <- READING_END_MARKER`; `ReadBytes(1)` (40 R124). -/
def readEndMarker (s : State) : Result State := readOperand 1 (setRxstate .readingEndMarker s)

/-- The Frames and the end marker of ANIMATION, if the count byte in `STAGE` is accepted (40 R126). -/
def readAnimation (s : State) : Result State :=
  match s.rx.stage with
  | [n] =>
    if countAccepted n then andThen (readFrames n.toNat s) (ifRead readEndMarker) else .next s
  | _ => .next s

/-- `rxstate <- READING_PAYLOAD`, with nothing staged yet (40 R124, 10 R44). -/
def startCommand (s : State) : State := { s with seq.rxstate := .readingPayload, rx.stage := [] }

/-- The reads of the command that the removed marker `m` begins (40 R125 to R128): its operands are left in `STAGE` and
in the last read's result. -/
def receive (m : Byte) (s : State) : Result State :=
  if m = Config.mSingle then andThen (readPayload 8 (startCommand s)) (ifRead readEndMarker)
  else if m = Config.mAnim then andThen (readPayload 1 (startCommand s)) (ifRead readAnimation)
  else if m = Config.mBright then readPayload 1 (startCommand s)
  else .next s

/-- The command the marker `m` and the bytes received for it are (30 R102), after its reception. -/
def receiveCommand (m : Byte) (s : State) : Result (Command × State) :=
  andThen (receive m s) fun s => .next ((decodeCommand m (receivedBytes s)).1, s)

/-- POLL's marker: the oldest byte of `RXQ` if there is one, removed, and the time that takes (45 R231). -/
def takeMarker (s : State) : Result (Option Byte × State) :=
  andThen (deliver s) fun s =>
    match removeOldest s with
    | none => .next (none, s)
    | some (m, s) => andThen (elapse s) fun s => .next (some m, s)

end Sys2Proof.Machine
end

