-- ==== Sys2Proof/Machine/FrameStore.lean ====
section
/-! DEFINITION. The operations of the frame store and of the brightness register (41_frame_store, 44_brightness_controller
R221): each one indivisible write, and the time it takes. -/

namespace Sys2Proof.Machine

/-- COMMIT_STATIC (41 R161). -/
def execCommitStatic (t : Frame) (s : State) : Result State := elapse (commitStatic t s)

/-- COMMIT_ANIMATION (41 R162). -/
def execCommitAnimation (n : Nat) (g : List Frame) (s : State) : Result State := elapse (commitAnimation n g s)

/-- CLEAR_ANIMATION (41 R163). -/
def execClearAnimation (s : State) : Result State := elapse (clearAnimation s)

/-- SET_RENDER (41 R164). -/
def execSetRender (f : Frame) (s : State) : Result State := elapse (writeRender f s)

/-- SET_BRIGHTNESS (44 R221). -/
def execSetBrightness (b : Byte) (s : State) : Result State := elapse (setBrightness b s)

end Sys2Proof.Machine
end

