-- ==== Sys2Proof/Machine/Receiver.lean ====
section
/-! DEFINITION. The commands of the byte stream (40_serial_protocol_receiver R125 to R128), each from the operands that its
reads brought, and the receiver's own operations: READ_BYTES, ABORT, HANDLE_COMMAND. An operand that is `none` is one whose
read returned `Timeout` (log 20). The checks stand in the order of the command's bytes (60_exceptions R256). -/

namespace Sys2Proof.Machine

/-- SINGLE_FRAME (40 R125). -/
def execSingleFrame (rows : Option Frame) (endMarker : Option Byte) (s : State) : Result State :=
  match rows, endMarker with
  | some t, some e =>
    if e = Config.mSingleEnd then finishCommand (commitStatic t) s
    else raiseError .invalidEndMarker .singleFrame s
  | some _, none => raiseError .readTimeout .singleFrame s
  | none, _ => raiseError .readTimeout .singleFrame s

/-- The part of ANIMATION after an accepted count (40 R126). -/
def animationFrames (n : Nat) (frames : List Frame) (endMarker : Option Byte) (s : State) : Result State :=
  if frames.length < n then raiseError .readTimeout .animation s
  else
    match endMarker with
    | none => raiseError .readTimeout .animation s
    | some e =>
      if e = Config.mAnimEnd then finishCommand (commitAnimation n frames) s
      else raiseError .invalidEndMarker .animation s

/-- ANIMATION (40 R126). -/
def execAnimation (count : Option Byte) (frames : List Frame) (endMarker : Option Byte) (s : State) : Result State :=
  match count with
  | none => raiseError .readTimeout .animation s
  | some n =>
    if countAccepted n then animationFrames n.toNat frames endMarker s
    else raiseError .invalidFrameCount .animation s

/-- BRIGHTNESS (40 R127). -/
def execBrightness (b : Option Byte) (s : State) : Result State :=
  match b with
  | none => raiseError .readTimeout .brightness s
  | some b => finishCommand (setBrightness b) s

/-- The optional diagnostic of an ignored marker, by `DIAG_ON_UNKNOWN` (40 R128, R132, C2). -/
def diagnosticOnUnknown (s : State) : State :=
  { s with
    tx :=
      if s.params.diagOnUnknown then
        { txq := s.tx.txq ++ Config.diagText s.tx.draws, draws := s.tx.draws + 1 }
      else s.tx }

/-- IGNORED (40 R128): no state change; the byte has left `RXQ`. It is the error kind UnknownMarker (60 R251, R266). -/
def execIgnored (_m : Byte) (s : State) : Result State :=
  elapse (diagnosticOnUnknown (note (.error .unknownMarker none) s))

/-- The dispatch of the receiver on a received command (40 R120). -/
def runCommand (c : Command) (s : State) : Result State :=
  match c with
  | .singleFrame rows e => execSingleFrame rows e s
  | .animation n frames e => execAnimation n frames e s
  | .brightness b => execBrightness b s
  | .ignored m => execIgnored m s

/-- HANDLE_COMMAND (40 R120): the marker `m` has been removed from `RXQ`; the rest of the command is read and either
committed or abandoned. -/
def execHandleCommand (m : Byte) (s : State) : Result State :=
  andThen (receiveCommand m s) fun p => runCommand p.1 p.2

/-- READ_BYTES (40 R121 to R123). -/
def execReadBytes (k : Nat) (s : State) : Result State := readBytes k s

/-- ABORT (60 R262). -/
def execAbort (e : ErrorKind) (cmd : CommandKind) (s : State) : Result State := raiseError e cmd s

end Sys2Proof.Machine
end

