-- ==== Sys2Proof/Machine/Scanner.lean ====
section
/-! DEFINITION. The row scanner and the chain driver (42_display_scanner): the chain words ROW_ACTIVATE and BLANK, the
operations SHIFT and LATCH, and SCAN_STEP with its four parts. -/

namespace Sys2Proof.Machine

/-- ROW_ACTIVATE: the pair (`1 << row`, `c`) onto the chain and to the outputs (42 R181, 30 R100). -/
def execRowActivate (c : Byte) (row : RowIndex) (s : State) : Result State :=
  outputBits (pairBits s.params.shiftOrder c row) s

/-- Sixteen zero SHIFTs and a LATCH (42 R186). -/
def blankOutputs (s : State) : Result State := outputBits (List.replicate 16 false) s

/-- BLANK: the zero word (30 R101, 42 R186). -/
def execBlank (s : State) : Result State := blankOutputs s

/-- ASSERT, step 1: `C = RB[currentRow]`, `R = 1 << currentRow` (42 R181). -/
def execAssert (s : State) : Result State :=
  outputBits (pairBits s.params.shiftOrder (columnData s) s.seq.currentRow) s

/-- SHIFT of one bit (42 R182). -/
def execShift (d : Bool) (s : State) : Result State := shiftBit d s

/-- LATCH (42 R184). -/
def execLatch (s : State) : Result State := latchOutputs s

/-- HOLD, step 2: at least `dwell_us` microseconds pass, read once (42 R185). -/
def execHold (s : State) : Result State := pass s.dwellUs s

/-- BLANK_STEP, step 3 (42 R186). -/
def execBlankStep (s : State) : Result State := blankOutputs s

/-- ADVANCE, step 4: `currentRow <- (currentRow + 1) mod 8` (42 R187). -/
def execAdvance (s : State) : Result State := elapse { s with seq.currentRow := s.seq.currentRow + 1 }

/-- SCAN_STEP (42 R180). -/
def execScanStep (s : State) : Result State :=
  andThen (execAssert (setScanphase .assert s)) fun s =>
    andThen (execHold (setScanphase .hold s)) fun s =>
      andThen (execBlankStep (setScanphase .blank s)) fun s =>
        execAdvance (setScanphase .advance s)

end Sys2Proof.Machine
end

