-- ==== Sys2Proof/Machine/Scheduler.lean ====
section
/-! DEFINITION. The animation scheduler (43_animation_scheduler). -/

namespace Sys2Proof.Machine

/-- ANIM_TICK (43 R210): one advance if a tick is due at the instant of the check, and nothing otherwise. -/
def execAnimTick (s : State) : Result State :=
  elapse (if tickDue s then advanceFrame s else s)

end Sys2Proof.Machine
end

