-- ==== Sys2Proof/Machine/MainLoop.lean ====
section
/-! DEFINITION. The main loop, POLL and the critical sections (45_main_loop). -/

namespace Sys2Proof.Machine

/-- POLL (45 R231): at most one command, and no wait if `RXQ` is empty. -/
def execPoll (s : State) : Result State :=
  andThen (takeMarker s) fun p =>
    match p with
    | (none, s) => elapse s
    | (some m, s) => execHandleCommand m s

/-- MAIN_LOOP (45 R230): one iteration, POLL, SCAN_STEP and the tick check in that order, back at `phase = POLL`
(log 2). -/
def execMainLoop (s : State) : Result State :=
  andThen (execPoll (setPhase .poll s)) fun s =>
    andThen (execScanStep (setPhase .scan s)) fun s =>
      andThen (execAnimTick (setPhase .tick s)) fun s => .next (setPhase .poll s)

/-- ENTER_CRITICAL and LEAVE_CRITICAL (45 R234). -/
def execCritical (edge : CriticalEdge) (s : State) : Result State :=
  match edge with
  | .enter => elapse (enterCritical s)
  | .leave => elapse (leaveCritical s)

end Sys2Proof.Machine
end

