-- ==== Sys2Proof/Machine/Dispatch.lean ====
section
/-! DEFINITION. The meaning of every instruction: one direct call an arm. -/

namespace Sys2Proof.Machine

def exec (i : Instr) (s : State) : Host.Outcome State Fault Refusal :=
  match i with
  | .singleFrame rows e => Sys2Proof.Machine.execSingleFrame rows e s
  | .animation n frames e => Sys2Proof.Machine.execAnimation n frames e s
  | .brightness b => Sys2Proof.Machine.execBrightness b s
  | .ignored m => Sys2Proof.Machine.execIgnored m s
  | .rowActivate c row => Sys2Proof.Machine.execRowActivate c row s
  | .blank => Sys2Proof.Machine.execBlank s
  | .mainLoop => Sys2Proof.Machine.execMainLoop s
  | .poll => Sys2Proof.Machine.execPoll s
  | .handleCommand m => Sys2Proof.Machine.execHandleCommand m s
  | .readBytes k => Sys2Proof.Machine.execReadBytes k s
  | .abort e cmd => Sys2Proof.Machine.execAbort e cmd s
  | .commitStatic t => Sys2Proof.Machine.execCommitStatic t s
  | .commitAnimation n g => Sys2Proof.Machine.execCommitAnimation n g s
  | .clearAnimation => Sys2Proof.Machine.execClearAnimation s
  | .setRender f => Sys2Proof.Machine.execSetRender f s
  | .setBrightness b => Sys2Proof.Machine.execSetBrightness b s
  | .scanStep => Sys2Proof.Machine.execScanStep s
  | .assert => Sys2Proof.Machine.execAssert s
  | .shift d => Sys2Proof.Machine.execShift d s
  | .latch => Sys2Proof.Machine.execLatch s
  | .hold => Sys2Proof.Machine.execHold s
  | .blankStep => Sys2Proof.Machine.execBlankStep s
  | .advance => Sys2Proof.Machine.execAdvance s
  | .animTick => Sys2Proof.Machine.execAnimTick s
  | .critical edge => Sys2Proof.Machine.execCritical edge s

end Sys2Proof.Machine
end

