-- ==== Sys2Proof/Machine/Fetch.lean ====
section
/-! DEFINITION. What the step runs next, and where the sequencer goes after it (10_state R26 to R29, 45_main_loop R230):
in `phase = POLL` the command at the front of the receive queue, or POLL itself where there is none; in `phase = SCAN` the
four parts of a scan step, ASSERT and BLANK as the chain word they latch; in `phase = TICK` the tick check (log 1). -/

namespace Sys2Proof.Machine

/-- The instruction of a chain word; `i` where the word is none that a scan step latches. -/
def chainInstr (w : ChainWord) (i : Instr) : Instr :=
  match decodeChainWord w with
  | .ok j => j
  | .error _ => i

/-- The chain word of the next ASSERT: `{bitrev8(RB[currentRow]), 1 << currentRow}` (30 R100). -/
def assertWord (s : State) : ChainWord := rowWord (columnData s) s.seq.currentRow

/-- The part of the scan step that `scanphase` names (10 R29). -/
def scanInstr (s : State) : Instr :=
  match s.seq.scanphase with
  | .assert => chainInstr (assertWord s) .assert
  | .hold => .hold
  | .blank => chainInstr 0 .blankStep
  | .advance => .advance

/-- The next instruction, and the state in which it runs: for a command, that in which its marker and its operands have
been read from the byte stream (40 R120). -/
def fetch (s : State) : Result (Instr × State) :=
  match s.seq.phase with
  | .poll =>
    andThen (takeMarker s) fun p =>
      match p with
      | (none, s) => .next (.poll, s)
      | (some m, s) => andThen (receiveCommand m s) fun q => .next (q.1.toInstr, q.2)
  | .scan => .next (scanInstr s, s)
  | .tick => .next (.animTick, s)

/-- Where the sequencer goes: POLL, then ASSERT, HOLD, BLANK, ADVANCE, then TICK, then POLL (42 R180, 45 R230). -/
def nextPosition (s : State) : State :=
  match s.seq.phase with
  | .poll => setScanphase .assert (setPhase .scan s)
  | .scan =>
    match s.seq.scanphase with
    | .assert => setScanphase .hold s
    | .hold => setScanphase .blank s
    | .blank => setScanphase .advance s
    | .advance => setPhase .tick s
  | .tick => setPhase .poll s

/-- The bytes at the front of `RXQ`, arrived by now, with the sequencer at POLL. -/
def storeCommandBytes (bs : List Byte) (s : State) : State :=
  setPhase .poll { s with link.rxq := bs.map (fun b => { arrival := s.clock.t, byte := b }) ++ s.link.rxq }

/-- The sequencer at the part of a scan step that latches the word, with the row and the cell of `RB` it is made of. -/
def storeChainWord (w : ChainWord) (s : State) : State :=
  match decodeChainWord w with
  | .ok (.rowActivate c row) =>
    setScanphase .assert
      (setPhase .scan { s with seq.currentRow := row, store.rb := setRow s.store.rb row c })
  | .ok _ => setScanphase .blank (setPhase .scan s)
  | .error _ => s

/-- The words of the opcode table placed where `fetch` looks: a chain word in the scan step, a command in `RXQ` (log 25). -/
def storeFetchWord (s : State) (nbits w : Nat) : State :=
  if nbits = 16 then storeChainWord (BitVec.ofNat 16 w) s else storeCommandBytes (tableBytes nbits w) s

end Sys2Proof.Machine
end

