-- ==== Sys2Proof/Machine/Step.lean ====
section
/-! DEFINITION. One step: the next instruction is fetched, run, and the sequencer moves on (45_main_loop R230). -/

namespace Sys2Proof.Machine

/-- One step of the block. -/
def step (s : State) : Host.Outcome State Fault Refusal :=
  andThen (fetch s) fun p => andThen (exec p.1 p.2) fun s => .next (nextPosition s)

/-- The state with the table's words where `step` fetches its next instruction. -/
def State.withFetchWord (s : State) (nbits w : Nat) : State := storeFetchWord s nbits w

end Sys2Proof.Machine
end

