-- ==== Sys2Proof/Safety.lean ====
section
/-! DEFINITION. The terms the claims are stated in: a paced host, states that differ by the passing of time or by the
reception of bytes alone, what the trace of ghost events says, and the invariant of the machine at the points between two
steps (10_state R23, R24, R27, R33; 20_memory R76; 42_display_scanner R188, R191, R192). -/

namespace Sys2Proof.Machine

/-! ## The host -/

/-- `RXQ` can hold all the bytes that are in it and still to come. -/
def paced (s : State) : Bool :=
  match s.params.rxFifoDepth with
  | none => true
  | some d => decide (s.link.rxq.length + s.link.hostStream.length ≤ d)

/-- The pacing premise on the host (70 R307, D21): no byte can find `RXQ` full. With an infinite queue it holds of every
state. -/
abbrev Paced (s : State) : Prop := paced s = true

/-- The bytes in `RXQ` and those still to come, in the order sent. -/
def stream (s : State) : List RxByte := s.link.rxq ++ s.link.hostStream

/-- Arrival instants never decrease along the stream, and what is in `RXQ` has arrived (10 R42, 70 R293). -/
abbrev ArrivalsOrdered (s : State) : Prop :=
  (stream s).Pairwise (fun a b => a.arrival ≤ b.arrival) ∧ ∀ b ∈ s.link.rxq, b.arrival ≤ s.clock.t

/-- The values of the bytes in `RXQ`. -/
def queuedBytes (s : State) : List Byte := s.link.rxq.map RxByte.byte

/-- All the bytes of the command arrived: no operand is missing, and a rejected count has none after it (30 R91 to R95,
R106). -/
def wholeCommand : Command → Bool
  | .singleFrame rows e => rows.isSome && e.isSome
  | .animation none _ _ => false
  | .animation (some n) frames e =>
    if countAccepted n then frames.length == n.toNat && e.isSome else frames.isEmpty && e.isNone
  | .brightness b => b.isSome
  | .ignored m => !isStartMarker m

/-- Each of the next `n` bytes of the stream has arrived less than `READ_TIMEOUT_MS` ms from now on the millisecond clock:
the side on which every reading of the timeout accepts a command (70 R304). -/
abbrev Timely (s : State) (n : Nat) : Prop :=
  ∀ b ∈ (stream s).take n, b.arrival / 1000 < nowMs s + s.params.readTimeoutMs

/-- The deadline of a `ReadBytes` call that starts now (40 R122). -/
def deadlineFromNow (s : State) : Nat := (nowMs s + s.params.readTimeoutMs) * 1000

/-- The bytes a `ReadBytes` call that starts at instant `t` takes where each byte is a read attempt of its own
(`READ_UNIT = BYTE`, D7): at most `k`, and none after one that misses the deadline of its attempt, which starts when the
byte before it is taken. -/
def takenInTime (timeoutMs : Nat) : Nat → Nat → List RxByte → List RxByte
  | 0, _, _ => []
  | _ + 1, _, [] => []
  | k + 1, t, b :: bs =>
    if b.arrival ≤ (t / 1000 + timeoutMs) * 1000 then b :: takenInTime timeoutMs k (max t b.arrival) bs else []

/-- The latest of the instant `t` and the arrival instants of the bytes. -/
def lastArrival (t : Nat) (bs : List RxByte) : Nat := bs.foldl (fun u b => max u b.arrival) t

/-! ## Differences between states -/

/-- From `s` to `s'` time has passed and nothing else has happened: only the clock differs, and the bytes that arrived
meanwhile have joined the end of `RXQ`; none is lost, altered or reordered (10 R42). -/
structure OnlyTime (s s' : State) : Prop where
  rest    : s' = { s with clock := s'.clock, link := s'.link }
  forward : s.clock.t ≤ s'.clock.t
  kept    : stream s' = stream s
  queued  : s.link.rxq <+: s'.link.rxq

/-- From `s` to `s'` time has passed and a diagnostic may have been written: `TXQ` has only grown (40 R132). -/
structure OnlyDiagnostic (s s' : State) : Prop where
  time  : OnlyTime { s with tx := s'.tx } s'
  grown : s.tx.txq <+: s'.tx.txq

/-- From `s` to `s'` only the receiver has acted: the clock, the bytes taken from the front of the stream, the receiver's
hidden state and `rxstate` may differ, and nothing else (40 R134). -/
structure OnlyReception (s s' : State) : Prop where
  rest    : s' = { s with clock := s'.clock, link := s'.link, rx := s'.rx, seq.rxstate := s'.seq.rxstate }
  forward : s.clock.t ≤ s'.clock.t
  taken   : ∃ bs, stream s = bs ++ stream s'

/-- From `s` to `s'` exactly the bytes of the command `c` have been received (40 R120). -/
structure Received (c : Command) (s s' : State) : Prop where
  only  : OnlyReception s s'
  bytes : stream s' = (stream s).drop c.bytes.length

/-! ## What the trace says -/

/-- The words latched, newest first. -/
def latchedWords : List Event → List ChainWord
  | [] => []
  | .latched w _ :: es => w :: latchedWords es
  | .error _ _ :: es => latchedWords es
  | .committed _ :: es => latchedWords es
  | .cleared _ :: es => latchedWords es

/-- An ANIMATION commit has happened since the later of reset and the last SINGLE_FRAME commit (10 R23). -/
def animationSince : List Event → Bool
  | [] => false
  | .committed .singleFrame :: _ => false
  | .committed .animation :: _ => true
  | .committed .brightness :: es => animationSince es
  | .error _ _ :: es => animationSince es
  | .cleared _ :: es => animationSince es
  | .latched _ _ :: es => animationSince es

/-- The Frame on display at the last `ClearAnimation` that stopped an active animation, if there is one since the last
SINGLE_FRAME commit (10 R23, third arm). -/
def frozenFrame : List Event → Option Frame
  | [] => none
  | .committed .singleFrame :: _ => none
  | .cleared (some f) :: _ => some f
  | .cleared none :: es => frozenFrame es
  | .committed .animation :: es => frozenFrame es
  | .committed .brightness :: es => frozenFrame es
  | .error _ _ :: es => frozenFrame es
  | .latched _ _ :: es => frozenFrame es

/-- Read from the newest word back, the words alternate between a BLANK word and an ASSERT word, the oldest an ASSERT
word; `shown` says that the newest is an ASSERT word (42 R192). -/
def alternates : Bool → List ChainWord → Bool
  | shown, [] => !shown
  | shown, w :: ws => (w != 0) == shown && alternates (!shown) ws

/-! ## The outputs -/

/-- The eight row-select bits of the outputs, by the layout `SHIFT_ORDER` gives (20 R64, 42 R192). -/
def rowSelectBits (s : State) : Byte :=
  match s.params.shiftOrder with
  | .colThenRow => s.chain.out.extractLsb' 0 8
  | .rowThenCol => s.chain.out.extractLsb' 8 8

/-! ## Several steps -/

/-- `n` consecutive steps. -/
def steps : Nat → State → Result State
  | 0, s => .next s
  | n + 1, s => andThen (step s) (steps n)

/-! ## The scan cycle -/

/-- `n` consecutive SCAN_STEPs. -/
def scanSteps : Nat → State → Result State
  | 0, s => .next s
  | n + 1, s => andThen (exec .scanStep s) (scanSteps n)

/-- The eight rows a scan cycle that starts at `row` asserts, in order (42 R189). -/
def scannedRows (row : RowIndex) : List RowIndex := [row, row + 1, row + 2, row + 3, row + 4, row + 5, row + 6, row + 7]

/-- The words of a scan cycle over the Frame `f`, newest first: each row's word, then the BLANK word. -/
def cycleWords (order : ShiftOrder) (f : Frame) : List RowIndex → List ChainWord
  | [] => []
  | r :: rs => cycleWords order f rs ++ [0, pairWord order (rowOf f r) r]

/-! ## The invariant -/

/-- AnimationState (10 R24), and `AB` lists exactly the live Frames (10 R21). -/
structure AnimationOk (s : State) : Prop where
  count    : s.anim.frameCount ≤ Config.maxFrames
  live     : s.store.ab.length = s.anim.frameCount
  active   : s.anim.active = true → s.anim.currentFrameIndex < s.anim.frameCount
  inactive : s.anim.active = false → s.anim.frameCount = 0 ∧ s.anim.currentFrameIndex = 0

/-- The RenderBuffer invariant (10 R23), its three arms; with `RENDER_ON_ANIM_ABORT = STATIC` the third is not needed
(90 C1). -/
structure RenderOk (s : State) : Prop where
  active  : s.anim.active = true →
    s.store.ab[s.anim.currentFrameIndex]? = some s.store.rb ∧ animationSince s.trace = true
  still   : s.anim.active = false → animationSince s.trace = false → s.store.rb = s.store.si
  stopped : s.anim.active = false → animationSince s.trace = true →
    match s.params.renderOnAnimAbort with
    | .keep => frozenFrame s.trace = some s.store.rb
    | .static => s.store.rb = s.store.si

/-- A row is on display: the sequencer stands between the LATCH of an ASSERT and that of the BLANK after it. -/
def rowShown (s : State) : Bool :=
  match s.seq.phase, s.seq.scanphase with
  | .scan, .hold => true
  | .scan, .blank => true
  | .scan, .assert => false
  | .scan, .advance => false
  | .poll, _ => false
  | .tick, _ => false

/-- The outputs: while a row is shown they hold its word; at every other point they are blank, from the first LATCH on
(42 R188, R191). -/
structure OutputsOk (s : State) : Prop where
  shown : rowShown s = true → s.chain.out = pairWord s.params.shiftOrder (columnData s) s.seq.currentRow
  blank : rowShown s = false → latchedWords s.trace ≠ [] → s.chain.out = 0
  order : alternates (rowShown s) (latchedWords s.trace) = true

/-- The invariant of the machine between two steps. -/
structure BlockInv (s : State) : Prop where
  legal     : s.params.Legal
  dwell     : s.params.brightnessMin ≤ s.dwellUs ∧ s.dwellUs ≤ s.params.brightnessMax
  animation : AnimationOk s
  render    : RenderOk s
  outputs   : OutputsOk s
  receiver  : s.seq.rxstate = .idle ∧ s.rx.stage = []
  ie        : s.ie = true
  lines     : s.chain.srclk = false ∧ s.chain.rclk = false
  timer     : s.anim.active = true → s.anim.lastFrameChangeMs ≤ nowMs s
  queue     : ∀ d, s.params.rxFifoDepth = some d → s.link.rxq.length ≤ d

end Sys2Proof.Machine
end

