-- ==== Sys2Proof/Certificates/Slice0/Obligations.lean ====
section
/-! DEFINITION. The statements for the provers. Each quantifies over every state, and so over every value of the
parameters the state carries; where a rule holds for one value of a parameter only, the statement says so. A statement
about what an operation answers names the whole next state: the parts the operation writes, and `OnlyTime` or
`OnlyDiagnostic` for the rest, which say that everything else is as it was while time passed. -/

open Sys2Proof Sys2Proof.Machine

/-! ## Decoding and encoding (spec/30_encoding.md) -/

/-- 30 R102: every first byte begins a command, and which one is fixed by its value. -/
def Obligations.EveryFirstByteBeginsItsCommand : Prop :=
  ∀ (m : Byte) (bs : List Byte), ∃ (c : Command) (rest : List Byte), decode (m :: bs) = .ok (c.toInstr, rest) ∧
    (m = 0xFF#8 → ∃ rows e, c = .singleFrame rows e) ∧
    (m = 0xFA#8 → ∃ n fs e, c = .animation n fs e) ∧
    (m = 0xFC#8 → ∃ b, c = .brightness b) ∧
    (m ≠ 0xFF#8 → m ≠ 0xFA#8 → m ≠ 0xFC#8 → c = .ignored m ∧ rest = bs)

/-- 30 R90 to R97, 20 R67: a command sent whole is decoded to itself, whatever bytes it carries, and the decoder stops
exactly at its end. -/
def Obligations.WholeCommandDecodesUpToItsEnd : Prop :=
  ∀ (c : Command) (rest : List Byte), wholeCommand c = true → decode (c.bytes ++ rest) = .ok (c.toInstr, rest)

/-- 30 R90 to R101: decoding the words of a well-formed instruction gives it back, with every operand; a command cut short
by a timeout (log 20) included. -/
def Obligations.EncodedInstructionDecodesBack : Prop :=
  ∀ (i : Instr) (words : Code), WellFormed i → encode i = some words → words.decode = .ok (i, [])

/-- 30 R99 to R101: a chain word decodes if and only if it is the BLANK word or the word of a column byte and one row; its
layout is the spec's decision D4. -/
def Obligations.ChainWordDecodesExactlyIfScanned : Prop :=
  ∀ (w : ChainWord) (i : Instr), decodeChainWord w = .ok i ↔
    (w = 0 ∧ i = .blank) ∨ (∃ c row, w = bitrev8 c ++ (1#8 <<< row.toNat) ∧ i = .rowActivate c row)

/-- Words written out from the spec's tables: 95 X1, X2 (30 R91, R92), 30 R93, R94, R106, and 95 V60. -/
def Obligations.WrittenOutWordsDecode : Prop :=
  decode [0xFF, 0x81, 0x42, 0x24, 0x18, 0x18, 0x24, 0x42, 0x81, 0xFE] =
      .ok (.singleFrame (some ⟨0x81, 0x42, 0x24, 0x18, 0x18, 0x24, 0x42, 0x81⟩) (some 0xFE), []) ∧
  decode [0xFA, 0x01, 0x3C, 0x42, 0x81, 0x81, 0x81, 0x81, 0x42, 0x3C, 0xFB] =
      .ok (.animation (some 0x01) [⟨0x3C, 0x42, 0x81, 0x81, 0x81, 0x81, 0x42, 0x3C⟩] (some 0xFB), []) ∧
  decode [0xFA, 0x0B, 0xFC, 0x00, 0xAA] = .ok (.animation (some 0x0B) [] none, [0xFC, 0x00, 0xAA]) ∧
  decode [0xFC, 0x80] = .ok (.brightness (some 0x80), []) ∧
  decode [0xFD, 0x12] = .ok (.ignored 0xFD, [0x12]) ∧
  decodeChainWord 0xA504#16 = .ok (.rowActivate 0xA5 2) ∧
  decodeChainWord 0x0000#16 = .ok .blank

/-- The host's words (log 25): the instruction the decoder reads from a table word is the one the next step fetches once
the word is placed there. -/
def Obligations.PlacedTableWordIsFetched : Prop :=
  ∀ (s : State) (nbits w : Nat) (i : Instr), Paced (s.withFetchWord nbits w) → decodeTableWord nbits w = some i →
    ∃ s1, fetch (s.withFetchWord nbits w) = .next (i, s1) ∧ OnlyReception (s.withFetchWord nbits w) s1

/-! ## The step (spec/45_main_loop.md) -/

/-- 45 R230, R231, 40 R120, log 1: in `phase = POLL`, where the bytes at the front of `RXQ` decode to a command sent whole,
the step takes exactly these bytes, runs the command, and goes on to the first part of the scan step. -/
def Obligations.StepRunsTheQueuedCommand : Prop :=
  ∀ (s : State) (c : Command), s.seq.phase = .poll → Paced s → wholeCommand c = true → c.bytes <+: queuedBytes s →
    ∃ s1, Received c s s1 ∧
      step s = andThen (exec c.toInstr s1) (fun s2 => .next (setScanphase .assert (setPhase .scan s2)))

/-- 42 R180, R181, R186, 45 R230, log 1: at every point of the loop the step runs the operation that stands there, in
`phase = POLL` the POLL with whatever command it starts.
An ASSERT runs the chain word of its row, a BLANK the zero word. -/
def Obligations.StepRunsTheOperationInTurn : Prop :=
  (∀ s : State, s.seq.phase = .poll →
    step s = andThen (exec .poll s) (fun s' => .next (setScanphase .assert (setPhase .scan s')))) ∧
  (∀ s : State, s.seq.phase = .scan → s.seq.scanphase = .assert →
    step s = andThen (exec (.rowActivate (rowOf s.store.rb s.seq.currentRow) s.seq.currentRow) s)
      (fun s' => .next (setScanphase .hold s'))) ∧
  (∀ s : State, s.seq.phase = .scan → s.seq.scanphase = .hold →
    step s = andThen (exec .hold s) (fun s' => .next (setScanphase .blank s'))) ∧
  (∀ s : State, s.seq.phase = .scan → s.seq.scanphase = .blank →
    step s = andThen (exec .blank s) (fun s' => .next (setScanphase .advance s'))) ∧
  (∀ s : State, s.seq.phase = .scan → s.seq.scanphase = .advance →
    step s = andThen (exec .advance s) (fun s' => .next (setPhase .tick s'))) ∧
  (∀ s : State, s.seq.phase = .tick → step s = andThen (exec .animTick s) (fun s' => .next (setPhase .poll s')))

/-- 45 R230, 42 R180: six steps from `phase = POLL` are one iteration of the main loop. That MAIN_LOOP is one iteration is
log 2, what one step is log 1. -/
def Obligations.SixStepsAreOneIteration : Prop :=
  ∀ s : State, s.seq.phase = .poll → steps 6 s = exec .mainLoop s

/-- 45 R231, R236: POLL on an empty queue does not wait: it does nothing and takes one drawn duration (log 10). -/
def Obligations.PollOfAnEmptyQueueDoesNothing : Prop :=
  ∀ s : State, Paced s → s.link.rxq = [] → (∀ b ∈ s.link.hostStream.head?, s.clock.t < b.arrival) →
    ∃ s', exec .poll s = .next s' ∧ OnlyTime s s' ∧ s'.clock = clockAfter 0 s.clock

/-- 45 R231, 20 R72: where a byte has arrived, POLL removes the oldest one and is HANDLE_COMMAND of it, whether or not the
rest of its command has arrived. -/
def Obligations.PollHandlesTheOldestByte : Prop :=
  ∀ (s : State) (b : RxByte), Paced s → (stream s).head? = some b → s.link.rxq ≠ [] ∨ b.arrival ≤ s.clock.t →
    ∃ s1, OnlyReception s s1 ∧ s1.rx = s.rx ∧ s1.seq = s.seq ∧ stream s1 = (stream s).drop 1 ∧
      exec .poll s = exec (.handleCommand b.byte) s1

/-- 45 R231, 40 R133, 20 R78: POLL takes the one command at the front of the queue, no other byte, and runs it. -/
def Obligations.PollRunsOneQueuedCommand : Prop :=
  ∀ (s : State) (c : Command), Paced s → wholeCommand c = true → c.bytes <+: queuedBytes s →
    ∃ s1 s', Received c s s1 ∧ exec c.toInstr s1 = .next s' ∧ exec .poll s = .next s'

/-- 40 R120: with the marker removed and the command's other bytes queued, HANDLE_COMMAND takes exactly these bytes and
runs the command. -/
def Obligations.HandleCommandRunsTheReceivedCommand : Prop :=
  ∀ (s : State) (c : Command) (m : Byte) (ops : List Byte), Paced s → wholeCommand c = true → c.bytes = m :: ops →
    ops <+: queuedBytes s →
    ∃ s1 s', OnlyReception s s1 ∧ stream s1 = (stream s).drop ops.length ∧ exec c.toInstr s1 = .next s' ∧
      exec (.handleCommand m) s = .next s'

/-- 70 R304, 40 R120 to R122: a command whose other bytes arrive, each less than `READ_TIMEOUT_MS` ms after its marker is
removed, is received whole and run, under either `READ_UNIT`; exactly its bytes are taken. POLL does the same where the
marker has arrived. -/
def Obligations.TimelyCommandIsReceived : Prop :=
  (∀ (s : State) (c : Command) (m : Byte) (ops : List Byte), Paced s → wholeCommand c = true → c.bytes = m :: ops →
    ops <+: (stream s).map RxByte.byte → Timely s ops.length →
    ∃ s1 s', OnlyReception s s1 ∧ stream s1 = (stream s).drop ops.length ∧ exec c.toInstr s1 = .next s' ∧
      exec (.handleCommand m) s = .next s') ∧
  (∀ (s : State) (c : Command) (b : RxByte), Paced s → wholeCommand c = true → (stream s).head? = some b →
    s.link.rxq ≠ [] ∨ b.arrival ≤ s.clock.t → c.bytes <+: (stream s).map RxByte.byte → Timely s c.bytes.length →
    ∃ s1 s', Received c s s1 ∧ exec c.toInstr s1 = .next s' ∧ exec .poll s = .next s')

/-- 45 R230, 20 R80: one iteration ends at `phase = POLL`, one row further, with the outputs blank, and lasts at least the
dwell time in force after its POLL. -/
def Obligations.IterationScansOneRow : Prop :=
  ∀ s : State, Paced s → ∃ s', exec .mainLoop s = .next s' ∧ s'.seq.phase = .poll ∧
    s'.seq.currentRow = s.seq.currentRow + 1 ∧ s'.chain.out = 0 ∧ s.clock.t + s'.dwellUs ≤ s'.clock.t

/-! ## The commands (spec/40_serial_protocol_receiver.md, spec/60_exceptions.md) -/

/-- 40 R125, 41 R161, 95 X1: a valid SINGLE_FRAME puts its payload into `SI` and `RB` and stops any animation. That
`frameCount` and `currentFrameIndex` become 0 is the spec's decision D13. -/
def Obligations.ValidSingleFrameIsCommitted : Prop :=
  ∀ (s : State) (f : Frame), Paced s → ∃ s', exec (.singleFrame (some f) (some 0xFE)) s = .next s' ∧
    OnlyDiagnostic
      { s with
        store := { si := f, ab := [], rb := f }
        anim := { s.anim with active := false, frameCount := 0, currentFrameIndex := 0 }
        seq.rxstate := .idle, ie := true, rx.stage := []
        trace := .committed .singleFrame :: s.trace } s'

/-- 60 R263, R256: a SINGLE_FRAME whose rows or end byte are late, or whose end byte is not `0xFE`, leaves the frame store,
the animation with its timer, and the dwell time as they were; the first check that fails is the one reported. -/
def Obligations.FailedSingleFrameChangesNothing : Prop :=
  ∀ (s : State) (rows : Option Frame) (e : Option Byte) (kind : ErrorKind), Paced s →
    ((rows = none ∧ kind = .readTimeout) ∨ (∃ f, rows = some f ∧ e = none ∧ kind = .readTimeout) ∨
      (∃ f b, rows = some f ∧ e = some b ∧ b ≠ 0xFE ∧ kind = .invalidEndMarker)) →
    ∃ s', exec (.singleFrame rows e) s = .next s' ∧
      OnlyDiagnostic
        { s with seq.rxstate := .idle, rx.stage := [], trace := .error kind (some .singleFrame) :: s.trace } s'

/-- 40 R126, 41 R162, 95 X2: a valid ANIMATION of 1 to 10 Frames puts them into `AB`, starts at Frame 0, shows it, and
resets the frame-change timer to the present time. -/
def Obligations.ValidAnimationIsCommitted : Prop :=
  ∀ (s : State) (n : Byte) (f : Frame) (fs : List Frame), Paced s → (f :: fs).length = n.toNat → n.toNat ≤ 10 →
    ∃ s', exec (.animation (some n) (f :: fs) (some 0xFB)) s = .next s' ∧
      OnlyDiagnostic
        { s with
          store := { s.store with ab := f :: fs, rb := f }
          anim := { active := true, frameCount := n.toNat, currentFrameIndex := 0, lastFrameChangeMs := s.clock.t / 1000 }
          seq.rxstate := .idle, ie := true, rx.stage := []
          trace := .committed .animation :: s.trace } s'

/-- 60 R264, R256, 40 R126, 41 R163, 95 X3: an ANIMATION that fails, for whichever reason, leaves the animation inactive
and empty, and the first check that fails is the one reported. `RB` is kept under `RENDER_ON_ANIM_ABORT = KEEP` and becomes
`SI` under `STATIC` (the spec's decision D12; log 15); indices 0 are D13. -/
def Obligations.FailedAnimationClearsTheAnimation : Prop :=
  ∀ (s : State) (n : Option Byte) (fs : List Frame) (e : Option Byte) (kind : ErrorKind), Paced s →
    ((n = none ∧ kind = .readTimeout) ∨
      (∃ b, n = some b ∧ (b.toNat = 0 ∨ 10 < b.toNat) ∧ kind = .invalidFrameCount) ∨
      (∃ b, n = some b ∧ b.toNat ≤ 10 ∧ fs.length < b.toNat ∧ kind = .readTimeout) ∨
      (∃ b, n = some b ∧ 1 ≤ b.toNat ∧ b.toNat ≤ 10 ∧ fs.length = b.toNat ∧ e = none ∧ kind = .readTimeout) ∨
      (∃ b m, n = some b ∧ 1 ≤ b.toNat ∧ b.toNat ≤ 10 ∧ fs.length = b.toNat ∧ e = some m ∧ m ≠ 0xFB ∧
        kind = .invalidEndMarker)) →
    ∃ s', exec (.animation n fs e) s = .next s' ∧
      OnlyDiagnostic
        { s with
          store :=
            { s.store with ab := [], rb := if s.params.renderOnAnimAbort = .keep then s.store.rb else s.store.si }
          anim := { s.anim with active := false, frameCount := 0, currentFrameIndex := 0 }
          seq.rxstate := .idle, ie := true, rx.stage := []
          trace := .cleared (shownFrame s) :: .error kind (some .animation) :: s.trace } s'

/-- 40 R127, 44 R221, 60 R265: BRIGHTNESS sets the dwell time by the formula; if its byte is late nothing changes. -/
def Obligations.BrightnessSetsTheDwellTime : Prop :=
  (∀ (s : State) (b : Byte), Paced s → ∃ s', exec (.brightness (some b)) s = .next s' ∧
    OnlyDiagnostic
      { s with
        dwellUs := s.params.brightnessMin + b.toNat * (s.params.brightnessMax - s.params.brightnessMin) / 255
        seq.rxstate := .idle, ie := true, rx.stage := []
        trace := .committed .brightness :: s.trace } s') ∧
  (∀ s : State, Paced s → ∃ s', exec (.brightness none) s = .next s' ∧
    OnlyDiagnostic
      { s with seq.rxstate := .idle, rx.stage := [], trace := .error .readTimeout (some .brightness) :: s.trace } s')

/-- 40 R128, 60 R266: an ignored byte changes no state; a diagnostic is written for it only if `DIAG_ON_UNKNOWN` says so. -/
def Obligations.IgnoredByteChangesNothing : Prop :=
  ∀ (s : State) (m : Byte), Paced s → ∃ s', exec (.ignored m) s = .next s' ∧
    OnlyDiagnostic { s with trace := .error .unknownMarker none :: s.trace } s' ∧
    (s.params.diagOnUnknown = false → s'.tx = s.tx)

/-- 60 R262, 40 R130, R132: the abort sequence ends with the receiver idle and `STAGE` dead; it clears the animation of an
ANIMATION command and writes nothing else for the others. `RB` is by `RENDER_ON_ANIM_ABORT` (D12; log 15). -/
def Obligations.AbortFollowsTheCommandsPolicy : Prop :=
  (∀ (s : State) (e : ErrorKind) (cmd : CommandKind), Paced s → cmd ≠ .animation →
    ∃ s', exec (.abort e cmd) s = .next s' ∧
      OnlyDiagnostic { s with seq.rxstate := .idle, rx.stage := [], trace := .error e (some cmd) :: s.trace } s') ∧
  (∀ (s : State) (e : ErrorKind), Paced s →
    ∃ s', exec (.abort e .animation) s = .next s' ∧
      OnlyDiagnostic
        { s with
          store :=
            { s.store with ab := [], rb := if s.params.renderOnAnimAbort = .keep then s.store.rb else s.store.si }
          anim := { s.anim with active := false, frameCount := 0, currentFrameIndex := 0 }
          seq.rxstate := .idle, ie := true, rx.stage := []
          trace := .cleared (shownFrame s) :: .error e (some .animation) :: s.trace } s')

/-- 95 X5, V14, 40 R122, R123, 60 R251: when the host stops within a SINGLE_FRAME, HANDLE_COMMAND reports ReadTimeout no
sooner than the timeout after it began, changes nothing else, and has consumed the bytes that were sent; bytes that come
later stay in the stream. First clause: rows are missing. Second clause: the end byte is missing. That the bytes taken are
consumed is the spec's decision D9, that the one-byte read is bounded D10, the deadline D8 (log 12). -/
def Obligations.SingleFrameCutShortTimesOut : Prop :=
  ∀ s : State, Paced s →
    (s.link.rxq.length < 8 ∧ (∀ b ∈ s.link.hostStream.head?, max s.clock.t (deadlineFromNow s) < b.arrival)) ∨
      (s.link.rxq.length = 8 ∧ s.link.hostStream = []) →
    ∃ s', exec (.handleCommand 0xFF) s = .next s' ∧ stream s' = s.link.hostStream ∧ deadlineFromNow s ≤ s'.clock.t ∧
      s' = { s with
        seq.rxstate := .idle, rx := s'.rx, tx := s'.tx, link := s'.link, clock := s'.clock
        trace := .error .readTimeout (some .singleFrame) :: s.trace } ∧
      s'.rx.stage = [] ∧ s.tx.txq <+: s'.tx.txq

/-- 95 V24, V44, 40 R126, R127, 60 R264, R265: the same of the other commands. First clause: an ANIMATION whose count
byte, one of whose Frames or whose end byte is missing clears the animation and keeps nothing of the Frames received. Second
clause: a BRIGHTNESS whose byte is missing changes nothing. `RB` is by `RENDER_ON_ANIM_ABORT` (D12; log 15), indices 0 are
D13, the reads D8 to D10 (log 12). -/
def Obligations.OtherCommandsCutShortTimeOut : Prop :=
  (∀ s : State, Paced s →
    (s.link.rxq = [] ∧ (∀ b ∈ s.link.hostStream.head?, max s.clock.t (deadlineFromNow s) < b.arrival)) ∨
      (s.link.hostStream = [] ∧ ∃ n rest, queuedBytes s = n :: rest ∧ 1 ≤ n.toNat ∧ n.toNat ≤ 10 ∧
        rest.length ≤ 8 * n.toNat) →
    ∃ s', exec (.handleCommand 0xFA) s = .next s' ∧ stream s' = s.link.hostStream ∧ deadlineFromNow s ≤ s'.clock.t ∧
      s' = { s with
        store :=
          { s.store with ab := [], rb := if s.params.renderOnAnimAbort = .keep then s.store.rb else s.store.si }
        anim := { s.anim with active := false, frameCount := 0, currentFrameIndex := 0 }
        seq.rxstate := .idle, ie := true, rx := s'.rx, tx := s'.tx, link := s'.link, clock := s'.clock
        trace := .cleared (shownFrame s) :: .error .readTimeout (some .animation) :: s.trace } ∧
      s'.rx.stage = [] ∧ s.tx.txq <+: s'.tx.txq) ∧
  (∀ s : State, Paced s → s.link.rxq = [] →
    (∀ b ∈ s.link.hostStream.head?, max s.clock.t (deadlineFromNow s) < b.arrival) →
    ∃ s', exec (.handleCommand 0xFC) s = .next s' ∧ stream s' = s.link.hostStream ∧ deadlineFromNow s ≤ s'.clock.t ∧
      s' = { s with
        seq.rxstate := .idle, rx := s'.rx, tx := s'.tx, link := s'.link, clock := s'.clock
        trace := .error .readTimeout (some .brightness) :: s.trace } ∧
      s'.rx.stage = [] ∧ s.tx.txq <+: s'.tx.txq)

/-! ## The deadline-bounded read (40 R121 to R123) -/

/-- 40 R122, R123 in closed form: under `READ_UNIT = GROUP` (the spec's decision D7) a call succeeds if and only if its
`k`-th byte exists and arrives by the deadline `D` (D8); it then returns the `k` oldest bytes and removes them; otherwise it
returns `Timeout` at `D` and has removed the bytes that arrived by `D` (D9, D10; log 12). Either way only the receiver has
acted. Premises: the host is paced, arrivals are in order (log 29), the parameters are legal. -/
def Obligations.ReadSucceedsExactlyByItsDeadline : Prop :=
  ∀ (s : State) (k : Nat), Paced s → ArrivalsOrdered s → s.params.Legal → s.params.readUnit = .group → 1 ≤ k →
    ∃ s', exec (.readBytes k) s = .next s' ∧ OnlyReception s s' ∧
      ((∃ b, (stream s)[k - 1]? = some b ∧ b.arrival ≤ (s.clock.t / 1000 + s.params.readTimeoutMs) * 1000 ∧
          b.arrival ≤ s'.clock.t ∧ s'.rx.lastRead = .ok (((stream s).take k).map RxByte.byte) ∧
          stream s' = (stream s).drop k) ∨
        ((∀ b, (stream s)[k - 1]? = some b → (s.clock.t / 1000 + s.params.readTimeoutMs) * 1000 < b.arrival) ∧
          s'.clock.t = (s.clock.t / 1000 + s.params.readTimeoutMs) * 1000 ∧ s'.rx.lastRead = .timeout ∧
          stream s' = (stream s).dropWhile
            (fun b => decide (b.arrival ≤ (s.clock.t / 1000 + s.params.readTimeoutMs) * 1000))))

/-- 40 R121 to R123 under `READ_UNIT = BYTE`, the other value of D7's parameter: each byte is an attempt with a deadline of
its own, which starts when the byte before it is taken. The call takes and removes the bytes that make their deadlines; if
these are `k` it returns them, otherwise it returns `Timeout` at the deadline of the attempt that failed (D8 to D10; log
12). Premises as under GROUP. -/
def Obligations.ReadByBytesGivesEachByteItsDeadline : Prop :=
  ∀ (s : State) (k : Nat), Paced s → ArrivalsOrdered s → s.params.Legal → s.params.readUnit = .byte →
    ∃ s' taken, exec (.readBytes k) s = .next s' ∧ OnlyReception s s' ∧
      taken = takenInTime s.params.readTimeoutMs k s.clock.t (stream s) ∧ stream s = taken ++ stream s' ∧
      ((taken.length = k ∧ s'.rx.lastRead = .ok (taken.map RxByte.byte) ∧ lastArrival s.clock.t taken ≤ s'.clock.t) ∨
        (taken.length < k ∧ s'.rx.lastRead = .timeout ∧
          s'.clock.t = (lastArrival s.clock.t taken / 1000 + s.params.readTimeoutMs) * 1000))

/-- 40 R134, 70 R317: a `ReadBytes` call lasts less than `READ_TIMEOUT_MS + 1` ms under `READ_UNIT = GROUP`, and less than
that for each of its bytes under BYTE, where each byte is a read attempt (D7; log 12). 00 R12: there is no tighter law; a
call whose bytes are queued lasts whatever time below that bound the environment chooses (log 10). -/
def Obligations.ReadCallsAreBounded : Prop :=
  (∀ (s s' : State) (k : Nat), exec (.readBytes k) s = .next s' →
    (s.params.readUnit = .group → s'.clock.t < s.clock.t + (s.params.readTimeoutMs + 1) * 1000) ∧
    (s.params.readUnit = .byte → 1 ≤ k → s'.clock.t < s.clock.t + k * ((s.params.readTimeoutMs + 1) * 1000))) ∧
  (∀ (s : State) (bs : List Byte) (d : Nat) (ds : List Nat), Paced s → bs <+: queuedBytes s → s.clock.pace = d :: ds →
    d < (s.params.readTimeoutMs + 1) * 1000 →
    ∃ s', exec (.readBytes bs.length) s = .next s' ∧ s'.rx.lastRead = .ok bs ∧ s'.clock.t = s.clock.t + d)

/-- 40 R121, 20 R72: bytes already queued are returned in order and removed, whichever unit `READ_UNIT` names; nothing but
the receiver's own state, the stream and the clock changes. -/
def Obligations.ReadTakesQueuedBytes : Prop :=
  ∀ (s : State) (bs : List Byte), Paced s → bs <+: queuedBytes s →
    ∃ s', exec (.readBytes bs.length) s = .next s' ∧ OnlyReception s s' ∧ s'.rx.lastRead = .ok bs ∧
      s'.rx.stage = s.rx.stage ∧ s'.seq = s.seq ∧ stream s' = (stream s).drop bs.length

/-! ## The frame store and the brightness register (spec/41_frame_store.md, spec/44_brightness_controller.md) -/

/-- 41 R161. The zero counters are the spec's decision D13. -/
def Obligations.CommitStaticReplacesBothFrames : Prop :=
  ∀ (s : State) (f : Frame), Paced s → ∃ s', exec (.commitStatic f) s = .next s' ∧
    OnlyTime
      { s with
        store := { si := f, ab := [], rb := f }
        anim := { s.anim with active := false, frameCount := 0, currentFrameIndex := 0 }
        ie := true, trace := .committed .singleFrame :: s.trace } s'

/-- 41 R162. -/
def Obligations.CommitAnimationInstallsItsFrames : Prop :=
  ∀ (s : State) (n : Nat) (f : Frame) (fs : List Frame), Paced s → (f :: fs).length = n → n ≤ 10 →
    ∃ s', exec (.commitAnimation n (f :: fs)) s = .next s' ∧
      OnlyTime
        { s with
          store := { s.store with ab := f :: fs, rb := f }
          anim := { active := true, frameCount := n, currentFrameIndex := 0, lastFrameChangeMs := s.clock.t / 1000 }
          ie := true, trace := .committed .animation :: s.trace } s'

/-- 41 R163. `RB` is kept under `RENDER_ON_ANIM_ABORT = KEEP`, the spec's decision D12 (log 15); indices 0 are D13. -/
def Obligations.ClearAnimationEmptiesTheAnimation : Prop :=
  ∀ s : State, Paced s → ∃ s', exec .clearAnimation s = .next s' ∧
    OnlyTime
      { s with
        store := { s.store with ab := [], rb := if s.params.renderOnAnimAbort = .keep then s.store.rb else s.store.si }
        anim := { s.anim with active := false, frameCount := 0, currentFrameIndex := 0 }
        ie := true, trace := .cleared (shownFrame s) :: s.trace } s'

/-- 41 R164: all eight cells of `RB` in one step, and nothing else. -/
def Obligations.SetRenderReplacesTheWholeFrame : Prop :=
  ∀ (s : State) (f : Frame), Paced s → ∃ s', exec (.setRender f) s = .next s' ∧
    OnlyTime { s with store := { s.store with rb := f } } s'

/-- 44 R221, R222: the exact product first, then the truncating division, then the sum. Truncation is the spec's decision
D14. -/
def Obligations.SetBrightnessFollowsTheFormula : Prop :=
  ∀ (s : State) (b : Byte), Paced s → ∃ s', exec (.setBrightness b) s = .next s' ∧
    OnlyTime
      { s with
        dwellUs := s.params.brightnessMin + (b.toNat * (s.params.brightnessMax - s.params.brightnessMin)) / 255
        ie := true, trace := .committed .brightness :: s.trace } s'

/-- 44 R223: the end points, monotony for every legal range, and strictness with steps of 17 or 18 at the defaults. -/
def Obligations.BrightnessMapHasItsEndPointsAndIsMonotonic : Prop :=
  ∀ p : Params, p.Legal → dwellOf p 0x00 = p.brightnessMin ∧ dwellOf p 0xFF = p.brightnessMax ∧
    (∀ b1 b2 : Byte, b1.toNat ≤ b2.toNat → dwellOf p b1 ≤ dwellOf p b2) ∧
    (p.brightnessMin = 500 → p.brightnessMax = 5000 →
      ∀ b1 b2 : Byte, b1.toNat < b2.toNat → dwellOf p b1 < dwellOf p b2 ∧
        (b2.toNat = b1.toNat + 1 → dwellOf p b2 = dwellOf p b1 + 17 ∨ dwellOf p b2 = dwellOf p b1 + 18))

/-- 20 R74: the same valid SINGLE_FRAME or BRIGHTNESS twice leaves the frame store, the animation state and the dwell time
that once leaves. -/
def Obligations.RepeatedFrameOrBrightnessIsIdempotent : Prop :=
  (∀ (s s1 : State) (f : Frame), Paced s → exec (.singleFrame (some f) (some 0xFE)) s = .next s1 →
    ∃ s2, exec (.singleFrame (some f) (some 0xFE)) s1 = .next s2 ∧ s2.store = s1.store ∧ s2.anim = s1.anim ∧
      s2.dwellUs = s1.dwellUs) ∧
  (∀ (s s1 : State) (b : Byte), Paced s → exec (.brightness (some b)) s = .next s1 →
    ∃ s2, exec (.brightness (some b)) s1 = .next s2 ∧ s2.store = s1.store ∧ s2.anim = s1.anim ∧
      s2.dwellUs = s1.dwellUs)

/-! ## The scanner and the chain (spec/42_display_scanner.md) -/

/-- 42 R182, 10 R38: every stage moves one place up, the bit enters stage 0, the outputs do not change. The numbering of
the stages is D5, the idle level of the clock line D6. -/
def Obligations.ShiftMovesEveryStageUp : Prop :=
  ∀ (s : State) (d : Bool), Paced s → ∃ s', exec (.shift d) s = .next s' ∧
    OnlyTime { s with chain := { s.chain with sr := s'.chain.sr, ser := d, srclk := false } } s' ∧
    s'.chain.sr.getLsbD 0 = d ∧ ∀ i, i < 15 → s'.chain.sr.getLsbD (i + 1) = s.chain.sr.getLsbD i

/-- 42 R184, 10 R39: the outputs take the shift stage, all sixteen bits, and the stage is unchanged. The idle level of the
latch line is D6. -/
def Obligations.LatchCopiesTheShiftStage : Prop :=
  ∀ s : State, Paced s → ∃ s', exec .latch s = .next s' ∧
    OnlyTime
      { s with
        chain := { s.chain with out := s.chain.sr, rclk := false }
        trace := .latched s.chain.sr s.clock.t :: s.trace } s'

/-- 42 R181, 20 R63, R64, 30 R100: ROW_ACTIVATE puts the word of its pair on the outputs, whatever the chain held before,
with one LATCH. Which byte lies in which register is `SHIFT_ORDER` (D4; log 13). -/
def Obligations.RowActivateLatchesItsPair : Prop :=
  ∀ (s : State) (c : Byte) (row : RowIndex), Paced s → ∃ s' w τ, exec (.rowActivate c row) s = .next s' ∧
    w = (match s.params.shiftOrder with
      | .colThenRow => bitrev8 c ++ (1#8 <<< row.toNat)
      | .rowThenCol => (1#8 <<< row.toNat) ++ bitrev8 c) ∧
    s.clock.t ≤ τ ∧ τ ≤ s'.clock.t ∧
    OnlyTime
      { s with
        chain := { sr := w, out := w, ser := s'.chain.ser, srclk := false, rclk := false }
        trace := .latched w τ :: s.trace } s'

/-- 42 R181: ASSERT does it for the current row of `RB`. -/
def Obligations.AssertLatchesTheCurrentRow : Prop :=
  ∀ s : State, Paced s → ∃ s' w τ, exec .assert s = .next s' ∧
    w = (match s.params.shiftOrder with
      | .colThenRow => bitrev8 (rowOf s.store.rb s.seq.currentRow) ++ (1#8 <<< s.seq.currentRow.toNat)
      | .rowThenCol => (1#8 <<< s.seq.currentRow.toNat) ++ bitrev8 (rowOf s.store.rb s.seq.currentRow)) ∧
    s.clock.t ≤ τ ∧ τ ≤ s'.clock.t ∧
    OnlyTime
      { s with
        chain := { sr := w, out := w, ser := s'.chain.ser, srclk := false, rclk := false }
        trace := .latched w τ :: s.trace } s'

/-- 42 R186, 30 R101: BLANK and BLANK_STEP leave the stage and the outputs zero, whatever they were. -/
def Obligations.BlankClearsTheOutputs : Prop :=
  ∀ (s : State) (i : Instr), Paced s → i = .blank ∨ i = .blankStep → ∃ s' τ, exec i s = .next s' ∧
    s.clock.t ≤ τ ∧ τ ≤ s'.clock.t ∧
    OnlyTime
      { s with
        chain := { sr := 0, out := 0, ser := false, srclk := false, rclk := false }
        trace := .latched 0 τ :: s.trace } s'

/-- 42 R192, R183: the pair is recovered from the word as the spec says for its layout, and as it says for the other. -/
def Obligations.PairIsRecoveredFromTheWord : Prop :=
  ∀ (c : Byte) (row : RowIndex),
    (pairWord .colThenRow c row).extractLsb' 0 8 = 1#8 <<< row.toNat ∧
    bitrev8 ((pairWord .colThenRow c row).extractLsb' 8 8) = c ∧
    (pairWord .rowThenCol c row).extractLsb' 8 8 = 1#8 <<< row.toNat ∧
    bitrev8 ((pairWord .rowThenCol c row).extractLsb' 0 8) = c ∧
    ∀ i, i < 8 → (bitrev8 c).getLsbD i = c.getLsbD (7 - i)

/-- 42 R185: HOLD lets at least `dwell_us` microseconds pass and does nothing else; there is no upper bound (D3). -/
def Obligations.HoldLastsAtLeastTheDwellTime : Prop :=
  ∀ s : State, Paced s → ∃ s', exec .hold s = .next s' ∧ OnlyTime s s' ∧ s.clock.t + s.dwellUs ≤ s'.clock.t

/-- 42 R187: `currentRow <- (currentRow + 1) mod 8`, 7 followed by 0, and nothing else. -/
def Obligations.AdvanceMovesToTheNextRow : Prop :=
  ∀ s : State, Paced s → ∃ s', exec .advance s = .next s' ∧
    OnlyTime { s with seq := { s.seq with currentRow := s'.seq.currentRow } } s' ∧
    s'.seq.currentRow.toNat = (s.seq.currentRow.toNat + 1) % 8

/-- 42 R180: a scan step latches the current row's word, holds it at least the dwell time, latches the zero word, moves to
the next row, and changes nothing else. -/
def Obligations.ScanStepShowsOneRow : Prop :=
  ∀ s : State, Paced s → ∃ s' t1 t2, exec .scanStep s = .next s' ∧
    s.clock.t ≤ t1 ∧ t1 + s.dwellUs ≤ t2 ∧ t2 ≤ s'.clock.t ∧
    OnlyTime
      { s with
        seq := { s.seq with scanphase := .advance, currentRow := s.seq.currentRow + 1 }
        chain := { sr := 0, out := 0, ser := false, srclk := false, rclk := false }
        trace := .latched 0 t2 ::
          .latched (pairWord s.params.shiftOrder (rowOf s.store.rb s.seq.currentRow) s.seq.currentRow) t1 :: s.trace } s'

/-- 42 R189, 95 X8: eight consecutive scan steps show the whole RenderBuffer, row by row, no row repeated or skipped. -/
def Obligations.ScanCycleShowsTheRenderBuffer : Prop :=
  ∀ s : State, Paced s → ∃ s', scanSteps 8 s = .next s' ∧ s'.store = s.store ∧ s'.seq.currentRow = s.seq.currentRow ∧
    latchedWords s'.trace =
      cycleWords s.params.shiftOrder s.store.rb (scannedRows s.seq.currentRow) ++ latchedWords s.trace ∧
    (scannedRows s.seq.currentRow).Nodup ∧ ∀ r : RowIndex, r ∈ scannedRows s.seq.currentRow

/-- 20 R73: whatever instruction runs, the outputs hold the word of the last LATCH in it, and are unchanged if it makes
none. -/
def Obligations.OutputsChangeOnlyAtALatch : Prop :=
  ∀ (i : Instr) (s s' : State), exec i s = .next s' →
    ∃ new, s'.trace = new ++ s.trace ∧ s'.chain.out = (latchedWords new).head?.getD s.chain.out

/-! ## The animation scheduler (spec/43_animation_scheduler.md) -/

/-- 43 R210, R212, R213: a due tick moves the index to the next Frame of `AB`, the last followed by the first, shows that
Frame, and sets the timer to the present time, once however late it is. Due is by `TICK_COMPARE` (D17; log 16). -/
def Obligations.DueTickShowsTheNextFrame : Prop :=
  ∀ (s : State) (f : Frame) (i : Nat), Paced s → s.anim.active = true →
    (match s.params.tickCompare with
      | .atLeast => 500 ≤ s.clock.t / 1000 - s.anim.lastFrameChangeMs
      | .moreThan => 500 < s.clock.t / 1000 - s.anim.lastFrameChangeMs) →
    s.anim.currentFrameIndex < s.anim.frameCount →
    i = (if s.anim.currentFrameIndex + 1 = s.anim.frameCount then 0 else s.anim.currentFrameIndex + 1) →
    s.store.ab[i]? = some f →
    ∃ s', exec .animTick s = .next s' ∧
      OnlyTime
        { s with
          store := { s.store with rb := f }
          anim := { s.anim with currentFrameIndex := i, lastFrameChangeMs := s.clock.t / 1000 }
          ie := true } s'

/-- 43 R214: while `active` is false the tick check does nothing. -/
def Obligations.TickDoesNothingWhileInactive : Prop :=
  ∀ s : State, Paced s → s.anim.active = false → ∃ s', exec .animTick s = .next s' ∧ OnlyTime s s'

/-- 43 R211: no frame advance before 500 ms have elapsed since the last change, under either comparison: an earlier tick
does nothing. -/
def Obligations.NoFrameAdvanceBeforeItsInterval : Prop :=
  ∀ s : State, Paced s → s.clock.t / 1000 - s.anim.lastFrameChangeMs < 500 →
    ∃ s', exec .animTick s = .next s' ∧ OnlyTime s s'

/-! ## Critical sections (45 R234) -/

/-- 45 R234: entering clears `IE`, leaving sets it, and nothing else changes. That leaving sets it to 1 is D23. -/
def Obligations.CriticalSectionsWriteTheFlag : Prop :=
  (∀ s : State, Paced s → ∃ s', exec (.critical .enter) s = .next s' ∧ OnlyTime { s with ie := false } s') ∧
  (∀ s : State, Paced s → ∃ s', exec (.critical .leave) s = .next s' ∧ OnlyTime { s with ie := true } s')

/-! ## The whole machine -/

/-- 45 R233, 60 R250: no instruction halts the block: with a paced host every one answers a next state. -/
def Obligations.EveryInstructionCompletesForAPacedHost : Prop :=
  ∀ (i : Instr) (s : State), Paced s → ∃ s', exec i s = .next s' ∧ Paced s'

/-- 93 U7: an instruction that does not answer a next state has stopped on an overrun, and only where the bytes in `RXQ`
and still to come are more than `RX_FIFO_DEPTH`; none is refused. -/
def Obligations.OnlyAnOverrunStopsTheBlock : Prop :=
  ∀ (i : Instr) (s : State), (∃ s', exec i s = .next s') ∨ (exec i s = .fault .rxOverrun ∧ ¬ Paced s ∧
    ∃ d, s.params.rxFifoDepth = some d ∧ d < s.link.rxq.length + s.link.hostStream.length)

/-- 93 U7, 10 R42: a byte that arrives at a full queue stops the machine, within the time of the operation in which it
arrives (log 7, log 8). First clause: of an operation that takes no byte (LATCH), exactly if the bytes that arrive until its
end are more than there is room for. Second: with the queue full, the next byte within the time of the first operation, for
every instruction that takes none and for the steps in `phase = SCAN` and `phase = TICK`. Third: for the step in
`phase = POLL`, POLL and MAIN_LOOP, which take one byte: the next two bytes, or the next one if it has arrived or if the
queue of depth 0 is empty. -/
def Obligations.ArrivalAtAFullQueueStops : Prop :=
  (∀ s : State, exec .latch s = .fault .rxOverrun ↔
    ∃ d, s.params.rxFifoDepth = some d ∧
      s.link.hostStream.takeWhile (fun b => decide (b.arrival ≤ (clockAfter 0 s.clock).t)) ≠ [] ∧
      d < s.link.rxq.length +
        (s.link.hostStream.takeWhile (fun b => decide (b.arrival ≤ (clockAfter 0 s.clock).t))).length) ∧
  (∀ (s : State) (d : Nat) (b : RxByte) (bs : List RxByte), s.params.rxFifoDepth = some d → d ≤ s.link.rxq.length →
    s.link.hostStream = b :: bs → b.arrival ≤ (clockAfter 0 s.clock).t →
    (∀ i : Instr, i ≠ .poll → i ≠ .mainLoop → (∀ m, i ≠ .handleCommand m) → (∀ k, i ≠ .readBytes k) →
      exec i s = .fault .rxOverrun) ∧
    (s.seq.phase ≠ .poll → step s = .fault .rxOverrun)) ∧
  (∀ (s : State) (d : Nat) (b : RxByte) (bs : List RxByte), s.params.rxFifoDepth = some d → d ≤ s.link.rxq.length →
    s.link.hostStream = b :: bs → b.arrival ≤ (clockAfter 0 s.clock).t →
    (b.arrival ≤ s.clock.t ∨ s.link.rxq = [] ∨ ∃ b' bs', bs = b' :: bs' ∧ b'.arrival ≤ (clockAfter 0 s.clock).t) →
    exec .poll s = .fault .rxOverrun ∧ exec .mainLoop s = .fault .rxOverrun ∧
      (s.seq.phase = .poll → step s = .fault .rxOverrun))

/-- 10 R37, R43, R46, 00 R12: whatever instruction runs, the parameters are not written, time does not go back, the bytes
of the stream keep their order, and the transmit stream only grows. -/
def Obligations.ParametersTimeAndStreamsAreKept : Prop :=
  ∀ (i : Instr) (s s' : State), exec i s = .next s' → s'.params = s.params ∧ s.clock.t ≤ s'.clock.t ∧
    (∃ bs, stream s = bs ++ stream s') ∧ s.tx.txq <+: s'.tx.txq

/-- 40 R134, R133, 60 R250: receiving and running a command moves neither the scanner nor its outputs: the chain, the row,
the phase and the scan phase are as before. -/
def Obligations.ReceptionStopsTheScanner : Prop :=
  ∀ (i : Instr) (s s' : State), (i = .poll ∨ (∃ m, i = .handleCommand m) ∨ (∃ k, i = .readBytes k) ∨
      (∃ c : Command, i = c.toInstr) ∨ (∃ e cmd, i = .abort e cmd)) → exec i s = .next s' →
    s'.chain = s.chain ∧ s'.seq.currentRow = s.seq.currentRow ∧ s'.seq.phase = s.seq.phase ∧
      s'.seq.scanphase = s.seq.scanphase

/-- 10 R20, R21, R22, R25, R28, R33, 41 R166: who writes what. `SI`; the dwell time; `RB`, where a failed ANIMATION writes
it only under `RENDER_ON_ANIM_ABORT = STATIC` (D12; log 15); `AB`; the animation state with its timer; `currentRow`. HANDLE_COMMAND,
POLL and MAIN_LOOP write what the command or the tick in them writes. Scan steps and their parts write none but the row. -/
def Obligations.RegistersAreWrittenOnlyByTheirCommands : Prop :=
  (∀ (i : Instr) (s s' : State), exec i s = .next s' → s'.store.si ≠ s.store.si →
    (∃ f, i = .singleFrame (some f) (some 0xFE)) ∨ (∃ f, i = .commitStatic f) ∨ i = .handleCommand 0xFF ∨ i = .poll ∨
      i = .mainLoop) ∧
  (∀ (i : Instr) (s s' : State), exec i s = .next s' → s'.dwellUs ≠ s.dwellUs →
    (∃ b, i = .brightness (some b)) ∨ (∃ b, i = .setBrightness b) ∨ i = .handleCommand 0xFC ∨ i = .poll ∨
      i = .mainLoop) ∧
  (∀ (i : Instr) (s s' : State), exec i s = .next s' → s'.store.rb ≠ s.store.rb →
    (∃ f, i = .singleFrame (some f) (some 0xFE)) ∨ (∃ f, i = .commitStatic f) ∨
      (∃ n fs, i = .animation (some n) fs (some 0xFB) ∧ 1 ≤ n.toNat ∧ n.toNat ≤ 10) ∨
      (∃ n fs, i = .commitAnimation n fs) ∨ (∃ f, i = .setRender f) ∨ (i = .animTick ∧ s.anim.active = true) ∨
      i = .handleCommand 0xFF ∨ i = .handleCommand 0xFA ∨ i = .poll ∨ i = .mainLoop ∨
      (s.params.renderOnAnimAbort = .static ∧
        (i = .clearAnimation ∨ (∃ e, i = .abort e .animation) ∨ ∃ n fs e, i = .animation n fs e))) ∧
  (∀ (i : Instr) (s s' : State), exec i s = .next s' → s'.store.ab ≠ s.store.ab →
    (∃ f, i = .singleFrame (some f) (some 0xFE)) ∨ (∃ f, i = .commitStatic f) ∨ (∃ n fs e, i = .animation n fs e) ∨
      (∃ n fs, i = .commitAnimation n fs) ∨ i = .clearAnimation ∨ (∃ e, i = .abort e .animation) ∨
      i = .handleCommand 0xFF ∨ i = .handleCommand 0xFA ∨ i = .poll ∨ i = .mainLoop) ∧
  (∀ (i : Instr) (s s' : State), exec i s = .next s' → s'.anim ≠ s.anim →
    (∃ f, i = .singleFrame (some f) (some 0xFE)) ∨ (∃ f, i = .commitStatic f) ∨ (∃ n fs e, i = .animation n fs e) ∨
      (∃ n fs, i = .commitAnimation n fs) ∨ i = .clearAnimation ∨ (∃ e, i = .abort e .animation) ∨
      (i = .animTick ∧ s.anim.active = true) ∨
      i = .handleCommand 0xFF ∨ i = .handleCommand 0xFA ∨ i = .poll ∨ i = .mainLoop) ∧
  (∀ (i : Instr) (s s' : State), exec i s = .next s' → s'.seq.currentRow ≠ s.seq.currentRow →
    i = .advance ∨ i = .scanStep ∨ i = .mainLoop) ∧
  (∀ (i : Instr) (s s' : State), exec i s = .next s' →
    (i = .scanStep ∨ i = .assert ∨ i = .hold ∨ i = .blankStep ∨ i = .advance ∨ i = .latch ∨ i = .blank ∨
      (∃ d, i = .shift d) ∨ (∃ c row, i = .rowActivate c row)) →
    s'.store = s.store ∧ s'.anim = s.anim ∧ s'.dwellUs = s.dwellUs ∧ s'.ie = s.ie ∧ s'.rx = s.rx ∧ s'.tx = s.tx)

/-! ## Reset and the invariant (10 R47, 70 R291) -/

/-- 10 R47: the state after reset. The row, the phase and the empty queues are the spec's decision D18, the index D13, the
dwell time D15, `IE` D23, the lines D6; `SR` and `OUT` are free (log 6). -/
def Obligations.ResetHasTheValuesOfTheTable : Prop :=
  State.reset.store = { si := Frame.zero, ab := [], rb := Frame.zero } ∧
  State.reset.anim = { active := false, frameCount := 0, currentFrameIndex := 0, lastFrameChangeMs := 0 } ∧
  State.reset.seq = { phase := .poll, rxstate := .idle, scanphase := .assert, currentRow := 0 } ∧
  State.reset.dwellUs = 2750 ∧ State.reset.ie = true ∧ State.reset.link.rxq = [] ∧ State.reset.tx.txq = [] ∧
  State.reset.clock.t = 0 ∧ State.reset.chain.ser = false ∧ State.reset.chain.srclk = false ∧
  State.reset.chain.rclk = false

/-- The invariant holds at reset. -/
def Obligations.ResetMeetsTheInvariant : Prop := BlockInv State.reset

/-- 10 R23, R24, R27, R33, 20 R76, 42 R188, R191, R192: every step keeps the invariant. -/
def Obligations.EveryStepKeepsTheInvariant : Prop :=
  ∀ s s' : State, BlockInv s → step s = .next s' → BlockInv s'

/-- 42 R188, R191, R192, 40 R134: after a step from a state that meets the invariant, once a word has been latched, at most
one of the eight row-select bits is on, and it is the current row's where a row is being shown; at the sequencer's positions
POLL, TICK, ASSERT and ADVANCE all sixteen outputs are off. In which byte the row-select bits lie is `SHIFT_ORDER` (D4; log 13). -/
def Obligations.AtMostOneRowIsLit : Prop :=
  ∀ s s' : State, BlockInv s → step s = .next s' → latchedWords s'.trace ≠ [] →
    (rowSelectBits s' = 0 ∨ ∃ r : RowIndex, rowSelectBits s' = 1#8 <<< r.toNat) ∧
    (s'.seq.phase = .scan → s'.seq.scanphase = .hold ∨ s'.seq.scanphase = .blank →
      rowSelectBits s' = 1#8 <<< s'.seq.currentRow.toNat) ∧
    (s'.seq.phase = .poll ∨ s'.seq.phase = .tick ∨ s'.seq.scanphase = .assert ∨ s'.seq.scanphase = .advance →
      s'.chain.out = 0)
end

