-- ==== Sys2Proof/Laws/State.lean ====
section
/-! SUPPORT. What each named update of State leaves in each field, true by definition. -/

namespace Sys2Proof.Machine

/-! ## setPhase -/

@[simp] theorem setPhase_store (p : Phase) (s : State) : (setPhase p s).store = s.store := rfl
@[simp] theorem setPhase_anim (p : Phase) (s : State) : (setPhase p s).anim = s.anim := rfl
@[simp] theorem setPhase_seq (p : Phase) (s : State) : (setPhase p s).seq = { s.seq with phase := p } := rfl
@[simp] theorem setPhase_dwellUs (p : Phase) (s : State) : (setPhase p s).dwellUs = s.dwellUs := rfl
@[simp] theorem setPhase_ie (p : Phase) (s : State) : (setPhase p s).ie = s.ie := rfl
@[simp] theorem setPhase_chain (p : Phase) (s : State) : (setPhase p s).chain = s.chain := rfl
@[simp] theorem setPhase_rx (p : Phase) (s : State) : (setPhase p s).rx = s.rx := rfl
@[simp] theorem setPhase_link (p : Phase) (s : State) : (setPhase p s).link = s.link := rfl
@[simp] theorem setPhase_tx (p : Phase) (s : State) : (setPhase p s).tx = s.tx := rfl
@[simp] theorem setPhase_clock (p : Phase) (s : State) : (setPhase p s).clock = s.clock := rfl
@[simp] theorem setPhase_params (p : Phase) (s : State) : (setPhase p s).params = s.params := rfl
@[simp] theorem setPhase_trace (p : Phase) (s : State) : (setPhase p s).trace = s.trace := rfl

/-! ## setScanphase -/

@[simp] theorem setScanphase_store (p : ScanPhase) (s : State) : (setScanphase p s).store = s.store := rfl
@[simp] theorem setScanphase_anim (p : ScanPhase) (s : State) : (setScanphase p s).anim = s.anim := rfl
@[simp] theorem setScanphase_seq (p : ScanPhase) (s : State) : (setScanphase p s).seq = { s.seq with scanphase := p } := rfl
@[simp] theorem setScanphase_dwellUs (p : ScanPhase) (s : State) : (setScanphase p s).dwellUs = s.dwellUs := rfl
@[simp] theorem setScanphase_ie (p : ScanPhase) (s : State) : (setScanphase p s).ie = s.ie := rfl
@[simp] theorem setScanphase_chain (p : ScanPhase) (s : State) : (setScanphase p s).chain = s.chain := rfl
@[simp] theorem setScanphase_rx (p : ScanPhase) (s : State) : (setScanphase p s).rx = s.rx := rfl
@[simp] theorem setScanphase_link (p : ScanPhase) (s : State) : (setScanphase p s).link = s.link := rfl
@[simp] theorem setScanphase_tx (p : ScanPhase) (s : State) : (setScanphase p s).tx = s.tx := rfl
@[simp] theorem setScanphase_clock (p : ScanPhase) (s : State) : (setScanphase p s).clock = s.clock := rfl
@[simp] theorem setScanphase_params (p : ScanPhase) (s : State) : (setScanphase p s).params = s.params := rfl
@[simp] theorem setScanphase_trace (p : ScanPhase) (s : State) : (setScanphase p s).trace = s.trace := rfl

/-! ## setRxstate -/

@[simp] theorem setRxstate_store (r : RxState) (s : State) : (setRxstate r s).store = s.store := rfl
@[simp] theorem setRxstate_anim (r : RxState) (s : State) : (setRxstate r s).anim = s.anim := rfl
@[simp] theorem setRxstate_seq (r : RxState) (s : State) : (setRxstate r s).seq = { s.seq with rxstate := r } := rfl
@[simp] theorem setRxstate_dwellUs (r : RxState) (s : State) : (setRxstate r s).dwellUs = s.dwellUs := rfl
@[simp] theorem setRxstate_ie (r : RxState) (s : State) : (setRxstate r s).ie = s.ie := rfl
@[simp] theorem setRxstate_chain (r : RxState) (s : State) : (setRxstate r s).chain = s.chain := rfl
@[simp] theorem setRxstate_rx (r : RxState) (s : State) : (setRxstate r s).rx = s.rx := rfl
@[simp] theorem setRxstate_link (r : RxState) (s : State) : (setRxstate r s).link = s.link := rfl
@[simp] theorem setRxstate_tx (r : RxState) (s : State) : (setRxstate r s).tx = s.tx := rfl
@[simp] theorem setRxstate_clock (r : RxState) (s : State) : (setRxstate r s).clock = s.clock := rfl
@[simp] theorem setRxstate_params (r : RxState) (s : State) : (setRxstate r s).params = s.params := rfl
@[simp] theorem setRxstate_trace (r : RxState) (s : State) : (setRxstate r s).trace = s.trace := rfl

/-! ## note -/

@[simp] theorem note_store (e : Event) (s : State) : (note e s).store = s.store := rfl
@[simp] theorem note_anim (e : Event) (s : State) : (note e s).anim = s.anim := rfl
@[simp] theorem note_seq (e : Event) (s : State) : (note e s).seq = s.seq := rfl
@[simp] theorem note_dwellUs (e : Event) (s : State) : (note e s).dwellUs = s.dwellUs := rfl
@[simp] theorem note_ie (e : Event) (s : State) : (note e s).ie = s.ie := rfl
@[simp] theorem note_chain (e : Event) (s : State) : (note e s).chain = s.chain := rfl
@[simp] theorem note_rx (e : Event) (s : State) : (note e s).rx = s.rx := rfl
@[simp] theorem note_link (e : Event) (s : State) : (note e s).link = s.link := rfl
@[simp] theorem note_tx (e : Event) (s : State) : (note e s).tx = s.tx := rfl
@[simp] theorem note_clock (e : Event) (s : State) : (note e s).clock = s.clock := rfl
@[simp] theorem note_params (e : Event) (s : State) : (note e s).params = s.params := rfl
@[simp] theorem note_trace (e : Event) (s : State) : (note e s).trace = e :: s.trace := rfl

/-! ## setTime -/

@[simp] theorem setTime_store (t : Nat) (s : State) : (setTime t s).store = s.store := rfl
@[simp] theorem setTime_anim (t : Nat) (s : State) : (setTime t s).anim = s.anim := rfl
@[simp] theorem setTime_seq (t : Nat) (s : State) : (setTime t s).seq = s.seq := rfl
@[simp] theorem setTime_dwellUs (t : Nat) (s : State) : (setTime t s).dwellUs = s.dwellUs := rfl
@[simp] theorem setTime_ie (t : Nat) (s : State) : (setTime t s).ie = s.ie := rfl
@[simp] theorem setTime_chain (t : Nat) (s : State) : (setTime t s).chain = s.chain := rfl
@[simp] theorem setTime_rx (t : Nat) (s : State) : (setTime t s).rx = s.rx := rfl
@[simp] theorem setTime_link (t : Nat) (s : State) : (setTime t s).link = s.link := rfl
@[simp] theorem setTime_tx (t : Nat) (s : State) : (setTime t s).tx = s.tx := rfl
@[simp] theorem setTime_clock (t : Nat) (s : State) : (setTime t s).clock = { s.clock with t := t } := rfl
@[simp] theorem setTime_params (t : Nat) (s : State) : (setTime t s).params = s.params := rfl
@[simp] theorem setTime_trace (t : Nat) (s : State) : (setTime t s).trace = s.trace := rfl

/-! ## enterCritical -/

@[simp] theorem enterCritical_store (s : State) : (enterCritical s).store = s.store := rfl
@[simp] theorem enterCritical_anim (s : State) : (enterCritical s).anim = s.anim := rfl
@[simp] theorem enterCritical_seq (s : State) : (enterCritical s).seq = s.seq := rfl
@[simp] theorem enterCritical_dwellUs (s : State) : (enterCritical s).dwellUs = s.dwellUs := rfl
@[simp] theorem enterCritical_ie (s : State) : (enterCritical s).ie = false := rfl
@[simp] theorem enterCritical_chain (s : State) : (enterCritical s).chain = s.chain := rfl
@[simp] theorem enterCritical_rx (s : State) : (enterCritical s).rx = s.rx := rfl
@[simp] theorem enterCritical_link (s : State) : (enterCritical s).link = s.link := rfl
@[simp] theorem enterCritical_tx (s : State) : (enterCritical s).tx = s.tx := rfl
@[simp] theorem enterCritical_clock (s : State) : (enterCritical s).clock = s.clock := rfl
@[simp] theorem enterCritical_params (s : State) : (enterCritical s).params = s.params := rfl
@[simp] theorem enterCritical_trace (s : State) : (enterCritical s).trace = s.trace := rfl

/-! ## leaveCritical -/

@[simp] theorem leaveCritical_store (s : State) : (leaveCritical s).store = s.store := rfl
@[simp] theorem leaveCritical_anim (s : State) : (leaveCritical s).anim = s.anim := rfl
@[simp] theorem leaveCritical_seq (s : State) : (leaveCritical s).seq = s.seq := rfl
@[simp] theorem leaveCritical_dwellUs (s : State) : (leaveCritical s).dwellUs = s.dwellUs := rfl
@[simp] theorem leaveCritical_ie (s : State) : (leaveCritical s).ie = true := rfl
@[simp] theorem leaveCritical_chain (s : State) : (leaveCritical s).chain = s.chain := rfl
@[simp] theorem leaveCritical_rx (s : State) : (leaveCritical s).rx = s.rx := rfl
@[simp] theorem leaveCritical_link (s : State) : (leaveCritical s).link = s.link := rfl
@[simp] theorem leaveCritical_tx (s : State) : (leaveCritical s).tx = s.tx := rfl
@[simp] theorem leaveCritical_clock (s : State) : (leaveCritical s).clock = s.clock := rfl
@[simp] theorem leaveCritical_params (s : State) : (leaveCritical s).params = s.params := rfl
@[simp] theorem leaveCritical_trace (s : State) : (leaveCritical s).trace = s.trace := rfl

/-! ## writeRender -/

@[simp] theorem writeRender_store (f : Frame) (s : State) : (writeRender f s).store = { s.store with rb := f } := rfl
@[simp] theorem writeRender_anim (f : Frame) (s : State) : (writeRender f s).anim = s.anim := rfl
@[simp] theorem writeRender_seq (f : Frame) (s : State) : (writeRender f s).seq = s.seq := rfl
@[simp] theorem writeRender_dwellUs (f : Frame) (s : State) : (writeRender f s).dwellUs = s.dwellUs := rfl
@[simp] theorem writeRender_ie (f : Frame) (s : State) : (writeRender f s).ie = s.ie := rfl
@[simp] theorem writeRender_chain (f : Frame) (s : State) : (writeRender f s).chain = s.chain := rfl
@[simp] theorem writeRender_rx (f : Frame) (s : State) : (writeRender f s).rx = s.rx := rfl
@[simp] theorem writeRender_link (f : Frame) (s : State) : (writeRender f s).link = s.link := rfl
@[simp] theorem writeRender_tx (f : Frame) (s : State) : (writeRender f s).tx = s.tx := rfl
@[simp] theorem writeRender_clock (f : Frame) (s : State) : (writeRender f s).clock = s.clock := rfl
@[simp] theorem writeRender_params (f : Frame) (s : State) : (writeRender f s).params = s.params := rfl
@[simp] theorem writeRender_trace (f : Frame) (s : State) : (writeRender f s).trace = s.trace := rfl

/-! ## diagnosticOnUnknown -/

@[simp] theorem diagnosticOnUnknown_store (s : State) : (diagnosticOnUnknown s).store = s.store := rfl
@[simp] theorem diagnosticOnUnknown_anim (s : State) : (diagnosticOnUnknown s).anim = s.anim := rfl
@[simp] theorem diagnosticOnUnknown_seq (s : State) : (diagnosticOnUnknown s).seq = s.seq := rfl
@[simp] theorem diagnosticOnUnknown_dwellUs (s : State) : (diagnosticOnUnknown s).dwellUs = s.dwellUs := rfl
@[simp] theorem diagnosticOnUnknown_ie (s : State) : (diagnosticOnUnknown s).ie = s.ie := rfl
@[simp] theorem diagnosticOnUnknown_chain (s : State) : (diagnosticOnUnknown s).chain = s.chain := rfl
@[simp] theorem diagnosticOnUnknown_rx (s : State) : (diagnosticOnUnknown s).rx = s.rx := rfl
@[simp] theorem diagnosticOnUnknown_link (s : State) : (diagnosticOnUnknown s).link = s.link := rfl
@[simp] theorem diagnosticOnUnknown_clock (s : State) : (diagnosticOnUnknown s).clock = s.clock := rfl
@[simp] theorem diagnosticOnUnknown_params (s : State) : (diagnosticOnUnknown s).params = s.params := rfl
@[simp] theorem diagnosticOnUnknown_trace (s : State) : (diagnosticOnUnknown s).trace = s.trace := rfl

/-! ## deactivate -/

@[simp] theorem deactivate_store (s : State) : (deactivate s).store = { s.store with ab := [] } := rfl
@[simp] theorem deactivate_anim (s : State) : (deactivate s).anim = { s.anim with active := false, frameCount := 0, currentFrameIndex := 0 } := rfl
@[simp] theorem deactivate_seq (s : State) : (deactivate s).seq = s.seq := rfl
@[simp] theorem deactivate_dwellUs (s : State) : (deactivate s).dwellUs = s.dwellUs := rfl
@[simp] theorem deactivate_ie (s : State) : (deactivate s).ie = s.ie := rfl
@[simp] theorem deactivate_chain (s : State) : (deactivate s).chain = s.chain := rfl
@[simp] theorem deactivate_rx (s : State) : (deactivate s).rx = s.rx := rfl
@[simp] theorem deactivate_link (s : State) : (deactivate s).link = s.link := rfl
@[simp] theorem deactivate_tx (s : State) : (deactivate s).tx = s.tx := rfl
@[simp] theorem deactivate_clock (s : State) : (deactivate s).clock = s.clock := rfl
@[simp] theorem deactivate_params (s : State) : (deactivate s).params = s.params := rfl
@[simp] theorem deactivate_trace (s : State) : (deactivate s).trace = s.trace := rfl

end Sys2Proof.Machine
end

