-- ==== Sys2Proof/Laws/Ops.lean ====
section
/-! SUPPORT. One lemma for each shared operation of Machine/Ops.lean that says what it can do, and one that says when it
answers a next state. Later proofs cite these and do not unfold the operations. -/

namespace Sys2Proof.Machine

/-! ## Sequencing -/

@[simp] theorem andThen_next {α β : Type} (a : α) (f : α → Result β) : andThen (.next a) f = f a := rfl
@[simp] theorem andThen_fault {α β : Type} (r : Fault) (f : α → Result β) : andThen (.fault r) f = .fault r := rfl
@[simp] theorem andThen_refused {α β : Type} (r : Refusal) (f : α → Result β) : andThen (.refused r) f = .refused r := rfl

theorem andThen_assoc {α β γ : Type} (o : Result α) (f : α → Result β) (g : β → Result γ) :
    andThen (andThen o f) g = andThen o (fun a => andThen (f a) g) := by
  cases o <;> rfl

theorem andThen_eq_next {α β : Type} {o : Result α} {f : α → Result β} {b : β} :
    andThen o f = .next b ↔ ∃ a, o = .next a ∧ f a = .next b := by
  cases o <;> simp [andThen]

/-! ## Only time -/

theorem OnlyTime.refl (s : State) : OnlyTime s s := ⟨rfl, le_rfl, rfl, List.prefix_rfl⟩

theorem OnlyTime.trans {a b c : State} (h : OnlyTime a b) (k : OnlyTime b c) : OnlyTime a c := by
  obtain ⟨h1, h2, h3, h4⟩ := h
  obtain ⟨k1, k2, k3, k4⟩ := k
  refine ⟨?_, h2.trans k2, k3.trans h3, h4.trans k4⟩
  rw [k1, h1]

/-- An update that leaves the clock and the link alone may be made before or after time passes. -/
theorem OnlyTime.congr {s s' : State} (h : OnlyTime s s') (f : State → State)
    (hc : ∀ u, (f u).clock = u.clock) (hl : ∀ u, (f u).link = u.link)
    (hf : ∀ u c l, f { u with clock := c, link := l } = { f u with clock := c, link := l }) :
    OnlyTime (f s) (f s') := by
  obtain ⟨h1, h2, h3, h4⟩ := h
  refine ⟨?_, by rw [hc, hc]; exact h2, by simpa [stream, hl] using h3, by simpa [hl] using h4⟩
  rw [hc, hl, ← hf, ← h1]

/-! ## Arrivals -/

theorem arrive_spec {depth : Option Nat} {now : Nat} :
    ∀ {bs q : List RxByte} {l : Link}, arrive depth now q bs = some l →
      l.rxq ++ l.hostStream = q ++ bs ∧ q <+: l.rxq
  | [], q, l, h => by
    simp only [arrive, Option.some.injEq] at h
    subst h
    simp
  | b :: bs, q, l, h => by
    unfold arrive at h
    split at h
    · split at h
      · simp at h
      · obtain ⟨h1, h2⟩ := arrive_spec h
        exact ⟨by simpa using h1, (List.prefix_append q [b]).trans h2⟩
    · simp only [Option.some.injEq] at h
      subst h
      simp

/-- A delivery leaves no arrived byte outside the queue. -/
theorem arrive_head {depth : Option Nat} {now : Nat} :
    ∀ {bs q : List RxByte} {l : Link}, arrive depth now q bs = some l →
      ∀ b ∈ l.hostStream.head?, now < b.arrival
  | [], q, l, h => by
    simp only [arrive, Option.some.injEq] at h
    subst h
    simp
  | b :: bs, q, l, h => by
    unfold arrive at h
    split at h
    · split at h
      · simp at h
      · exact arrive_head h
    · rename_i hb
      simp only [Option.some.injEq] at h
      subst h
      simpa using hb

/-- A delivery never overfills the queue. -/
theorem arrive_bound {d now : Nat} :
    ∀ {bs q : List RxByte} {l : Link}, arrive (some d) now q bs = some l → q.length ≤ d → l.rxq.length ≤ d
  | [], q, l, h, hq => by
    simp only [arrive, Option.some.injEq] at h
    subst h
    simpa using hq
  | b :: bs, q, l, h, hq => by
    unfold arrive at h
    split at h
    · split at h
      · simp at h
      · rename_i hf
        refine arrive_bound h ?_
        simp only [queueFull, decide_eq_true_eq, not_le] at hf
        simpa using hf
    · simp only [Option.some.injEq] at h
      subst h
      simpa using hq

theorem arrive_room {depth : Option Nat} {now : Nat} :
    ∀ (bs q : List RxByte), (∀ d, depth = some d → q.length + bs.length ≤ d) → ∃ l, arrive depth now q bs = some l
  | [], q, _ => ⟨_, rfl⟩
  | b :: bs, q, hd => by
    unfold arrive
    split
    · have hf : queueFull depth q.length = false := by
        cases depth with
        | none => rfl
        | some d =>
          have := hd d rfl
          simp only [List.length_cons] at this
          simp only [queueFull, decide_eq_false_iff_not]
          omega
      rw [if_neg (by simp [hf])]
      refine arrive_room bs (q ++ [b]) fun d h => ?_
      have := hd d h
      simp only [List.length_cons, List.length_append, List.length_nil] at this ⊢
      omega
    · exact ⟨_, rfl⟩

theorem paced_iff (s : State) :
    Paced s ↔ ∀ d, s.params.rxFifoDepth = some d → s.link.rxq.length + s.link.hostStream.length ≤ d := by
  unfold Paced paced
  cases h : s.params.rxFifoDepth <;> simp

/-- The pacing premise depends on the parameters and on how many bytes the stream has. -/
theorem paced_mono {s s' : State} (h : Paced s) (hp : s'.params = s.params)
    (hl : (stream s').length ≤ (stream s).length) : Paced s' := by
  rw [paced_iff] at *
  intro d hd
  have := h d (hp ▸ hd)
  simp only [stream, List.length_append] at hl
  omega

theorem deliver_next {s s' : State} (h : deliver s = .next s') :
    OnlyTime s s' ∧ s'.clock = s.clock ∧ (∀ b ∈ s'.link.hostStream.head?, s.clock.t < b.arrival) := by
  unfold deliver at h
  split at h
  · rename_i l hl
    simp only [Host.Outcome.next.injEq] at h
    subst h
    obtain ⟨h1, h2⟩ := arrive_spec hl
    exact ⟨⟨rfl, le_rfl, h1, h2⟩, rfl, arrive_head hl⟩
  · simp at h

theorem deliver_completes {s : State} (h : Paced s) : ∃ s', deliver s = .next s' := by
  obtain ⟨l, hl⟩ := arrive_room (now := s.clock.t) s.link.hostStream s.link.rxq ((paced_iff s).1 h)
  exact ⟨_, by unfold deliver; rw [hl]⟩

theorem clockAfter_t (us : Nat) (c : Clock) : c.t + us ≤ (clockAfter us c).t := by
  unfold clockAfter
  split <;> simp

theorem pass_next {us : Nat} {s s' : State} (h : pass us s = .next s') :
    OnlyTime s s' ∧ s.clock.t + us ≤ s'.clock.t := by
  obtain ⟨h1, h2, -⟩ := deliver_next h
  have ht := clockAfter_t us s.clock
  refine ⟨⟨h1.rest, ?_, h1.kept, h1.queued⟩, ?_⟩ <;> rw [h2] <;> simp only <;> omega

theorem pass_completes {us : Nat} {s : State} (h : Paced s) :
    ∃ s', pass us s = .next s' ∧ OnlyTime s s' ∧ s.clock.t + us ≤ s'.clock.t := by
  obtain ⟨s', hs⟩ := deliver_completes (s := { s with clock := clockAfter us s.clock }) h
  exact ⟨s', hs, pass_next hs⟩

theorem elapse_next {s s' : State} (h : elapse s = .next s') : OnlyTime s s' := (pass_next h).1

theorem elapse_completes {s : State} (h : Paced s) : ∃ s', elapse s = .next s' ∧ OnlyTime s s' := by
  obtain ⟨s', h1, h2, -⟩ := pass_completes (us := 0) h
  exact ⟨s', h1, h2⟩

theorem clockUntil_t (limit : Nat) (c : Clock) : c.t ≤ (clockUntil limit c).t ∧ (clockUntil limit c).t ≤ max c.t limit := by
  simp only [clockUntil]
  omega

/-- What the time of an operation that ends by `limit` can do. -/
theorem elapseUntil_next {limit : Nat} {s s' : State} (h : elapseUntil limit s = .next s') :
    OnlyTime s s' ∧ s'.clock.t ≤ max s.clock.t limit := by
  obtain ⟨h1, h2, -⟩ := deliver_next h
  obtain ⟨t1, t2⟩ := clockUntil_t limit s.clock
  exact ⟨⟨h1.rest, by rw [h2]; exact t1, h1.kept, h1.queued⟩, by rw [h2]; exact t2⟩

theorem elapseUntil_completes {limit : Nat} {s : State} (h : Paced s) :
    ∃ s', elapseUntil limit s = .next s' ∧ OnlyTime s s' ∧ s'.clock.t ≤ max s.clock.t limit := by
  obtain ⟨s', hs⟩ := deliver_completes (s := { s with clock := clockUntil limit s.clock }) h
  exact ⟨s', hs, elapseUntil_next hs⟩

theorem OnlyTime.paced {s s' : State} (h : OnlyTime s s') (hp : Paced s) : Paced s' :=
  paced_mono hp (by rw [h.rest]) (by rw [h.kept])

/-! ## Diagnostics -/

theorem OnlyDiagnostic.of_time {s s' : State} (h : OnlyTime s s') : OnlyDiagnostic s s' := by
  have htx : s'.tx = s.tx := by rw [h.rest]
  exact ⟨by rw [htx]; exact h, by rw [htx]⟩

theorem diagnostic_next {s s' : State} (h : diagnostic s = .next s') : OnlyDiagnostic s s' := by
  have h1 := elapse_next h
  have htx : s'.tx = { txq := s.tx.txq ++ Config.diagText s.tx.draws, draws := s.tx.draws + 1 } := by rw [h1.rest]
  exact ⟨by rw [htx]; exact h1, by rw [htx]; exact List.prefix_append _ _⟩

theorem diagnostic_completes {s : State} (h : Paced s) : ∃ s', diagnostic s = .next s' ∧ OnlyDiagnostic s s' := by
  obtain ⟨s', h1, -⟩ := elapse_completes
    (s := { s with tx := { txq := s.tx.txq ++ Config.diagText s.tx.draws, draws := s.tx.draws + 1 } }) h
  exact ⟨s', h1, diagnostic_next h1⟩

theorem OnlyDiagnostic.paced {s s' : State} (h : OnlyDiagnostic s s') (hp : Paced s) : Paced s' :=
  h.time.paced hp

theorem OnlyDiagnostic.trans {a b c : State} (h : OnlyDiagnostic a b) (k : OnlyDiagnostic b c) :
    OnlyDiagnostic a c := by
  refine ⟨?_, h.grown.trans (by simpa using k.grown)⟩
  have h1 : OnlyTime { a with tx := c.tx } { b with tx := c.tx } :=
    h.time.congr (fun u => { u with tx := c.tx }) (fun _ => rfl) (fun _ => rfl) (fun _ _ _ => rfl)
  exact h1.trans k.time

/-! ## The abort sequence and the end of a command -/

/-- What an abort can do: its writes, a diagnostic, and the return to the main loop. -/
theorem raiseError_next {e : ErrorKind} {cmd : CommandKind} {s s' : State} (h : raiseError e cmd s = .next s') :
    OnlyDiagnostic (returnToLoop (abortWrites e cmd s)) s' := by
  obtain ⟨u, hu, h⟩ := andThen_eq_next.1 h
  simp only [Host.Outcome.next.injEq] at h
  subst h
  obtain ⟨ht, hg⟩ := diagnostic_next hu
  exact ⟨ht.congr returnToLoop (fun _ => rfl) (fun _ => rfl) (fun _ _ _ => rfl), hg⟩

theorem raiseError_completes (e : ErrorKind) (cmd : CommandKind) {s : State} (h : Paced s) :
    ∃ s', raiseError e cmd s = .next s' ∧ OnlyDiagnostic (returnToLoop (abortWrites e cmd s)) s' := by
  have hp : Paced (abortWrites e cmd s) := by
    refine paced_mono h ?_ ?_ <;> cases cmd <;> try rfl
    all_goals simp only [abortWrites, clearAnimation, atomically, renderOnAbort]; split <;> rfl
  obtain ⟨u, hu, -⟩ := diagnostic_completes hp
  have hr : raiseError e cmd s = .next (returnToLoop u) := by simp [raiseError, hu]
  exact ⟨_, hr, raiseError_next hr⟩

/-- What the end of a valid command can do: its commit, a diagnostic, and the return to the main loop. -/
theorem finishCommand_next {commit : State → State} {s s' : State} (h : finishCommand commit s = .next s') :
    OnlyDiagnostic (returnToLoop (commit (setRxstate .commit s))) s' := by
  obtain ⟨u, hu, h⟩ := andThen_eq_next.1 h
  obtain ⟨v, hv, h⟩ := andThen_eq_next.1 h
  simp only [Host.Outcome.next.injEq] at h
  subst h
  obtain ⟨ht, hg⟩ := (OnlyDiagnostic.of_time (elapse_next hu)).trans (diagnostic_next hv)
  exact ⟨ht.congr returnToLoop (fun _ => rfl) (fun _ => rfl) (fun _ _ _ => rfl), hg⟩

theorem finishCommand_completes {commit : State → State} {s : State} (h : Paced (commit (setRxstate .commit s))) :
    ∃ s', finishCommand commit s = .next s' ∧
      OnlyDiagnostic (returnToLoop (commit (setRxstate .commit s))) s' := by
  obtain ⟨u, hu, hut⟩ := elapse_completes h
  obtain ⟨v, hv, -⟩ := diagnostic_completes (hut.paced h)
  have hf : finishCommand commit s = .next (returnToLoop v) := by simp [finishCommand, hu, hv]
  exact ⟨_, hf, finishCommand_next hf⟩

end Sys2Proof.Machine
end

