-- ==== Sys2Proof/Laws/Chain.lean ====
section
/-! SUPPORT. What SHIFTs and a LATCH do to the chain (42_display_scanner R181 to R186): the word after sixteen SHIFTs does
not depend on the word before them. -/

namespace Sys2Proof.Machine

/-- The chain after SHIFTs of the listed bits, in order. -/
def chainBits (bits : List Bool) (c : Chain) : Chain := bits.foldl (fun c d => chainShift d c) c

theorem chainBits_cons (d : Bool) (bits : List Bool) (c : Chain) :
    chainBits (d :: bits) c = chainBits bits (chainShift d c) := rfl

theorem chainBits_concat (bits : List Bool) (d : Bool) (c : Chain) :
    chainBits (bits ++ [d]) c = chainShift d (chainBits bits c) := by
  simp [chainBits]

/-- The newest bit stands in stage 0, each older one a stage higher. -/
theorem chainBits_sr (c : Chain) : ∀ (bits : List Bool) (i : Nat), i < 16 →
    (chainBits bits c).sr.getLsbD i = (bits.reverse[i]?).getD (c.sr.getLsbD (i - bits.length)) := by
  intro bits
  induction bits using List.reverseRecOn with
  | nil => intro i _; rfl
  | append_singleton bits d ih =>
    intro i hi
    rw [chainBits_concat, List.reverse_append]
    cases i with
    | zero => simp [chainShift]
    | succ i =>
      have := ih i (by omega)
      simp only [chainShift, BitVec.getLsbD_concat_succ, BitVec.getLsbD_setWidth, show i < 15 by omega, decide_true,
        Bool.true_and, this]
      simp

theorem chainBits_lines (d : Bool) : ∀ (bits : List Bool) (c : Chain),
    (chainBits (d :: bits) c).srclk = false ∧ (chainBits (d :: bits) c).rclk = c.rclk ∧
      (chainBits (d :: bits) c).out = c.out := by
  intro bits
  induction bits generalizing d with
  | nil => intro c; exact ⟨rfl, rfl, rfl⟩
  | cons e bits ih => intro c; exact ih e (chainShift d c)

theorem bitrev8_getLsbD (c : Byte) : ∀ i, i < 8 → (bitrev8 c).getLsbD i = c.getLsbD (7 - i) := by
  intro i hi
  have : i = 0 ∨ i = 1 ∨ i = 2 ∨ i = 3 ∨ i = 4 ∨ i = 5 ∨ i = 6 ∨ i = 7 := by omega
  rcases this with rfl | rfl | rfl | rfl | rfl | rfl | rfl | rfl <;>
    simp only [bitrev8, BitVec.getLsbD_append, BitVec.getLsbD_ofBool] <;> simp

/-- Sixteen SHIFTs of a pair's bits leave the pair's word (20 R63, R64). -/
theorem chainBits_pair (order : ShiftOrder) (v : Byte) (row : RowIndex) (c : Chain) :
    (chainBits (pairBits order v row) c).sr = pairWord order v row := by
  refine BitVec.eq_of_getLsbD_eq fun i hi => ?_
  rw [chainBits_sr c _ i hi]
  have : i = 0 ∨ i = 1 ∨ i = 2 ∨ i = 3 ∨ i = 4 ∨ i = 5 ∨ i = 6 ∨ i = 7 ∨ i = 8 ∨ i = 9 ∨ i = 10 ∨ i = 11 ∨ i = 12 ∨
    i = 13 ∨ i = 14 ∨ i = 15 := by omega
  cases order <;> rcases this with rfl | rfl | rfl | rfl | rfl | rfl | rfl | rfl | rfl | rfl | rfl | rfl | rfl | rfl |
      rfl | rfl <;>
    simp only [pairBits, pairWord, rowWord, lsbFirst, msbFirst, BitVec.getLsbD_append] <;>
    simp [-BitVec.getLsbD_eq_getElem, bitrev8_getLsbD]

/-- Sixteen zero SHIFTs leave zero (42 R186). -/
theorem chainBits_zero (c : Chain) : (chainBits (List.replicate 16 false) c).sr = 0 := by
  refine BitVec.eq_of_getLsbD_eq fun i hi => ?_
  rw [chainBits_sr c _ i hi]
  simp only [List.reverse_replicate, List.getElem?_replicate, hi, if_true]
  simp

/-! ## SHIFTs and a LATCH as operations -/

theorem shiftBits_next : ∀ {bits : List Bool} {s s' : State}, shiftBits bits s = .next s' →
    OnlyTime { s with chain := chainBits bits s.chain } s'
  | [], s, s', h => by
    simp only [shiftBits, Host.Outcome.next.injEq] at h
    subst h
    exact OnlyTime.refl s
  | d :: bits, s, s', h => by
    obtain ⟨u, hu, h⟩ := andThen_eq_next.1 h
    have h1 := elapse_next hu
    have h2 := shiftBits_next h
    have hc : u.chain = chainShift d s.chain := by rw [h1.rest]
    rw [hc] at h2
    exact (h1.congr (fun v => { v with chain := chainBits bits (chainShift d s.chain) }) (fun _ => rfl) (fun _ => rfl)
      (fun _ _ _ => rfl)).trans h2

/-- What `MemWrite(OUTW, …)` can do: the sixteen bits into the chain, and one LATCH of them (42 R181). -/
theorem outputBits_next {bits : List Bool} {s s' : State} (h : outputBits bits s = .next s') :
    ∃ τ, s.clock.t ≤ τ ∧ τ ≤ s'.clock.t ∧
      OnlyTime
        { s with
          chain := chainLatch (chainBits bits s.chain)
          trace := .latched (chainBits bits s.chain).sr τ :: s.trace } s' := by
  obtain ⟨u, hu, h⟩ := andThen_eq_next.1 h
  have h1 := shiftBits_next hu
  have h2 := elapse_next h
  have hc : u.chain = chainBits bits s.chain := by rw [h1.rest]
  refine ⟨u.clock.t, h1.forward, h2.forward, ?_⟩
  rw [hc] at h2
  exact (h1.congr
    (fun v =>
      { v with
        chain := chainLatch (chainBits bits s.chain)
        trace := .latched (chainBits bits s.chain).sr u.clock.t :: v.trace })
    (fun _ => rfl) (fun _ => rfl) (fun _ _ _ => rfl)).trans h2

theorem shiftBits_completes : ∀ (bits : List Bool) {s : State}, Paced s → ∃ s', shiftBits bits s = .next s'
  | [], s, _ => ⟨s, rfl⟩
  | d :: bits, s, h => by
    obtain ⟨u, hu, ht⟩ := elapse_completes (s := { s with chain := chainShift d s.chain }) h
    obtain ⟨v, hv⟩ := shiftBits_completes bits (ht.paced h)
    exact ⟨v, by rw [shiftBits, shiftBit, hu]; exact hv⟩

theorem outputBits_completes (bits : List Bool) {s : State} (h : Paced s) : ∃ s', outputBits bits s = .next s' := by
  obtain ⟨u, hu⟩ := shiftBits_completes bits h
  obtain ⟨v, hv, -⟩ := elapse_completes
    (s := note (.latched u.chain.sr u.clock.t) { u with chain := chainLatch u.chain }) ((shiftBits_next hu).paced h)
  exact ⟨v, by rw [outputBits, hu]; exact hv⟩

theorem chainLatch_pair (order : ShiftOrder) (v : Byte) (row : RowIndex) (c : Chain) :
    ∃ d, chainLatch (chainBits (pairBits order v row) c) =
      { sr := pairWord order v row, out := pairWord order v row, ser := d, srclk := false, rclk := false } := by
  refine ⟨(chainBits (pairBits order v row) c).ser, ?_⟩
  have hl : (chainBits (pairBits order v row) c).srclk = false := by
    cases order <;> exact (chainBits_lines _ _ c).1
  simp [chainLatch, chainBits_pair, hl]

theorem chainLatch_zero (c : Chain) :
    chainLatch (chainBits (List.replicate 16 false) c) =
      { sr := 0, out := 0, ser := false, srclk := false, rclk := false } := by
  simp only [chainLatch, chainBits_zero]
  rfl

/-- What ROW_ACTIVATE and ASSERT can do: the chain and the outputs hold the pair's word, after one LATCH. -/
theorem outputPair_next {order : ShiftOrder} {v : Byte} {row : RowIndex} {s s' : State}
    (h : outputBits (pairBits order v row) s = .next s') :
    ∃ τ, s.clock.t ≤ τ ∧ τ ≤ s'.clock.t ∧
      OnlyTime
        { s with
          chain :=
            { sr := pairWord order v row, out := pairWord order v row, ser := s'.chain.ser, srclk := false,
              rclk := false }
          trace := .latched (pairWord order v row) τ :: s.trace } s' := by
  obtain ⟨τ, h1, h2, h3⟩ := outputBits_next h
  obtain ⟨d, hd⟩ := chainLatch_pair order v row s.chain
  rw [hd, chainBits_pair] at h3
  have hs : s'.chain.ser = d := by rw [h3.rest]
  exact ⟨τ, h1, h2, by rw [hs]; exact h3⟩

/-- What BLANK can do: the chain and the outputs hold the zero word, after one LATCH. -/
theorem blankOutputs_next {s s' : State} (h : blankOutputs s = .next s') :
    ∃ τ, s.clock.t ≤ τ ∧ τ ≤ s'.clock.t ∧
      OnlyTime
        { s with
          chain := { sr := 0, out := 0, ser := false, srclk := false, rclk := false }
          trace := .latched 0 τ :: s.trace } s' := by
  obtain ⟨τ, h1, h2, h3⟩ := outputBits_next h
  rw [chainLatch_zero, chainBits_zero] at h3
  exact ⟨τ, h1, h2, h3⟩

end Sys2Proof.Machine
end

