-- ==== Sys2Proof/Laws/Reading.lean ====
section
/-! SUPPORT. What the deadline-bounded read and the reception of a command can do (40_serial_protocol_receiver R121 to
R124), and what they do where the bytes are already queued. -/

namespace Sys2Proof.Machine

/-! ## Only reception -/

theorem OnlyReception.refl (s : State) : OnlyReception s s := ⟨rfl, le_rfl, [], rfl⟩

theorem OnlyReception.trans {a b c : State} (h : OnlyReception a b) (k : OnlyReception b c) : OnlyReception a c := by
  obtain ⟨h1, h2, x, hx⟩ := h
  obtain ⟨k1, k2, y, hy⟩ := k
  refine ⟨?_, h2.trans k2, x ++ y, by rw [hx, hy, List.append_assoc]⟩
  rw [k1, h1]

theorem OnlyReception.of_time {s s' : State} (h : OnlyTime s s') : OnlyReception s s' := by
  refine ⟨?_, h.forward, [], by simp [h.kept]⟩
  rw [h.rest]

theorem OnlyReception.paced {s s' : State} (h : OnlyReception s s') (hp : Paced s) : Paced s' := by
  obtain ⟨bs, hbs⟩ := h.taken
  exact paced_mono hp (by rw [h.rest]) (by rw [hbs]; simp)

/-- Writes of the receiver's own state are reception. -/
theorem onlyReception_writes (s : State) (rx : Receiver) (r : RxState) :
    OnlyReception s { s with rx := rx, seq.rxstate := r } := ⟨rfl, le_rfl, [], rfl⟩

/-! ## The wait for one byte -/

theorem removeOldest_eq_some {s s' : State} {b : Byte} (h : removeOldest s = some (b, s')) :
    ∃ a, s.link.rxq = ⟨a, b⟩ :: s'.link.rxq ∧ s' = { s with link.rxq := s'.link.rxq } := by
  unfold removeOldest at h
  split at h
  · simp at h
  · rename_i x q hq
    simp only [Option.some.injEq, Prod.mk.injEq] at h
    obtain ⟨rfl, rfl⟩ := h
    exact ⟨x.arrival, hq, rfl⟩

/-- POLL and `ReadBytes` find a byte exactly where `rx_avail` says so (10 R32). -/
theorem removeOldest_isSome (s : State) : (removeOldest s).isSome = rxAvail s := by
  unfold removeOldest rxAvail
  cases s.link.rxq <;> rfl

theorem removeOldest_stream {s s' : State} {b : Byte} (h : removeOldest s = some (b, s')) :
    OnlyReception s s' ∧ s'.rx = s.rx ∧ s'.seq = s.seq ∧ s'.clock = s.clock ∧
      ∃ a, stream s = ⟨a, b⟩ :: stream s' := by
  obtain ⟨a, ha, hs⟩ := removeOldest_eq_some h
  have hst : stream s = ⟨a, b⟩ :: stream s' := by
    rw [stream, ha, hs]
    simp [stream]
  refine ⟨⟨?_, ?_, [⟨a, b⟩], hst⟩, ?_, ?_, ?_, a, hst⟩ <;> rw [hs]

/-- What the wait for one byte can do: take the oldest byte of the stream, or let time pass. -/
theorem awaitByte_next {s s' : State} {r : Option Byte} (h : awaitByte s = .next (r, s')) :
    OnlyReception s s' ∧ s'.rx = s.rx ∧ s'.seq = s.seq ∧
      (∀ b, r = some b → ∃ a, stream s = ⟨a, b⟩ :: stream s') ∧ (r = none → stream s' = stream s) := by
  unfold awaitByte at h
  obtain ⟨u, hu, h⟩ := andThen_eq_next.1 h
  obtain ⟨ht, -, -⟩ := deliver_next hu
  have hrx : u.rx = s.rx := by rw [ht.rest]
  have hseq : u.seq = s.seq := by rw [ht.rest]
  have ho := OnlyReception.of_time ht
  have late : ∀ t, u.clock.t ≤ t → OnlyReception s (setTime t u) := fun t hle =>
    ho.trans ⟨rfl, hle, [], rfl⟩
  split at h
  · rename_i b v hv
    simp only [Host.Outcome.next.injEq, Prod.mk.injEq] at h
    obtain ⟨rfl, rfl⟩ := h
    obtain ⟨h1, h2, h3, -, a, h4⟩ := removeOldest_stream hv
    exact ⟨ho.trans h1, h2.trans hrx, h3.trans hseq, fun c hc => by cases hc; exact ⟨a, by rw [← ht.kept, h4]⟩,
      by simp⟩
  · split at h
    · simp only [Host.Outcome.next.injEq, Prod.mk.injEq] at h
      obtain ⟨rfl, rfl⟩ := h
      exact ⟨late _ (le_max_left _ _), hrx, hseq, by simp, fun _ => ht.kept⟩
    · split at h
      · obtain ⟨v, hv, h⟩ := andThen_eq_next.1 h
        obtain ⟨kt, -, -⟩ := deliver_next hv
        have ko := (late _ (le_max_left _ _)).trans (OnlyReception.of_time kt)
        have kx : v.rx = s.rx := by rw [kt.rest]; exact hrx
        have kq : v.seq = s.seq := by rw [kt.rest]; exact hseq
        have ks : stream v = stream s := kt.kept.trans ht.kept
        split at h
        · rename_i b w hw
          simp only [Host.Outcome.next.injEq, Prod.mk.injEq] at h
          obtain ⟨rfl, rfl⟩ := h
          obtain ⟨h1, h2, h3, -, a, h4⟩ := removeOldest_stream hw
          exact ⟨ko.trans h1, h2.trans kx, h3.trans kq, fun c hc => by cases hc; exact ⟨a, by rw [← ks, h4]⟩, by simp⟩
        · simp only [Host.Outcome.next.injEq, Prod.mk.injEq] at h
          obtain ⟨rfl, rfl⟩ := h
          exact ⟨ko, kx, kq, by simp, fun _ => ks⟩
      · simp only [Host.Outcome.next.injEq, Prod.mk.injEq] at h
        obtain ⟨rfl, rfl⟩ := h
        exact ⟨late _ (le_max_left _ _), hrx, hseq, by simp, fun _ => ht.kept⟩

/-- The wait ends by the deadline, unless the deadline was past when it began. -/
theorem awaitByte_clock {s s' : State} {r : Option Byte} (h : awaitByte s = .next (r, s')) :
    s'.clock.t ≤ max s.clock.t (readDeadline s) := by
  unfold awaitByte at h
  obtain ⟨u, hu, h⟩ := andThen_eq_next.1 h
  obtain ⟨ht, hc, -⟩ := deliver_next hu
  have hd : readDeadline u = readDeadline s := by rw [ht.rest]; rfl
  have late : max u.clock.t (readDeadline u) ≤ max s.clock.t (readDeadline s) := by rw [hd, hc]
  split at h
  · rename_i hv
    cases h
    rw [(removeOldest_stream hv).2.2.2.1, hc]
    exact le_max_left _ _
  · split at h
    · cases h
      exact late
    · split at h
      · rename_i b _ _ hb
        obtain ⟨v, hv, h⟩ := andThen_eq_next.1 h
        have ht : v.clock.t ≤ max s.clock.t (readDeadline s) := by
          rw [(deliver_next hv).2.1]
          exact (max_le (le_max_left _ _) hb).trans late
        split at h
        · rename_i hw
          cases h
          rw [(removeOldest_stream hw).2.2.2.1]
          exact ht
        · cases h
          exact ht
      · cases h
        exact late

theorem awaitByte_completes {s : State} (h : Paced s) : ∃ r s', awaitByte s = .next (r, s') := by
  obtain ⟨u, hu⟩ := deliver_completes h
  obtain ⟨ht, -, -⟩ := deliver_next hu
  unfold awaitByte
  rw [hu, andThen_next]
  split
  · exact ⟨_, _, rfl⟩
  · split
    · exact ⟨_, _, rfl⟩
    · split
      · obtain ⟨v, hv⟩ := deliver_completes (s := setTime (max u.clock.t _) u) (ht.paced h)
        rw [hv, andThen_next]
        split <;> exact ⟨_, _, rfl⟩
      · exact ⟨_, _, rfl⟩

/-- A byte already queued is taken at once. -/
theorem awaitByte_queued {s : State} {b : Byte} {bs : List Byte} (h : Paced s) (hq : b :: bs <+: queuedBytes s) :
    ∃ s', awaitByte s = .next (some b, s') ∧ bs <+: queuedBytes s' ∧ stream s' = (stream s).drop 1 := by
  obtain ⟨u, hu⟩ := deliver_completes h
  obtain ⟨ht, -, -⟩ := deliver_next hu
  have hq' : b :: bs <+: queuedBytes u := hq.trans (ht.queued.map _)
  unfold awaitByte
  rw [hu, andThen_next]
  unfold removeOldest
  unfold queuedBytes at hq'
  cases hr : u.link.rxq with
  | nil => simp [hr] at hq'
  | cons x q =>
    rw [hr, List.map_cons, List.cons_prefix_cons] at hq'
    obtain ⟨rfl, hq'⟩ := hq'
    exact ⟨_, rfl, by simpa [queuedBytes] using hq', by rw [← ht.kept]; simp [stream, hr]⟩

/-! ## ReadBytes -/

theorem restartRead_spec (s : State) :
    OnlyReception s (restartRead s) ∧ (restartRead s).rx.stage = s.rx.stage ∧ (restartRead s).seq = s.seq ∧
      (restartRead s).link = s.link := by
  unfold restartRead
  split
  · exact ⟨OnlyReception.refl s, rfl, rfl, rfl⟩
  · exact ⟨onlyReception_writes s _ s.seq.rxstate, rfl, rfl, rfl⟩

/-- What the loop can do: take its `k` bytes and return them after `got`, or take fewer and return `Timeout`. -/
theorem readLoop_next : ∀ {k : Nat} {got : List Byte} {limit : Nat} {s s' : State}, readLoop k got limit s = .next s' →
    OnlyReception s s' ∧ s'.rx.stage = s.rx.stage ∧ s'.seq = s.seq ∧
      ((∃ bs, s'.rx.lastRead = .ok (got ++ bs) ∧ bs.length = k ∧
          bs ++ (stream s').map RxByte.byte = (stream s).map RxByte.byte) ∨
        (s'.rx.lastRead = .timeout ∧ ∃ bs, bs.length < k ∧ bs ++ stream s' = stream s))
  | 0, got, limit, s, s', h => by
    have ht := (elapseUntil_next h).1
    refine ⟨(onlyReception_writes s _ s.seq.rxstate).trans (OnlyReception.of_time ht), by rw [ht.rest], by rw [ht.rest],
      .inl ⟨[], by rw [ht.rest]; simp, rfl, by rw [ht.kept]; rfl⟩⟩
  | k + 1, got, limit, s, s', h => by
    unfold readLoop at h
    obtain ⟨⟨r, u⟩, hu, h⟩ := andThen_eq_next.1 h
    obtain ⟨r1, r2, r3, r4⟩ := restartRead_spec s
    have hstream : stream (restartRead s) = stream s := by rw [stream, stream, r4]
    obtain ⟨h1, h2, h3, h4, h5⟩ := awaitByte_next hu
    rw [hstream] at h4 h5
    cases r with
    | none =>
      simp only [Host.Outcome.next.injEq] at h
      subst h
      exact ⟨(r1.trans h1).trans (onlyReception_writes u _ u.seq.rxstate), by rw [← r2, ← h2], h3.trans r3,
        .inr ⟨rfl, [], by simp, h5 rfl⟩⟩
    | some b =>
      obtain ⟨a, ha⟩ := h4 b rfl
      obtain ⟨k1, k2, k3, k4⟩ := readLoop_next h
      refine ⟨(r1.trans h1).trans k1, by rw [k2, h2, r2], by rw [k3, h3, r3], ?_⟩
      rcases k4 with ⟨bs, e1, e2, e3⟩ | ⟨e1, bs, e2, e3⟩
      · refine .inl ⟨b :: bs, by rw [e1]; simp, by simp [e2], ?_⟩
        rw [List.cons_append, e3, ha]
        rfl
      · refine .inr ⟨e1, ⟨a, b⟩ :: bs, by simp [e2], ?_⟩
        rw [List.cons_append, e3, ha]

theorem readBytes_next {k : Nat} {s s' : State} (h : readBytes k s = .next s') :
    OnlyReception s s' ∧ s'.rx.stage = s.rx.stage ∧ s'.seq = s.seq ∧
      ((∃ bs, s'.rx.lastRead = .ok bs ∧ bs.length = k ∧
          bs ++ (stream s').map RxByte.byte = (stream s).map RxByte.byte) ∨
        (s'.rx.lastRead = .timeout ∧ ∃ bs, bs.length < k ∧ bs ++ stream s' = stream s)) := by
  obtain ⟨h1, h2, h3, h4⟩ := readLoop_next h
  exact ⟨(onlyReception_writes s _ s.seq.rxstate).trans h1, h2, h3, by simpa [stream] using h4⟩

theorem readLoop_completes : ∀ (k : Nat) (got : List Byte) (limit : Nat) {s : State}, Paced s →
    ∃ s', readLoop k got limit s = .next s'
  | 0, got, limit, s, h => by
    obtain ⟨s', h1, -⟩ := elapseUntil_completes (limit := limit) (s := { s with rx.lastRead := .ok got }) h
    exact ⟨s', h1⟩
  | k + 1, got, limit, s, h => by
    obtain ⟨r, u, hu⟩ := awaitByte_completes ((restartRead_spec s).1.paced h)
    have hp := ((restartRead_spec s).1.trans (awaitByte_next hu).1).paced h
    unfold readLoop
    rw [hu, andThen_next]
    cases r with
    | none => exact ⟨_, rfl⟩
    | some b => exact readLoop_completes k _ _ hp

theorem readBytes_completes (k : Nat) {s : State} (h : Paced s) : ∃ s', readBytes k s = .next s' :=
  readLoop_completes k [] (readLimit s) (s := { s with rx.readStartMs := nowMs s }) h

/-- Bytes already queued are returned at once, in order. -/
theorem readLoop_queued : ∀ {bs : List Byte} (got rest : List Byte) (limit : Nat) {s : State}, Paced s →
    bs ++ rest <+: queuedBytes s →
    ∃ s', readLoop bs.length got limit s = .next s' ∧ s'.rx.lastRead = .ok (got ++ bs) ∧
      rest <+: queuedBytes s' ∧ stream s' = (stream s).drop bs.length
  | [], got, rest, limit, s, h, hq => by
    obtain ⟨s', h1, h2, -⟩ := elapseUntil_completes (limit := limit) (s := { s with rx.lastRead := .ok got }) h
    refine ⟨s', h1, by rw [h2.rest]; simp, ?_, by rw [h2.kept]; simp [stream]⟩
    exact (show rest <+: queuedBytes s by simpa using hq).trans (h2.queued.map _)
  | b :: bs, got, rest, limit, s, h, hq => by
    obtain ⟨r1, -, -, r4⟩ := restartRead_spec s
    obtain ⟨u, hu, hq1, hs1⟩ := awaitByte_queued (r1.paced h) (show b :: (bs ++ rest) <+: queuedBytes (restartRead s) by
      simpa [queuedBytes, r4] using hq)
    have hp := (r1.trans (awaitByte_next hu).1).paced h
    obtain ⟨s', h1, h2, h3, h4⟩ := readLoop_queued (bs := bs) (got ++ [b]) rest (attemptLimit limit s) hp hq1
    refine ⟨s', ?_, by rw [h2]; simp, h3, ?_⟩
    · rw [List.length_cons, readLoop, hu]
      exact h1
    · rw [h4, hs1, show stream (restartRead s) = stream s by rw [stream, stream, r4], List.drop_drop, List.length_cons,
        Nat.add_comm]

theorem readBytes_queued {bs rest : List Byte} {k : Nat} {s : State} (h : Paced s)
    (hq : bs ++ rest <+: queuedBytes s) (hk : bs.length = k) :
    ∃ s', readBytes k s = .next s' ∧ s'.rx.lastRead = .ok bs ∧ rest <+: queuedBytes s' ∧
      stream s' = (stream s).drop k := by
  subst hk
  exact readLoop_queued (bs := bs) [] rest (readLimit s) (s := { s with rx.readStartMs := nowMs s }) h hq

/-! ## A call of the receiver and the time after it -/

theorem readOperand_next {k : Nat} {s s' : State} (h : readOperand k s = .next s') :
    OnlyReception s s' ∧ s'.rx.stage = s.rx.stage ∧ s'.seq = s.seq := by
  obtain ⟨u, hu, h⟩ := andThen_eq_next.1 h
  obtain ⟨h1, h2, h3, -⟩ := readBytes_next hu
  have ht := elapse_next h
  exact ⟨h1.trans (OnlyReception.of_time ht), by rw [ht.rest]; exact h2, by rw [ht.rest]; exact h3⟩

theorem readOperand_completes (k : Nat) {s : State} (h : Paced s) : ∃ s', readOperand k s = .next s' := by
  obtain ⟨u, hu⟩ := readBytes_completes k h
  obtain ⟨v, hv, -⟩ := elapse_completes ((readBytes_next hu).1.paced h)
  exact ⟨v, by rw [readOperand, hu]; exact hv⟩

theorem readOperand_queued {bs rest : List Byte} {k : Nat} {s : State} (h : Paced s)
    (hq : bs ++ rest <+: queuedBytes s) (hk : bs.length = k) :
    ∃ s', readOperand k s = .next s' ∧ s'.rx.lastRead = .ok bs ∧ rest <+: queuedBytes s' ∧
      stream s' = (stream s).drop k := by
  obtain ⟨u, hu, h1, h2, h3⟩ := readBytes_queued h hq hk
  obtain ⟨v, hv, ht⟩ := elapse_completes ((readBytes_next hu).1.paced h)
  exact ⟨v, by rw [readOperand, hu]; exact hv, by rw [ht.rest]; exact h1, h2.trans (ht.queued.map _),
    by rw [ht.kept]; exact h3⟩

end Sys2Proof.Machine
end

