-- ==== Sys2Proof/Laws/Reception.lean ====
section
/-! SUPPORT. What the reception of a command can do, and that a command whose bytes are all queued is received whole
(40_serial_protocol_receiver R120, R124 to R128). -/

namespace Sys2Proof.Machine

/-! ## What reception can do -/

theorem stageRead_spec (s : State) :
    OnlyReception s (stageRead s) ∧ (stageRead s).seq = s.seq ∧ (stageRead s).link = s.link ∧
      (stageRead s).rx.lastRead = s.rx.lastRead := by
  unfold stageRead
  split
  · exact ⟨onlyReception_writes s _ s.seq.rxstate, rfl, rfl, rfl⟩
  · exact ⟨OnlyReception.refl s, rfl, rfl, rfl⟩

theorem readPayload_next {k : Nat} {s s' : State} (h : readPayload k s = .next s') : OnlyReception s s' := by
  obtain ⟨u, hu, h⟩ := andThen_eq_next.1 h
  simp only [Host.Outcome.next.injEq] at h
  subst h
  exact (readOperand_next hu).1.trans (stageRead_spec u).1

theorem readPayload_completes (k : Nat) {s : State} (h : Paced s) : ∃ s', readPayload k s = .next s' := by
  obtain ⟨u, hu⟩ := readOperand_completes k h
  exact ⟨_, by rw [readPayload, hu]; rfl⟩

theorem ifRead_next {f : State → Result State} {s s' : State} (h : ifRead f s = .next s') :
    (∃ bs, s.rx.lastRead = .ok bs ∧ f s = .next s') ∨ (s.rx.lastRead = .timeout ∧ s' = s) := by
  unfold ifRead at h
  split at h
  · rename_i bs hb
    exact .inl ⟨bs, hb, h⟩
  · rename_i hb
    simp only [Host.Outcome.next.injEq] at h
    exact .inr ⟨hb, h.symm⟩

theorem ifRead_completes {f : State → Result State} {s : State} (h : ∃ s', f s = .next s') :
    ∃ s', ifRead f s = .next s' := by
  unfold ifRead
  split
  · exact h
  · exact ⟨s, rfl⟩

theorem readEndMarker_next {s s' : State} (h : readEndMarker s = .next s') : OnlyReception s s' :=
  (onlyReception_writes s s.rx .readingEndMarker).trans (readOperand_next h).1

theorem readEndMarker_completes {s : State} (h : Paced s) : ∃ s', readEndMarker s = .next s' :=
  readOperand_completes 1 (s := setRxstate .readingEndMarker s) h

theorem readFrames_next : ∀ {n : Nat} {s s' : State}, readFrames n s = .next s' → OnlyReception s s'
  | 0, s, s', h => by
    simp only [readFrames, Host.Outcome.next.injEq] at h
    subst h
    exact OnlyReception.refl s
  | n + 1, s, s', h => by
    obtain ⟨u, hu, h⟩ := andThen_eq_next.1 h
    have h1 := readPayload_next hu
    rcases ifRead_next h with ⟨_, _, h⟩ | ⟨_, rfl⟩
    · exact h1.trans (readFrames_next h)
    · exact h1

theorem readFrames_completes : ∀ (n : Nat) {s : State}, Paced s → ∃ s', readFrames n s = .next s'
  | 0, s, _ => ⟨s, rfl⟩
  | n + 1, s, h => by
    obtain ⟨u, hu⟩ := readPayload_completes 8 h
    obtain ⟨v, hv⟩ := ifRead_completes (readFrames_completes n ((readPayload_next hu).paced h))
    exact ⟨v, by rw [readFrames, hu]; exact hv⟩

theorem readAnimation_next {s s' : State} (h : readAnimation s = .next s') : OnlyReception s s' := by
  unfold readAnimation at h
  split at h
  · split at h
    · obtain ⟨u, hu, h⟩ := andThen_eq_next.1 h
      have h1 := readFrames_next hu
      rcases ifRead_next h with ⟨_, _, h⟩ | ⟨_, rfl⟩
      · exact h1.trans (readEndMarker_next h)
      · exact h1
    · simp only [Host.Outcome.next.injEq] at h
      subst h
      exact OnlyReception.refl s
  · simp only [Host.Outcome.next.injEq] at h
    subst h
    exact OnlyReception.refl s

theorem readAnimation_completes {s : State} (h : Paced s) : ∃ s', readAnimation s = .next s' := by
  unfold readAnimation
  split
  · rename_i n _
    split
    · obtain ⟨u, hu⟩ := readFrames_completes n.toNat h
      obtain ⟨v, hv⟩ := ifRead_completes (readEndMarker_completes ((readFrames_next hu).paced h))
      exact ⟨v, by rw [hu]; exact hv⟩
    · exact ⟨s, rfl⟩
  · exact ⟨s, rfl⟩

/-- Reception does nothing but receive. -/
theorem receive_next {m : Byte} {s s' : State} (h : receive m s = .next s') : OnlyReception s s' := by
  have h0 := onlyReception_writes s { s.rx with stage := [] } .readingPayload
  unfold receive at h
  split at h
  · obtain ⟨u, hu, h⟩ := andThen_eq_next.1 h
    have h1 := h0.trans (readPayload_next hu)
    rcases ifRead_next h with ⟨_, _, h⟩ | ⟨_, rfl⟩
    · exact h1.trans (readEndMarker_next h)
    · exact h1
  · split at h
    · obtain ⟨u, hu, h⟩ := andThen_eq_next.1 h
      have h1 := h0.trans (readPayload_next hu)
      rcases ifRead_next h with ⟨_, _, h⟩ | ⟨_, rfl⟩
      · exact h1.trans (readAnimation_next h)
      · exact h1
    · split at h
      · exact h0.trans (readPayload_next h)
      · simp only [Host.Outcome.next.injEq] at h
        subst h
        exact OnlyReception.refl s

theorem receive_completes (m : Byte) {s : State} (h : Paced s) : ∃ s', receive m s = .next s' := by
  have h0 : Paced (startCommand s) := h
  unfold receive
  split
  · obtain ⟨u, hu⟩ := readPayload_completes 8 h0
    obtain ⟨v, hv⟩ := ifRead_completes (readEndMarker_completes ((readPayload_next hu).paced h0))
    exact ⟨v, by rw [hu]; exact hv⟩
  · split
    · obtain ⟨u, hu⟩ := readPayload_completes 1 h0
      obtain ⟨v, hv⟩ := ifRead_completes (readAnimation_completes ((readPayload_next hu).paced h0))
      exact ⟨v, by rw [hu]; exact hv⟩
    · split
      · exact readPayload_completes 1 h0
      · exact ⟨s, rfl⟩

theorem receiveCommand_next {m : Byte} {s : State} {p : Command × State} (h : receiveCommand m s = .next p) :
    receive m s = .next p.2 ∧ p.1 = (decodeCommand m (receivedBytes p.2)).1 := by
  obtain ⟨u, hu, h⟩ := andThen_eq_next.1 h
  simp only [Host.Outcome.next.injEq] at h
  subst h
  exact ⟨hu, rfl⟩

theorem receiveCommand_completes (m : Byte) {s : State} (h : Paced s) : ∃ p, receiveCommand m s = .next p := by
  obtain ⟨u, hu⟩ := receive_completes m h
  exact ⟨_, by rw [receiveCommand, hu]; rfl⟩

/-- What POLL's removal of a marker can do. -/
theorem takeMarker_next {s : State} {p : Option Byte × State} (h : takeMarker s = .next p) :
    OnlyReception s p.2 ∧ p.2.rx = s.rx ∧ p.2.seq = s.seq ∧ (p.1 = none → p.2.link.rxq = []) := by
  obtain ⟨u, hu, h⟩ := andThen_eq_next.1 h
  obtain ⟨ht, -, -⟩ := deliver_next hu
  have ho := OnlyReception.of_time ht
  split at h
  · rename_i hr
    simp only [Host.Outcome.next.injEq] at h
    subst h
    refine ⟨ho, by rw [ht.rest], by rw [ht.rest], fun _ => ?_⟩
    unfold removeOldest at hr
    split at hr
    · assumption
    · simp at hr
  · rename_i m v hv
    obtain ⟨w, hw, h⟩ := andThen_eq_next.1 h
    simp only [Host.Outcome.next.injEq] at h
    subst h
    obtain ⟨h1, h2, h3, -⟩ := removeOldest_stream hv
    have kt := elapse_next hw
    refine ⟨(ho.trans h1).trans (OnlyReception.of_time kt), ?_, ?_, by simp⟩
    · rw [kt.rest]; exact h2.trans (by rw [ht.rest])
    · rw [kt.rest]; exact h3.trans (by rw [ht.rest])

theorem takeMarker_completes {s : State} (h : Paced s) : ∃ p, takeMarker s = .next p := by
  obtain ⟨u, hu⟩ := deliver_completes h
  obtain ⟨ht, -, -⟩ := deliver_next hu
  rw [takeMarker, hu, andThen_next]
  split
  · exact ⟨_, rfl⟩
  · rename_i m v hv
    obtain ⟨w, hw, -⟩ := elapse_completes ((removeOldest_stream hv).1.paced (ht.paced h))
    exact ⟨_, by rw [hw]; rfl⟩

/-- The oldest queued byte is the marker. -/
theorem takeMarker_queued {m : Byte} {rest : List Byte} {s : State} (h : Paced s) (hq : m :: rest <+: queuedBytes s) :
    ∃ s', takeMarker s = .next (some m, s') ∧ rest <+: queuedBytes s' ∧ stream s' = (stream s).drop 1 := by
  obtain ⟨u, hu⟩ := deliver_completes h
  obtain ⟨ht, -, -⟩ := deliver_next hu
  have hq' : m :: rest <+: queuedBytes u := hq.trans (ht.queued.map _)
  have hp := ht.paced h
  rw [takeMarker, hu, andThen_next]
  unfold queuedBytes at hq'
  cases hr : u.link.rxq with
  | nil => simp [hr] at hq'
  | cons x q =>
    rw [hr, List.map_cons, List.cons_prefix_cons] at hq'
    obtain ⟨rfl, hq'⟩ := hq'
    have he : removeOldest u = some (x.byte, { u with link.rxq := q }) := by rw [removeOldest, hr]
    rw [he]
    obtain ⟨w, hw, kt⟩ := elapse_completes ((removeOldest_stream he).1.paced hp)
    refine ⟨w, by simp [hw], hq'.trans (kt.queued.map _), ?_⟩
    rw [kt.kept, ← ht.kept]
    simp [stream, hr]

/-! ## A command whose bytes are queued -/

theorem readPayload_queued {bs rest : List Byte} {k : Nat} {s : State} (h : Paced s)
    (hq : bs ++ rest <+: queuedBytes s) (hk : bs.length = k) :
    ∃ s', readPayload k s = .next s' ∧ s'.rx.lastRead = .ok bs ∧ s'.rx.stage = s.rx.stage ++ bs ∧
      s'.seq = s.seq ∧ rest <+: queuedBytes s' ∧ stream s' = (stream s).drop k := by
  obtain ⟨u, hu, h1, h2, h3⟩ := readOperand_queued h hq hk
  obtain ⟨-, k2, k3⟩ := readOperand_next hu
  refine ⟨{ u with rx.stage := u.rx.stage ++ bs }, ?_, h1, by simp [k2], k3, h2, h3⟩
  rw [readPayload, hu, andThen_next, stageRead, h1]

theorem readEndMarker_queued {e : Byte} {rest : List Byte} {s : State} (h : Paced s)
    (hq : e :: rest <+: queuedBytes s) :
    ∃ s', readEndMarker s = .next s' ∧ receivedBytes s' = s.rx.stage ++ [e] ∧ rest <+: queuedBytes s' ∧
      stream s' = (stream s).drop 1 := by
  obtain ⟨u, hu, h1, h2, h3⟩ := readOperand_queued (bs := [e]) (k := 1) (s := setRxstate .readingEndMarker s) h hq rfl
  obtain ⟨-, k2, k3⟩ := readOperand_next hu
  refine ⟨u, hu, ?_, h2, h3⟩
  rw [receivedBytes, k3, h1, k2]
  rfl

theorem Frame.bytes_length (f : Frame) : f.bytes.length = 8 := rfl

theorem framesBytes_length : ∀ fs : List Frame, (framesBytes fs).length = 8 * fs.length
  | [] => rfl
  | f :: fs => by
    rw [framesBytes, List.length_append, framesBytes_length fs, Frame.bytes_length, List.length_cons]
    omega

theorem readFrames_queued : ∀ (fs : List Frame) (rest : List Byte) {s : State}, Paced s →
    framesBytes fs ++ rest <+: queuedBytes s → (∃ bs, s.rx.lastRead = .ok bs) →
    ∃ s', readFrames fs.length s = .next s' ∧ (∃ bs, s'.rx.lastRead = .ok bs) ∧
      s'.rx.stage = s.rx.stage ++ framesBytes fs ∧ s'.seq = s.seq ∧ rest <+: queuedBytes s' ∧
      stream s' = (stream s).drop (8 * fs.length)
  | [], rest, s, _, hq, hr => ⟨s, rfl, hr, by simp [framesBytes], rfl, hq, by simp⟩
  | f :: fs, rest, s, h, hq, _ => by
    obtain ⟨u, hu, h1, h2, h3, h4, h5⟩ := readPayload_queued (bs := f.bytes) (rest := framesBytes fs ++ rest) h
      (by simpa [framesBytes] using hq) (Frame.bytes_length f)
    obtain ⟨v, hv, k1, k2, k3, k4, k5⟩ := readFrames_queued fs rest ((readPayload_next hu).paced h) h4 ⟨_, h1⟩
    refine ⟨v, ?_, k1, by rw [k2, h2]; simp [framesBytes], by rw [k3, h3], k4, ?_⟩
    · rw [List.length_cons, readFrames, hu, andThen_next, ifRead, h1]
      exact hv
    · rw [k5, h5, List.drop_drop, List.length_cons]
      congr 1
      omega

/-! ## Decoding what was received -/

theorem takeFrame_bytes (f : Frame) (rest : List Byte) : takeFrame (f.bytes ++ rest) = some (f, rest) := rfl

theorem takeFrames_bytes : ∀ (fs : List Frame) (rest : List Byte),
    takeFrames fs.length (framesBytes fs ++ rest) = (fs, rest)
  | [], rest => rfl
  | f :: fs, rest => by
    rw [List.length_cons, framesBytes, List.append_assoc, takeFrames, takeFrame_bytes]
    simp only [takeFrames_bytes fs rest]

theorem countAccepted_bound {n : Byte} (h : countAccepted n = true) : 1 ≤ n.toNat ∧ n.toNat ≤ 10 := by
  simpa [countAccepted] using h

/-- A command whose operands are all queued behind its removed marker is received whole: the words the receiver holds
decode to it, and exactly its bytes have been taken. -/
theorem receive_queued {c : Command} {m : Byte} {ops rest : List Byte} {s : State} (h : Paced s)
    (hc : wholeCommand c = true) (hb : c.bytes = m :: ops) (hq : ops ++ rest <+: queuedBytes s) :
    ∃ s', receive m s = .next s' ∧ (decodeCommand m (receivedBytes s')).1 = c ∧ rest <+: queuedBytes s' ∧
      stream s' = (stream s).drop ops.length := by
  have h0 : Paced (startCommand s) := h
  have q0 : ∀ l, l <+: queuedBytes s →
      l <+: queuedBytes (startCommand s) := fun l hl => hl
  cases c with
  | singleFrame rows e =>
    cases rows with
    | none => simp [wholeCommand] at hc
    | some f =>
      cases e with
      | none => simp [wholeCommand] at hc
      | some e =>
        simp only [Command.bytes, Option.map_some, Option.getD_some, Option.toList_some, List.cons.injEq] at hb
        obtain ⟨rfl, rfl⟩ := hb
        obtain ⟨u, hu, h1, h2, h3, h4, h5⟩ := readPayload_queued (bs := f.bytes) (rest := e :: rest) h0
          (q0 _ (by simpa using hq)) (Frame.bytes_length f)
        obtain ⟨v, hv, k1, k2, k3⟩ := readEndMarker_queued ((readPayload_next hu).paced h0) h4
        refine ⟨v, ?_, ?_, k2, ?_⟩
        · simp only [receive, if_true, hu, andThen_next, ifRead, h1]
          exact hv
        · rw [k1, h2]
          rfl
        · rw [k3, h5, List.drop_drop]
          rfl
  | animation n fs e =>
    cases n with
    | none => simp [wholeCommand] at hc
    | some n =>
      simp only [Command.bytes, Option.toList_some, List.cons_append, List.nil_append, List.cons.injEq] at hb
      obtain ⟨rfl, rfl⟩ := hb
      obtain ⟨u, hu, h1, h2, h3, h4, h5⟩ := readPayload_queued (bs := [n]) (k := 1)
        (rest := framesBytes fs ++ e.toList ++ rest) h0 (q0 _ (by simpa using hq)) rfl
      have hp := (readPayload_next hu).paced h0
      have hst : u.rx.stage = [n] := by rw [h2]; rfl
      simp only [wholeCommand] at hc
      by_cases hn : countAccepted n = true
      · rw [if_pos hn, Bool.and_eq_true, beq_iff_eq] at hc
        cases e with
        | none => simp at hc
        | some e =>
          obtain ⟨v, hv, ⟨bs, k1⟩, k2, k3, k4, k5⟩ := readFrames_queued fs (e :: rest) hp (by simpa using h4) ⟨_, h1⟩
          obtain ⟨w, hw, l1, l2, l3⟩ := readEndMarker_queued ((readFrames_next hv).paced hp) k4
          refine ⟨w, ?_, ?_, l2, ?_⟩
          · have hne : ¬ Config.mAnim = Config.mSingle := by decide
            simp only [receive, if_neg hne, if_true, hu, andThen_next, ifRead, h1, readAnimation, hst, hn, ← hc.1, hv, k1]
            exact hw
          · rw [l1, k2, hst]
            have hne : ¬ Config.mAnim = Config.mSingle := by decide
            simp only [decodeCommand, if_neg hne, if_true, List.cons_append, List.nil_append, decodeAnimation, hn,
              decodeFrames, ← hc.1, takeFrames_bytes, takeByte]
          · rw [l3, k5, h5, List.drop_drop, List.drop_drop]
            congr 1
            simp [framesBytes_length]
            omega
      · rw [if_neg hn, Bool.and_eq_true, List.isEmpty_iff, Option.isNone_iff_eq_none] at hc
        obtain ⟨rfl, rfl⟩ := hc
        refine ⟨u, ?_, ?_, by simpa [framesBytes] using h4, by rw [h5]; rfl⟩
        · have hne : ¬ Config.mAnim = Config.mSingle := by decide
          simp only [receive, if_neg hne, if_true, hu, andThen_next, ifRead, h1, readAnimation, hst]
          rw [if_neg hn]
        · have hne : ¬ Config.mAnim = Config.mSingle := by decide
          have hrb : receivedBytes u = [n] := by
            rw [receivedBytes, h3, hst]
            rfl
          rw [hrb]
          simp only [decodeCommand, if_neg hne, if_true, decodeAnimation]
          rw [if_neg hn]
  | brightness b =>
    cases b with
    | none => simp [wholeCommand] at hc
    | some b =>
      simp only [Command.bytes, Option.toList_some, List.cons.injEq] at hb
      obtain ⟨rfl, rfl⟩ := hb
      obtain ⟨u, hu, h1, h2, h3, h4, h5⟩ := readPayload_queued (bs := [b]) (k := 1) (rest := rest) h0 (q0 _ hq) rfl
      refine ⟨u, ?_, ?_, h4, h5⟩
      · have hne : ¬ Config.mBright = Config.mSingle := by decide
        have hne' : ¬ Config.mBright = Config.mAnim := by decide
        simp only [receive, if_neg hne, if_neg hne', if_true]
        exact hu
      · have hrb : receivedBytes u = [b] := by
          rw [receivedBytes, h3, h2]
          rfl
        rw [hrb]
        rfl
  | ignored m' =>
    simp only [Command.bytes, List.cons.injEq] at hb
    obtain ⟨rfl, rfl⟩ := hb
    simp only [wholeCommand, isStartMarker, Bool.not_eq_true', Bool.or_eq_false_iff, beq_eq_false_iff_ne] at hc
    obtain ⟨⟨c1, c2⟩, c3⟩ := hc
    refine ⟨s, ?_, ?_, by simpa using hq, by simp⟩
    · simp only [receive, if_neg c1, if_neg c2, if_neg c3]
    · simp only [decodeCommand, if_neg c1, if_neg c2, if_neg c3]

end Sys2Proof.Machine
end

