-- ==== Sys2Proof/Laws/PerInstr.lean ====
section
/-! SUPPORT. The length of the bytes of every command, instruction by instruction (30_encoding R91 to R94): at least its
first byte, at most the 83 bytes of an ANIMATION of ten Frames. -/

namespace Sys2Proof.Laws

open Sys2Proof Sys2Proof.Machine

/-- The bytes of `i`, if it is a command of the byte stream, are between 1 and 83. -/
def CommandLength.Statement (i : Instr) : Prop :=
  ∀ bytes, WellFormed i → encode i = some (.stream bytes) → 1 ≤ bytes.length ∧ bytes.length ≤ 83

theorem optionLength {α : Type} (o : Option α) : o.toList.length ≤ 1 := by cases o <;> simp

theorem rowsLength (rows : Option Frame) : ((rows.map Frame.bytes).getD []).length ≤ 8 := by
  cases rows <;> simp [Frame.bytes_length]

theorem framesLength {n : Option Byte} {fs : List Frame} {e : Option Byte} (h : wellFormedAnimation n fs e = true) :
    fs.length ≤ 10 := by
  cases n with
  | none => simp_all [wellFormedAnimation]
  | some n =>
    simp only [wellFormedAnimation] at h
    split at h
    · rename_i hn
      have hb := countAccepted_bound hn
      cases e <;> simp at h <;> omega
    · simp_all

theorem CommandLength.singleFrame (rows : Option Frame) (e : Option Byte) :
    CommandLength.Statement (.singleFrame rows e) := by
  intro bytes _ h
  simp only [encode, Option.some.injEq, Code.stream.injEq] at h
  subst h
  have h1 := rowsLength rows
  have h2 := optionLength e
  simp only [Command.bytes, List.length_cons, List.length_append]
  omega

theorem CommandLength.animation (n : Option Byte) (frames : List Frame) (e : Option Byte) :
    CommandLength.Statement (.animation n frames e) := by
  intro bytes hw h
  simp only [encode, Option.some.injEq, Code.stream.injEq] at h
  subst h
  have h1 := framesLength hw
  have h2 := optionLength e
  have h3 := optionLength n
  simp only [Command.bytes, List.length_cons, List.length_append, framesBytes_length]
  omega

theorem CommandLength.brightness (b : Option Byte) : CommandLength.Statement (.brightness b) := by
  intro bytes _ h
  simp only [encode, Option.some.injEq, Code.stream.injEq] at h
  subst h
  have h1 := optionLength b
  simp only [Command.bytes, List.length_cons]
  omega

theorem CommandLength.ignored (m : Byte) : CommandLength.Statement (.ignored m) := by
  intro bytes _ h
  simp only [encode, Option.some.injEq, Code.stream.injEq] at h
  subst h
  simp [Command.bytes]

theorem CommandLength.rowActivate (c : Byte) (row : RowIndex) : CommandLength.Statement (.rowActivate c row) := by
  simp [CommandLength.Statement, encode]

theorem CommandLength.blank : CommandLength.Statement .blank := by simp [CommandLength.Statement, encode]
theorem CommandLength.mainLoop : CommandLength.Statement .mainLoop := by simp [CommandLength.Statement, encode]
theorem CommandLength.poll : CommandLength.Statement .poll := by simp [CommandLength.Statement, encode]

theorem CommandLength.handleCommand (m : Byte) : CommandLength.Statement (.handleCommand m) := by
  simp [CommandLength.Statement, encode]

theorem CommandLength.readBytes (k : Nat) : CommandLength.Statement (.readBytes k) := by
  simp [CommandLength.Statement, encode]

theorem CommandLength.abort (e : ErrorKind) (cmd : CommandKind) : CommandLength.Statement (.abort e cmd) := by
  simp [CommandLength.Statement, encode]

theorem CommandLength.commitStatic (t : Frame) : CommandLength.Statement (.commitStatic t) := by
  simp [CommandLength.Statement, encode]

theorem CommandLength.commitAnimation (n : Nat) (g : List Frame) :
    CommandLength.Statement (.commitAnimation n g) := by
  simp [CommandLength.Statement, encode]

theorem CommandLength.clearAnimation : CommandLength.Statement .clearAnimation := by
  simp [CommandLength.Statement, encode]

theorem CommandLength.setRender (f : Frame) : CommandLength.Statement (.setRender f) := by
  simp [CommandLength.Statement, encode]

theorem CommandLength.setBrightness (b : Byte) : CommandLength.Statement (.setBrightness b) := by
  simp [CommandLength.Statement, encode]

theorem CommandLength.scanStep : CommandLength.Statement .scanStep := by simp [CommandLength.Statement, encode]
theorem CommandLength.assert : CommandLength.Statement .assert := by simp [CommandLength.Statement, encode]

theorem CommandLength.shift (d : Bool) : CommandLength.Statement (.shift d) := by
  simp [CommandLength.Statement, encode]

theorem CommandLength.latch : CommandLength.Statement .latch := by simp [CommandLength.Statement, encode]
theorem CommandLength.hold : CommandLength.Statement .hold := by simp [CommandLength.Statement, encode]
theorem CommandLength.blankStep : CommandLength.Statement .blankStep := by simp [CommandLength.Statement, encode]
theorem CommandLength.advance : CommandLength.Statement .advance := by simp [CommandLength.Statement, encode]
theorem CommandLength.animTick : CommandLength.Statement .animTick := by simp [CommandLength.Statement, encode]

theorem CommandLength.critical (edge : CriticalEdge) : CommandLength.Statement (.critical edge) := by
  simp [CommandLength.Statement, encode]

end Sys2Proof.Laws
end

