-- ==== Sys2Proof/Tests/Slice0.lean ====
section
/-! SUPPORT. Tests of the model on small states, their expected results taken from spec/95_test_vectors.md (the vector is
named at each test), and a witness for the hypotheses of the statements in Certificates/Slice0/Obligations.lean. -/

namespace Sys2Proof.Tests

open Sys2Proof Sys2Proof.Machine

/-! ## Helpers -/

/-- The default parameters of 95, with an infinite queue and no diagnostic on an unknown marker. -/
def params : Params := { Params.initial with rxFifoDepth := none, diagOnUnknown := false }

/-- Eight equal rows. -/
def rows8 (b : Byte) : Frame := ⟨b, b, b, b, b, b, b, b⟩

/-- The Frame `01 02 03 04 05 06 07 08`. -/
def frame18 : Frame := ⟨0x01, 0x02, 0x03, 0x04, 0x05, 0x06, 0x07, 0x08⟩

/-- `S0` of 95 under the zero schedule: the next hundred durations are zero. -/
def s0 : State :=
  { State.reset with
    params := params
    chain := { sr := 0, out := 0, ser := false, srclk := false, rclk := false }
    clock := { t := 0, pace := List.replicate 100 0, draws := 0 } }

/-- The start state of V80, at its three-Frame animation. -/
def s80 : State :=
  { s0 with
    store := { si := rows8 0x77, ab := [rows8 0x11, rows8 0x22, rows8 0x33], rb := rows8 0x22 }
    anim := { active := true, frameCount := 3, currentFrameIndex := 1, lastFrameChangeMs := 1000 }
    seq.currentRow := 3
    clock.t := 1600000
    trace := [.committed .animation] }

/-- The bytes have arrived and stand in `RXQ`. -/
def queued (bs : List Byte) (s : State) : State :=
  { s with link.rxq := bs.map (fun b => { arrival := s.clock.t, byte := b }) }

/-- The bytes `00` arrive at the listed instants. -/
def arriving (ts : List Nat) (s : State) : State :=
  { s with link.hostStream := ts.map (fun t => { arrival := t, byte := 0x00 }) }

/-- The call of `ReadBytes` of V50 starts at 11 000. -/
def s50 : State := { s0 with clock.t := 11000 }

/-- The operation answers a next state of which the test holds. -/
def after (o : Result State) (test : State → Bool) : Bool :=
  match o with
  | .next s => test s
  | .fault _ => false
  | .refused _ => false

/-! ## WellFormed: one ill-formed term for each check -/

theorem test_wf_singleFrame_end_without_rows : ¬ WellFormed (.singleFrame none (some 0xFE)) := by decide
theorem test_wf_animation_frames_without_count : ¬ WellFormed (.animation none [frame18] none) := by decide
theorem test_wf_animation_end_without_count : ¬ WellFormed (.animation none [] (some 0xFB)) := by decide
theorem test_wf_animation_frames_after_rejected_count : ¬ WellFormed (.animation (some 0) [frame18] none) := by decide
theorem test_wf_animation_end_after_rejected_count : ¬ WellFormed (.animation (some 11) [] (some 0xFB)) := by decide
theorem test_wf_animation_end_with_a_frame_missing :
    ¬ WellFormed (.animation (some 2) [frame18] (some 0xFB)) := by decide
theorem test_wf_animation_too_many_frames : ¬ WellFormed (.animation (some 1) [frame18, frame18] none) := by decide
theorem test_wf_ignored_start_markers :
    ¬ WellFormed (.ignored 0xFF) ∧ ¬ WellFormed (.ignored 0xFA) ∧ ¬ WellFormed (.ignored 0xFC) := by decide
theorem test_wf_readBytes_five : ¬ WellFormed (.readBytes 5) := by decide
theorem test_wf_abort_unknownMarker : ¬ WellFormed (.abort .unknownMarker .singleFrame) := by decide
theorem test_wf_abort_count_of_singleFrame : ¬ WellFormed (.abort .invalidFrameCount .singleFrame) := by decide
theorem test_wf_abort_end_of_brightness : ¬ WellFormed (.abort .invalidEndMarker .brightness) := by decide
theorem test_wf_abort_count_of_brightness : ¬ WellFormed (.abort .invalidFrameCount .brightness) := by decide
theorem test_wf_commitAnimation_none : ¬ WellFormed (.commitAnimation 0 []) := by decide
theorem test_wf_commitAnimation_eleven :
    ¬ WellFormed (.commitAnimation 11 (List.replicate 11 frame18)) := by decide
theorem test_wf_commitAnimation_wrong_length : ¬ WellFormed (.commitAnimation 2 [frame18]) := by decide

/-! ## Decoding of words written out from the spec -/

/-- V10: marker values as data. -/
theorem test_decode_singleFrame_markers_as_data :
    decode [0xFF, 0xFF, 0xFE, 0xFA, 0xFB, 0xFC, 0xFF, 0xFE, 0xFA, 0xFE, 0x12] =
      .ok (.singleFrame (some ⟨0xFF, 0xFE, 0xFA, 0xFB, 0xFC, 0xFF, 0xFE, 0xFA⟩) (some 0xFE), [0x12]) := by rfl

/-- V14, 30 R95: a command cut short has the operands that arrived whole. -/
theorem test_decode_singleFrame_without_end :
    decode [0xFF, 1, 2, 3, 4, 5, 6, 7, 8] = .ok (.singleFrame (some frame18) none, []) ∧
    decode [0xFF, 1, 2, 3] = .ok (.singleFrame none none, []) := by exact ⟨rfl, rfl⟩

/-- X2. -/
theorem test_decode_animation_two_frames :
    decode [0xFA, 0x02, 0xFF, 0, 0, 0, 0, 0, 0, 0, 0, 0, 0, 0, 0, 0, 0, 0xFF, 0xFB] =
      .ok (.animation (some 2) [⟨0xFF, 0, 0, 0, 0, 0, 0, 0⟩, ⟨0, 0, 0, 0, 0, 0, 0, 0xFF⟩] (some 0xFB), []) := by rfl

/-- V22, V25: a rejected count ends the command; a Frame too many stands where the end marker should. -/
theorem test_decode_animation_ends :
    decode [0xFA, 0x00, 0x55] = .ok (.animation (some 0) [] none, [0x55]) ∧
    decode [0xFA, 0x0B, 0xFC] = .ok (.animation (some 0x0B) [] none, [0xFC]) ∧
    decode [0xFA, 0x01, 1, 2, 3, 4, 5, 6, 7, 8, 0x22, 0x22] =
      .ok (.animation (some 1) [frame18] (some 0x22), [0x22]) := by exact ⟨rfl, rfl, rfl⟩

/-- V41. -/
theorem test_decode_brightness : decode [0xFC, 0xFC] = .ok (.brightness (some 0xFC), []) := by rfl

/-- V1. -/
theorem test_decode_ignored :
    decode [0x00] = .ok (.ignored 0x00, []) ∧ decode [0x7F] = .ok (.ignored 0x7F, []) ∧
    decode [0xF9] = .ok (.ignored 0xF9, []) ∧ decode [0xFB] = .ok (.ignored 0xFB, []) ∧
    decode [0xFD] = .ok (.ignored 0xFD, []) ∧ decode [0xFE] = .ok (.ignored 0xFE, []) := by
  exact ⟨rfl, rfl, rfl, rfl, rfl, rfl⟩

/-- V60. -/
theorem test_decode_chain_words :
    decodeChainWord 0x8301 = .ok (.rowActivate 0xC1 0) ∧ decodeChainWord 0x8008 = .ok (.rowActivate 0x01 3) ∧
    decodeChainWord 0x0120 = .ok (.rowActivate 0x80 5) ∧ decodeChainWord 0xFF80 = .ok (.rowActivate 0xFF 7) ∧
    decodeChainWord 0x0002 = .ok (.rowActivate 0x00 1) ∧ decodeChainWord 0x0000 = .ok .blank := by
  exact ⟨rfl, rfl, rfl, rfl, rfl, rfl⟩

/-- 30 R99: two rows at once, or a column byte with no row, is no word of a scan step. -/
theorem test_decode_refuses_by_name :
    decodeChainWord 0xA503 = .error .noScanWord ∧ decodeChainWord 0xA500 = .error .noScanWord ∧
    decode [] = .error .noFirstByte := by exact ⟨rfl, rfl, rfl⟩

/-- The table's words: the rows of spec/opcode_table.json at one value of each mask. -/
theorem test_decode_table_words :
    decodeTableWord 8 0xFF = some (.singleFrame (some Frame.zero) (some 0)) ∧
    decodeTableWord 8 0xFA = some (.animation (some 0) [] none) ∧
    decodeTableWord 8 0xFC = some (.brightness (some 0)) ∧
    decodeTableWord 8 0xF8 = some (.ignored 0xF8) ∧
    decodeTableWord 16 0xA504 = some (.rowActivate 0xA5 2) ∧ decodeTableWord 16 0 = some .blank := by
  exact ⟨rfl, rfl, rfl, rfl, rfl, rfl⟩

/-! ## The commands -/

/-- V12. -/
theorem test_singleFrame_stops_an_animation :
    after (exec (.singleFrame (some frame18) (some 0xFE)) s80) (fun s =>
      s.store == { si := frame18, ab := [], rb := frame18 } && s.anim.active == false && s.anim.frameCount == 0 &&
        s.anim.currentFrameIndex == 0 && s.seq.currentRow == 3 && s.dwellUs == 2750) = true := by rfl

/-- V13: the end marker of the other command. -/
theorem test_singleFrame_wrong_end :
    after (exec (.singleFrame (some frame18) (some 0xFB)) s80) (fun s =>
      s.store == s80.store && s.anim == s80.anim &&
        s.trace.head? == some (.error .invalidEndMarker (some .singleFrame))) = true := by rfl

/-- V20. -/
theorem test_animation_smallest :
    after (exec (.animation (some 1) [⟨0x3C, 0x42, 0x81, 0x81, 0x81, 0x81, 0x42, 0x3C⟩] (some 0xFB)) s0) (fun s =>
      s.store == { si := Frame.zero, ab := [⟨0x3C, 0x42, 0x81, 0x81, 0x81, 0x81, 0x42, 0x3C⟩],
                   rb := ⟨0x3C, 0x42, 0x81, 0x81, 0x81, 0x81, 0x42, 0x3C⟩ } &&
        s.anim.active && s.anim.frameCount == 1 && s.anim.currentFrameIndex == 0) = true := by rfl

/-- V27: `FA 00` clears a running animation and keeps the display. -/
theorem test_animation_rejected_count :
    after (exec (.animation (some 0) [] none) s80) (fun s =>
      s.store == { si := rows8 0x77, ab := [], rb := rows8 0x22 } && s.anim.active == false &&
        s.anim.frameCount == 0 && s.anim.currentFrameIndex == 0) = true := by rfl

/-- V40: the truncated quotient of `b = 1`, the end points. -/
theorem test_brightness_values :
    (after (exec (.brightness (some 0x01)) s0) (fun s => s.dwellUs == 517) &&
      after (exec (.brightness (some 0xFF)) s0) (fun s => s.dwellUs == 5000) &&
      after (exec (.brightness (some 0x00)) s0) (fun s => s.dwellUs == 500)) = true := by rfl

/-- V44: the operand is missing. -/
theorem test_brightness_timeout :
    after (exec (.brightness none) s0) (fun s => s.dwellUs == 2750 &&
      s.trace.head? == some (.error .readTimeout (some .brightness))) = true := by rfl

/-- V1: no state change, and with `DIAG_ON_UNKNOWN = false` nothing is sent. -/
theorem test_ignored_changes_nothing :
    after (exec (.ignored 0x00) s80) (fun s => s.store == s80.store && s.anim == s80.anim &&
      s.dwellUs == 2750 && s.tx.txq.isEmpty) = true := by rfl

/-- X1, after a ReadTimeout abort nothing of the payload is kept. -/
theorem test_abort_singleFrame :
    after (exec (.abort .readTimeout .singleFrame) { s80 with seq.rxstate := .readingPayload, rx.stage := [1] })
      (fun s => s.store == s80.store && s.anim == s80.anim && s.seq.rxstate == .idle && s.rx.stage.isEmpty) = true := by
  rfl

/-- V24: the animation is cleared. -/
theorem test_abort_animation :
    after (exec (.abort .readTimeout .animation) s80) (fun s =>
      s.anim.active == false && s.anim.frameCount == 0 && s.store.rb == rows8 0x22) = true := by rfl

/-! ## The receiver -/

/-- V50, third and fourth row: a byte at the deadline is read, one a microsecond later is not. -/
theorem test_readBytes_at_the_deadline :
    (after (exec (.readBytes 1) (arriving [1011000] s50)) (fun s =>
        s.rx.lastRead == .ok [0x00] && s.clock.t == 1011000) &&
      after (exec (.readBytes 1) (arriving [1011001] s50)) (fun s =>
        s.rx.lastRead == .timeout && s.clock.t == 1011000 && (stream s).length == 1)) = true := by rfl

/-- V50, the last two rows: eight bytes 100 ms apart are read, 210 ms apart they are not. -/
theorem test_readBytes_of_eight :
    (after (exec (.readBytes 8) (arriving [111000, 211000, 311000, 411000, 511000, 611000, 711000, 811000] s50))
        (fun s => s.rx.lastRead == .ok (List.replicate 8 0x00) && s.clock.t == 811000) &&
      after (exec (.readBytes 8) (arriving [221000, 431000, 641000, 851000, 1061000, 1271000, 1481000, 1691000] s50))
        (fun s => s.rx.lastRead == .timeout && s.clock.t == 1011000 && (stream s).length == 4)) = true := by rfl

/-- 40 R121, D7: under `READ_UNIT = BYTE` each of the bytes 210 ms apart makes a deadline of its own. -/
theorem test_readBytes_by_bytes :
    after (exec (.readBytes 8)
        (arriving [221000, 431000, 641000, 851000, 1061000, 1271000, 1481000, 1691000]
          { s50 with params.readUnit := .byte }))
      (fun s => s.rx.lastRead == .ok (List.replicate 8 0x00) && s.clock.t == 1691000) = true := by rfl

/-- 40 R134, at the instant 11 999 of 40 R122: a call can end at any instant less than 1001 ms after it starts, and at
none later. -/
theorem test_readBytes_is_bounded :
    (after (exec (.readBytes 1) (queued [0x00] { s50 with clock.t := 11999, clock.pace := [1000999] }))
        (fun s => s.rx.lastRead == .ok [0x00] && s.clock.t == 11999 + 1000999) &&
      after (exec (.readBytes 1) (queued [0x00] { s50 with clock.t := 11999, clock.pace := [1001000] }))
        (fun s => s.clock.t == 11999 + 1000999)) = true := by rfl

/-- V25: eleven bytes are consumed, the Frame too many is not part of the command. -/
theorem test_handleCommand_consumes_to_the_end :
    after (exec (.handleCommand 0xFA)
        (queued [0x01, 0x11, 0x11, 0x11, 0x11, 0x11, 0x11, 0x11, 0x11, 0x22, 0x22, 0xFB] s0)) (fun s =>
      queuedBytes s == [0x22, 0xFB] &&
        s.trace == [.cleared none, .error .invalidEndMarker (some .animation)]) = true := by rfl

/-- V14: the end byte is missing, and the read of it times out at its deadline. -/
theorem test_handleCommand_missing_end :
    after (exec (.handleCommand 0xFF) (queued [1, 2, 3, 4, 5, 6, 7, 8] s50)) (fun s =>
      s.clock.t == 1011000 && queuedBytes s == [] && s.store == s0.store &&
        s.trace == [.error .readTimeout (some .singleFrame)]) = true := by rfl

/-- V41: the operand `FC` starts no command; one command a POLL. -/
theorem test_poll_takes_one_command :
    after (exec .poll (queued [0xFC, 0xFC, 0x00] s0)) (fun s => s.dwellUs == 4947 && queuedBytes s == [0x00]) = true := by
  rfl

/-- 45 R231: nothing to do, no wait. -/
theorem test_poll_of_an_empty_queue :
    after (exec .poll s0) (fun s => s.clock.t == 0 && s.store == s0.store && s.trace.isEmpty) = true := by rfl

/-! ## The frame store -/

/-- X1. -/
theorem test_commitStatic :
    after (exec (.commitStatic frame18) s80) (fun s =>
      s.store == { si := frame18, ab := [], rb := frame18 } && s.anim.active == false && s.ie) = true := by rfl

/-- V26: committed at `now_ms = 1600`. -/
theorem test_commitAnimation_replaces :
    after (exec (.commitAnimation 1 [rows8 0x44]) s80) (fun s =>
      s.store == { si := rows8 0x77, ab := [rows8 0x44], rb := rows8 0x44 } &&
        s.anim == { active := true, frameCount := 1, currentFrameIndex := 0, lastFrameChangeMs := 1600 }) = true := by
  rfl

/-- V27, and P4's last remark: under `RENDER_ON_ANIM_ABORT = STATIC` the display would be `SI`. -/
theorem test_clearAnimation :
    (after (exec .clearAnimation s80) (fun s => s.store.rb == rows8 0x22 && s.store.ab == []) &&
      after (exec .clearAnimation { s80 with params.renderOnAnimAbort := .static }) (fun s =>
        s.store.rb == rows8 0x77)) = true := by rfl

/-- 41 R164. -/
theorem test_setRender :
    after (exec (.setRender frame18) s80) (fun s => s.store == { s80.store with rb := frame18 }) = true := by rfl

/-- V42: `MIN = 100`, `MAX = 200`. -/
theorem test_setBrightness_other_parameters :
    (after (exec (.setBrightness 127) { s0 with params.brightnessMin := 100, params.brightnessMax := 200 })
        (fun s => s.dwellUs == 149) &&
      after (exec (.setBrightness 3) { s0 with params.brightnessMin := 100, params.brightnessMax := 200 })
        (fun s => s.dwellUs == 101)) = true := by rfl

/-! ## The scanner -/

/-- V60: `C1`, row 0, from `SR = FFFF`, in both orders. -/
theorem test_rowActivate :
    (after (exec (.rowActivate 0xC1 0) { s0 with chain.sr := 0xFFFF }) (fun s => s.chain.out == 0x8301) &&
      after (exec (.rowActivate 0xC1 0) { s0 with params.shiftOrder := .rowThenCol }) (fun s =>
        s.chain.out == 0x0183)) = true := by rfl

/-- V62. -/
theorem test_blank :
    after (exec .blank { s0 with chain.sr := 0x8301, chain.out := 0x8301 }) (fun s =>
      s.chain.sr == 0 && s.chain.out == 0) = true := by rfl

/-- V60: `0F`, row 6. -/
theorem test_assert :
    after (exec .assert { s0 with store.rb := ⟨0, 0, 0, 0, 0, 0, 0x0F, 0⟩, seq.currentRow := 6 }) (fun s =>
      s.chain.out == 0xF040) = true := by rfl

/-- V61, V62: single SHIFTs; the outputs keep their value. -/
theorem test_shift :
    (after (exec (.shift true) { s0 with chain.sr := 0x0041 }) (fun s => s.chain.sr == 0x0083 && s.chain.out == 0) &&
      after (exec (.shift false) { s0 with chain.sr := 0x8301 }) (fun s => s.chain.sr == 0x0602)) = true := by rfl

/-- V61: the LATCH. -/
theorem test_latch :
    after (exec .latch { s0 with chain.sr := 0x8301 }) (fun s =>
      s.chain.out == 0x8301 && s.chain.sr == 0x8301 && s.trace == [.latched 0x8301 0]) = true := by rfl

/-- 95, part 3: in the zero schedule a HOLD lasts exactly `dwell_us`. -/
theorem test_hold : after (exec .hold s0) (fun s => s.clock.t == 2750) = true := by rfl

/-- V62. -/
theorem test_blankStep :
    after (exec .blankStep { s0 with chain.sr := 0xFFFF, chain.out := 0xFFFF }) (fun s =>
      s.chain.sr == 0 && s.chain.out == 0) = true := by rfl

/-- V63. -/
theorem test_advance_wraps :
    (after (exec .advance { s0 with seq.currentRow := 7 }) (fun s => s.seq.currentRow == 0) &&
      after (exec .advance s0) (fun s => s.seq.currentRow == 1)) = true := by rfl

/-- V60, V64: the third row of `01 03 07 …`: its word, the hold, the zero word. -/
theorem test_scanStep :
    after (exec .scanStep { s0 with store.rb := ⟨0x01, 0x03, 0x07, 0x0F, 0x1F, 0x3F, 0x7F, 0xFF⟩, seq.currentRow := 2 })
      (fun s => s.trace == [.latched 0x0000 2750, .latched 0xE004 0] && s.seq.currentRow == 3) = true := by decide +kernel

/-! ## The scheduler, the loop, the critical sections -/

/-- V70: at 4699, 4700, 9999 with `lfc = 4200`, `fc = 3`, `idx = 2`. -/
def s70 (t : Nat) : State :=
  { s80 with anim.currentFrameIndex := 2, anim.lastFrameChangeMs := 4200, store.rb := rows8 0x33, clock.t := t }

theorem test_animTick_at_its_interval :
    (after (exec .animTick (s70 4699999)) (fun s => s.anim == (s70 0).anim && s.store == (s70 0).store) &&
      after (exec .animTick (s70 4700000)) (fun s =>
        s.anim.currentFrameIndex == 0 && s.store.rb == rows8 0x11 && s.anim.lastFrameChangeMs == 4700)) = true := by rfl

theorem test_animTick_advances_once :
    after (exec .animTick (s70 9999000)) (fun s =>
      s.anim.currentFrameIndex == 0 && s.store.rb == rows8 0x11 && s.anim.lastFrameChangeMs == 9999) = true := by rfl

/-- V80, first row: the new Frame is scanned in the iteration of its commit, and the tick finds no animation. -/
theorem test_mainLoop_commit_then_scan :
    after (exec .mainLoop (queued [0xFF, 0x3C, 0x3C, 0x3C, 0x3C, 0x3C, 0x3C, 0x3C, 0x3C, 0xFE] s80)) (fun s =>
      s.store == { si := rows8 0x3C, ab := [], rb := rows8 0x3C } && s.anim.active == false && s.seq.currentRow == 4 &&
        latchedWords s.trace == [0x0000, 0x3C08] && s.clock.t == 1602750) = true := by decide +kernel

/-- V80, second row: the new dwell time holds the old Frame, and the tick follows. -/
theorem test_mainLoop_brightness_then_tick :
    after (exec .mainLoop (queued [0xFC, 0x00] s80)) (fun s =>
      s.dwellUs == 500 && s.seq.currentRow == 4 && latchedWords s.trace == [0x0000, 0x4408] &&
        s.clock.t == 1600500 && s.store.rb == rows8 0x33 &&
        s.anim == { active := true, frameCount := 3, currentFrameIndex := 2, lastFrameChangeMs := 1600 }) = true := by decide +kernel

/-- 45 R234. -/
theorem test_critical :
    (after (exec (.critical .enter) s0) (fun s => s.ie == false) &&
      after (exec (.critical .leave) { s0 with ie := false }) (fun s => s.ie)) = true := by rfl

/-- The step fetches and runs the table's words where `withFetchWord` puts them: V40 with `b = 0`, V60 with `A5`, row 2. -/
theorem test_step_runs_the_table_words :
    (after (step (State.reset.withFetchWord 8 0xFC)) (fun s => s.dwellUs == 500 && s.seq.phase == .scan) &&
      after (step (s0.withFetchWord 16 0xA504)) (fun s => s.chain.out == 0xA504 && s.seq.scanphase == .hold)) = true := by
  rfl

/-- 70 R314: a byte takes 1.0417 ms. -/
theorem test_byte_time : SerialFormat.eightN1.byteTimeNs = 1041666 := by rfl

/-- V65: from reset, the first word on the outputs is `0001`. -/
theorem test_reset_scans_row_zero :
    after (step { s0 with seq.phase := .scan }) (fun s => s.chain.out == 0x0001) = true := by rfl

/-! ## Witnesses: a state and operands that meet the hypotheses of each statement -/

theorem answers {o : Result State} (h : after o (fun _ => true) = true) : ∃ s', o = .next s' := by
  cases o with
  | next s => exact ⟨s, rfl⟩
  | fault r => exact absurd h (by simp [after])
  | refused r => exact absurd h (by simp [after])

/-- Of IterationScansOneRow, ValidSingleFrameIsCommitted, BrightnessSetsTheDwellTime, IgnoredByteChangesNothing,
CommitStaticReplacesBothFrames, ClearAnimationEmptiesTheAnimation, SetRenderReplacesTheWholeFrame,
SetBrightnessFollowsTheFormula, ShiftMovesEveryStageUp, LatchCopiesTheShiftStage, RowActivateLatchesItsPair,
AssertLatchesTheCurrentRow, HoldLastsAtLeastTheDwellTime, AdvanceMovesToTheNextRow, ScanStepShowsOneRow,
ScanCycleShowsTheRenderBuffer, CriticalSectionsWriteTheFlag and EveryInstructionCompletesForAPacedHost: with an infinite
queue, and with a queue that its two bytes fill. -/
theorem witness_paced :
    Paced s80 ∧ Paced (queued [0xFC, 0x80] { s80 with params.rxFifoDepth := some 2 }) := by decide

theorem witness_EveryFirstByteBeginsItsCommand :
    ∀ m ∈ [0x00#8, 0xF9#8, 0xFB#8, 0xFD#8, 0xFE#8], m ≠ 0xFF#8 ∧ m ≠ 0xFA#8 ∧ m ≠ 0xFC#8 := by decide

theorem witness_WholeCommandDecodesUpToItsEnd :
    wholeCommand (.singleFrame (some frame18) (some 0xFB)) = true ∧
    wholeCommand (.animation (some 1) [frame18] (some 0xFB)) = true ∧
    wholeCommand (.animation (some 10) (List.replicate 10 frame18) (some 0x00)) = true ∧
    wholeCommand (.animation (some 0) [] none) = true ∧ wholeCommand (.animation (some 11) [] none) = true ∧
    wholeCommand (.brightness (some 0xFF)) = true ∧ wholeCommand (.ignored 0xFE) = true := by decide

theorem witness_EncodedInstructionDecodesBack :
    ∀ i ∈ [Instr.singleFrame (some frame18) none, .singleFrame none none, .animation none [] none,
        .animation (some 10) (List.replicate 10 frame18) (some 0xFB), .animation (some 10) [frame18] none,
        .animation (some 11) [] none, .brightness none, .brightness (some 0x80), .ignored 0xFB, .rowActivate 0xA5 7,
        .rowActivate 0x00 0, .blank],
      WellFormed i ∧ encode i ≠ none := by decide

theorem witness_PlacedTableWordIsFetched :
    Paced (s0.withFetchWord 8 0xFA) ∧ decodeTableWord 8 0xFA = some (.animation (some 0) [] none) ∧
    Paced (s0.withFetchWord 16 0x8301) ∧ decodeTableWord 16 0x8301 = some (.rowActivate 0xC1 0) := by
  exact ⟨rfl, rfl, rfl, rfl⟩

/-- A queue that the command fills. -/
def sFull : State := queued [0xFC, 0x80] { s0 with params.rxFifoDepth := some 2 }

/-- Of StepRunsTheQueuedCommand, PollRunsOneQueuedCommand and, with the marker removed,
HandleCommandRunsTheReceivedCommand. -/
theorem witness_queued_command :
    sFull.seq.phase = .poll ∧ Paced sFull ∧ wholeCommand (.brightness (some 0x80)) = true ∧
    (Command.brightness (some 0x80)).bytes <+: queuedBytes sFull ∧
    (Command.brightness (some 0x80)).bytes = 0xFC :: [0x80] ∧ [0x80#8] <+: queuedBytes (queued [0x80] s0) := by decide

/-- The next byte arrives one microsecond later. -/
def sNext : State := arriving [1] s0

/-- Of the six clauses of StepRunsTheOperationInTurn, of SixStepsAreOneIteration and of PollOfAnEmptyQueueDoesNothing. -/
theorem witness_positions :
    (Paced sNext ∧ sNext.seq.phase = .poll ∧ sNext.link.rxq = [] ∧
      ∀ b ∈ sNext.link.hostStream.head?, sNext.clock.t < b.arrival) ∧
    (∃ s : State, s.seq.phase = .scan ∧ s.seq.scanphase = .assert) ∧
    (∃ s : State, s.seq.phase = .scan ∧ s.seq.scanphase = .hold) ∧
    (∃ s : State, s.seq.phase = .scan ∧ s.seq.scanphase = .blank) ∧
    (∃ s : State, s.seq.phase = .scan ∧ s.seq.scanphase = .advance) ∧ (∃ s : State, s.seq.phase = .tick) :=
  ⟨by decide, ⟨{ s0 with seq.phase := .scan, seq.scanphase := .assert }, rfl, rfl⟩,
    ⟨{ s0 with seq.phase := .scan, seq.scanphase := .hold }, rfl, rfl⟩,
    ⟨{ s0 with seq.phase := .scan, seq.scanphase := .blank }, rfl, rfl⟩,
    ⟨{ s0 with seq.phase := .scan, seq.scanphase := .advance }, rfl, rfl⟩, ⟨{ s0 with seq.phase := .tick }, rfl⟩⟩

/-- The marker queued, with its operand or without, and arriving at the present instant. -/
theorem witness_PollHandlesTheOldestByte :
    (Paced sFull ∧ (stream sFull).head? = some ⟨0, 0xFC⟩ ∧ sFull.link.rxq ≠ []) ∧
    (Paced (arriving [0] s0) ∧ (stream (arriving [0] s0)).head? = some ⟨0, 0x00⟩ ∧ 0 ≤ (arriving [0] s0).clock.t) := by
  decide

/-- The brightness byte arrives in the last millisecond that is in time, behind a removed and behind a queued marker. -/
def sLastMs : State := { s50 with link.hostStream := [⟨1010999, 0x80⟩] }

theorem witness_TimelyCommandIsReceived :
    (Paced sLastMs ∧ wholeCommand (.brightness (some 0x80)) = true ∧
      (Command.brightness (some 0x80)).bytes = 0xFC :: [0x80] ∧ [0x80#8] <+: (stream sLastMs).map RxByte.byte ∧
      Timely sLastMs 1) ∧
    (Paced (queued [0xFC] sLastMs) ∧ (stream (queued [0xFC] sLastMs)).head? = some ⟨11000, 0xFC⟩ ∧
      (queued [0xFC] sLastMs).link.rxq ≠ [] ∧
      (Command.brightness (some 0x80)).bytes <+: (stream (queued [0xFC] sLastMs)).map RxByte.byte ∧
      Timely (queued [0xFC] sLastMs) 2) := by decide

theorem witness_FailedSingleFrameChangesNothing :
    ((none : Option Frame) = none ∧ ErrorKind.readTimeout = .readTimeout) ∧
    (∃ f, some frame18 = some f ∧ (none : Option Byte) = none) ∧
    (∃ f b, some frame18 = some f ∧ some 0xFB#8 = some b ∧ b ≠ 0xFE) ∧
    (∃ f b, some frame18 = some f ∧ some 0xFF#8 = some b ∧ b ≠ 0xFE) ∧ Paced s80 :=
  ⟨⟨rfl, rfl⟩, ⟨_, rfl, rfl⟩, ⟨_, _, rfl, rfl, by decide⟩, ⟨_, _, rfl, rfl, by decide⟩, by decide⟩

/-- Of ValidAnimationIsCommitted and CommitAnimationInstallsItsFrames, at both ends of the range. -/
theorem witness_valid_animation :
    Paced s80 ∧ [frame18].length = (1 : Byte).toNat ∧ (1 : Byte).toNat ≤ 10 ∧
    (frame18 :: List.replicate 9 frame18).length = (10 : Byte).toNat ∧ (10 : Byte).toNat ≤ 10 := by decide

/-- The five clauses, at the ends of their ranges. -/
theorem witness_FailedAnimationClearsTheAnimation :
    Paced s80 ∧ ((0 : Byte).toNat = 0 ∨ 10 < (0 : Byte).toNat) ∧ ((11 : Byte).toNat = 0 ∨ 10 < (11 : Byte).toNat) ∧
    ((10 : Byte).toNat ≤ 10 ∧ (List.replicate 9 frame18).length < (10 : Byte).toNat) ∧
    ((1 : Byte).toNat ≤ 10 ∧ ([] : List Frame).length < (1 : Byte).toNat) ∧
    (1 ≤ (1 : Byte).toNat ∧ [frame18].length = (1 : Byte).toNat) ∧
    (1 ≤ (10 : Byte).toNat ∧ (List.replicate 10 frame18).length = (10 : Byte).toNat ∧ (0xFE : Byte) ≠ 0xFB) := by decide

theorem witness_AbortFollowsTheCommandsPolicy :
    Paced s80 ∧ CommandKind.singleFrame ≠ .animation ∧ CommandKind.brightness ≠ .animation := by decide

/-- The state at which a call starts at 11 000 and the host's next byte comes just after its deadline. -/
def sLate : State := arriving [1011001] s50

/-- The first clause with no row byte and with seven, the second with all eight. -/
theorem witness_SingleFrameCutShortTimesOut :
    (∀ s ∈ [sLate, queued [1, 2, 3, 4, 5, 6, 7] sLate],
      Paced s ∧ s.link.rxq.length < 8 ∧ ∀ b ∈ s.link.hostStream.head?, max s.clock.t (deadlineFromNow s) < b.arrival) ∧
    (Paced (queued [1, 2, 3, 4, 5, 6, 7, 8] s50) ∧ (queued [1, 2, 3, 4, 5, 6, 7, 8] s50).link.rxq.length = 8 ∧
      (queued [1, 2, 3, 4, 5, 6, 7, 8] s50).link.hostStream = []) := by decide

/-- No operand byte; an accepted count and no Frame; one Frame and no end marker. -/
theorem witness_OtherCommandsCutShortTimeOut :
    (Paced sLate ∧ sLate.link.rxq = [] ∧
      ∀ b ∈ sLate.link.hostStream.head?, max sLate.clock.t (deadlineFromNow sLate) < b.arrival) ∧
    (Paced (queued [0x0A] s50) ∧ (queued [0x0A] s50).link.hostStream = [] ∧
      ∃ n rest, queuedBytes (queued [0x0A] s50) = n :: rest ∧ 1 ≤ n.toNat ∧ n.toNat ≤ 10 ∧
        rest.length ≤ 8 * n.toNat) ∧
    (Paced (queued [0x01, 1, 2, 3, 4, 5, 6, 7, 8] s50) ∧
      (queued [0x01, 1, 2, 3, 4, 5, 6, 7, 8] s50).link.hostStream = [] ∧
      ∃ n rest, queuedBytes (queued [0x01, 1, 2, 3, 4, 5, 6, 7, 8] s50) = n :: rest ∧ 1 ≤ n.toNat ∧ n.toNat ≤ 10 ∧
        rest.length ≤ 8 * n.toNat) :=
  ⟨by decide, ⟨by decide, rfl, 0x0A, [], by decide⟩, ⟨by decide, rfl, 0x01, [1, 2, 3, 4, 5, 6, 7, 8], by decide⟩⟩

/-- The `k`-th byte at the deadline, and one microsecond after it. -/
theorem witness_ReadSucceedsExactlyByItsDeadline :
    ∀ s ∈ [arriving [1011000] s50, arriving [1011001] s50, s50],
      Paced s ∧ ArrivalsOrdered s ∧ s.params.Legal ∧ s.params.readUnit = .group ∧ 1 ≤ 1 := by decide

theorem witness_ReadByBytesGivesEachByteItsDeadline :
    ∀ s ∈ [arriving [1011000, 2011000] s50, arriving [1011001] s50, s50],
      let s := { s with params.readUnit := ReadUnit.byte }
      Paced s ∧ ArrivalsOrdered s ∧ s.params.Legal ∧ s.params.readUnit = .byte := by decide

theorem witness_ReadCallsAreBounded :
    (∃ s', exec (.readBytes 1) sFull = .next s') ∧ sFull.params.readUnit = .group ∧
    (∃ s', exec (.readBytes 2) { sFull with params.readUnit := .byte } = .next s') ∧ 1 ≤ 2 ∧
    (Paced { sFull with clock.pace := [1000999] } ∧ [0xFC#8] <+: queuedBytes { sFull with clock.pace := [1000999] } ∧
      1000999 < (sFull.params.readTimeoutMs + 1) * 1000) :=
  ⟨answers (by rfl), rfl, answers (by rfl), by decide, by decide⟩

theorem witness_ReadTakesQueuedBytes :
    Paced sFull ∧ [0xFC#8, 0x80#8] <+: queuedBytes sFull ∧ ([] : List Byte) <+: queuedBytes sFull := by decide

/-- The narrowest range, and the default one, at its lowest and highest byte. -/
theorem witness_BrightnessMapHasItsEndPointsAndIsMonotonic :
    ({ params with brightnessMin := 1000, brightnessMax := 1000, readTimeoutMs := 1 } : Params).Legal ∧
    params.Legal ∧ params.brightnessMin = 500 ∧ params.brightnessMax = 5000 ∧
    (0x00 : Byte).toNat < (0x01 : Byte).toNat ∧ (0xFF : Byte).toNat = (0xFE : Byte).toNat + 1 := by decide

theorem witness_RepeatedFrameOrBrightnessIsIdempotent :
    Paced s80 ∧ (∃ s1, exec (.singleFrame (some frame18) (some 0xFE)) s80 = .next s1) ∧
    (∃ s1, exec (.brightness (some 0xFF)) s80 = .next s1) :=
  ⟨by decide, answers (by rfl), answers (by rfl)⟩

theorem witness_BlankClearsTheOutputs :
    Paced s80 ∧ (Instr.blank = .blank ∨ Instr.blank = .blankStep) ∧ (Instr.blankStep = .blank ∨ Instr.blankStep = .blankStep) := by
  decide

/-- The animation of V80 at 501 ms under MORE_THAN. -/
def s70More : State := { s80 with clock.t := 1501000, params.tickCompare := .moreThan }

/-- Due at exactly 500 ms at the last Frame, and under MORE_THAN at 501 ms before it. -/
theorem witness_DueTickShowsTheNextFrame :
    (Paced (s70 4700000) ∧ (s70 4700000).anim.active = true ∧
      500 ≤ (s70 4700000).clock.t / 1000 - (s70 4700000).anim.lastFrameChangeMs ∧
      (s70 4700000).anim.currentFrameIndex < (s70 4700000).anim.frameCount ∧
      (0 : Nat) = (if (s70 4700000).anim.currentFrameIndex + 1 = (s70 4700000).anim.frameCount then 0
        else (s70 4700000).anim.currentFrameIndex + 1) ∧
      (s70 4700000).store.ab[0]? = some (rows8 0x11)) ∧
    (Paced s70More ∧ s70More.anim.active = true ∧
      500 < s70More.clock.t / 1000 - s70More.anim.lastFrameChangeMs ∧
      s70More.anim.currentFrameIndex < s70More.anim.frameCount ∧
      (2 : Nat) = (if s70More.anim.currentFrameIndex + 1 = s70More.anim.frameCount then 0
        else s70More.anim.currentFrameIndex + 1) ∧
      s70More.store.ab[2]? = some (rows8 0x33)) := by decide

theorem witness_TickDoesNothingWhileInactive : Paced s0 ∧ s0.anim.active = false := by decide

theorem witness_NoFrameAdvanceBeforeItsInterval :
    Paced (s70 4699999) ∧ (s70 4699999).anim.active = true ∧
    (s70 4699999).clock.t / 1000 - (s70 4699999).anim.lastFrameChangeMs < 500 := by decide

/-- Of OutputsChangeOnlyAtALatch and ParametersTimeAndStreamsAreKept. -/
theorem witness_exec_answers : ∃ s', exec .scanStep s80 = .next s' := answers (by rfl)

/-- One byte in a queue of depth one; the next operation takes 5 microseconds. -/
def sAtDepth : State := queued [0x00] { s0 with params.rxFifoDepth := some 1, clock.pace := [5] }

/-- A byte on its way to a queue of depth zero. -/
def sNoDepth : State := arriving [5] { s0 with params.rxFifoDepth := some 0, clock.pace := [5] }

/-- The next byte arrives at the end of the next operation; two do; one at the present instant; one at a queue of depth
zero. The first LATCH stops, and without the byte it does not. -/
theorem witness_ArrivalAtAFullQueueStops :
    (∀ s ∈ [arriving [5] sAtDepth, arriving [5, 5] sAtDepth, arriving [0] sAtDepth],
      s.params.rxFifoDepth = some 1 ∧ 1 ≤ s.link.rxq.length ∧
        ∃ b ∈ s.link.hostStream.head?, b.arrival ≤ (clockAfter 0 s.clock).t) ∧
    (sNoDepth.params.rxFifoDepth = some 0 ∧ sNoDepth.link.rxq = [] ∧ sNoDepth.link.hostStream = [⟨5, 0x00⟩] ∧
      5 ≤ (clockAfter 0 sNoDepth.clock).t) ∧
    ({ sAtDepth with seq.phase := .scan } : State).seq.phase ≠ .poll ∧ sAtDepth.seq.phase = .poll ∧
    exec .latch (arriving [5] sAtDepth) = .fault .rxOverrun ∧ after (exec .latch sAtDepth) (fun _ => true) = true :=
  ⟨by decide, by decide, by decide, rfl, rfl, rfl⟩

theorem witness_ReceptionStopsTheScanner :
    (∃ s', exec .poll sFull = .next s') ∧ (∃ s', exec (.handleCommand 0xFC) (queued [0x80] s0) = .next s') ∧
    (∃ s', exec (.readBytes 1) sFull = .next s') ∧
    (∃ s', exec (Command.singleFrame (some frame18) (some 0xFE)).toInstr s80 = .next s') ∧
    (∃ s', exec (.abort .readTimeout .animation) s80 = .next s') :=
  ⟨answers (by rfl), answers (by rfl), answers (by rfl), answers (by rfl), answers (by rfl)⟩

theorem changes {o : Result State} {test : State → Bool} (h : after o test = true) :
    ∃ s', o = .next s' ∧ test s' = true := by
  cases o with
  | next s => exact ⟨s, rfl, h⟩
  | fault r => exact absurd h (by simp [after])
  | refused r => exact absurd h (by simp [after])

theorem witness_RegistersAreWrittenOnlyByTheirCommands :
    (∃ s', exec (.commitStatic frame18) s80 = .next s' ∧ (s'.store.si != s80.store.si) = true) ∧
    (∃ s', exec (.setBrightness 0xFF) s80 = .next s' ∧ (s'.dwellUs != s80.dwellUs) = true) ∧
    (∃ s', exec (.setRender frame18) s80 = .next s' ∧ (s'.store.rb != s80.store.rb) = true) ∧
    (∃ s', exec .clearAnimation { s80 with params.renderOnAnimAbort := .static } = .next s' ∧
      (s'.store.rb != s80.store.rb && s'.store.ab != s80.store.ab && s'.anim != s80.anim) = true) ∧
    (∃ s', exec .animTick s80 = .next s' ∧ (s'.anim != s80.anim) = true) ∧
    (∃ s', exec .advance s80 = .next s' ∧ (s'.seq.currentRow != s80.seq.currentRow) = true) ∧
    (∃ s', exec .latch s80 = .next s') :=
  ⟨changes (by rfl), changes (by rfl), changes (by rfl), changes (by rfl), changes (by rfl), changes (by rfl),
    answers (by rfl)⟩

/-- A state that meets the invariant with an animation active and a row on display. -/
def sShown : State :=
  { s80 with
    seq.phase := .scan, seq.scanphase := .hold
    chain := { sr := 0x4408, out := 0x4408, ser := false, srclk := false, rclk := false }
    trace := [.latched 0x4408 1600000, .committed .animation] }

/-- Of EveryStepKeepsTheInvariant and AtMostOneRowIsLit. -/
theorem witness_BlockInv :
    BlockInv sShown ∧ ∃ s', step sShown = .next s' ∧ (!(latchedWords s'.trace).isEmpty) = true := by
  refine ⟨⟨by decide, by decide, ⟨by decide, rfl, fun _ => by decide, fun h => absurd h (by decide)⟩,
    ⟨fun _ => ⟨rfl, rfl⟩, fun h => absurd h (by decide), fun h => absurd h (by decide)⟩,
    ⟨fun _ => rfl, fun h => absurd h (by decide), rfl⟩, ⟨rfl, rfl⟩, rfl, ⟨rfl, rfl⟩, fun _ => by decide,
    fun d h => absurd h (by simp [sShown, s80, s0, params])⟩, changes (by rfl)⟩

/-- The invariant in the dark: no row on display, the outputs blank. -/
theorem witness_BlockInv_dark :
    BlockInv { sShown with seq.scanphase := .advance, chain.out := 0, trace := .latched 0 1602750 :: sShown.trace } := by
  refine ⟨by decide, by decide, ⟨by decide, rfl, fun _ => by decide, fun h => absurd h (by decide)⟩,
    ⟨fun _ => ⟨rfl, rfl⟩, fun h => absurd h (by decide), fun h => absurd h (by decide)⟩,
    ⟨fun h => absurd h (by decide), fun _ _ => rfl, rfl⟩, ⟨rfl, rfl⟩, rfl, ⟨rfl, rfl⟩, fun _ => by decide,
    fun d h => absurd h (by simp [sShown, s80, s0, params])⟩

end Sys2Proof.Tests
end

section
/-! PROOFS of the family 20_memory: the outputs change only at a LATCH (20 R73). The relation `OutputsFollowLatches`
between two states is what O46 says of one instruction; it is reflexive and transitive, so each operation has it from its
parts, and only SHIFTs and LATCHes touch the chain. -/

namespace Sys2Proof.Machine

/-! ## The relation -/

theorem latchedWords_append : ∀ es fs : List Event, latchedWords (es ++ fs) = latchedWords es ++ latchedWords fs
  | [], _ => rfl
  | .latched w _ :: es, fs => congrArg (w :: ·) (latchedWords_append es fs)
  | .error _ _ :: es, fs => latchedWords_append es fs
  | .committed _ :: es, fs => latchedWords_append es fs
  | .cleared _ :: es, fs => latchedWords_append es fs

/-- From `s` to `s'` the trace has grown, and the outputs hold the word of the newest LATCH in what was added, or are as
they were if there is none. -/
def OutputsFollowLatches (s s' : State) : Prop :=
  ∃ new, s'.trace = new ++ s.trace ∧ s'.chain.out = (latchedWords new).head?.getD s.chain.out

theorem OutputsFollowLatches.of_kept {s s' : State} (hout : s'.chain.out = s.chain.out) (htrace : s'.trace = s.trace) :
    OutputsFollowLatches s s' := ⟨[], htrace, hout⟩

/-- A ghost event other than a LATCH leaves the outputs as they were. -/
theorem OutputsFollowLatches.of_event {s s' : State} {e : Event} (he : latchedWords [e] = [])
    (hout : s'.chain.out = s.chain.out) (htrace : s'.trace = e :: s.trace) : OutputsFollowLatches s s' :=
  ⟨[e], htrace, by rw [he]; exact hout⟩

theorem OutputsFollowLatches.of_latch {s s' : State} {w : ChainWord} {τ : Nat} (hout : s'.chain.out = w)
    (htrace : s'.trace = .latched w τ :: s.trace) : OutputsFollowLatches s s' :=
  ⟨[.latched w τ], htrace, hout⟩

theorem OutputsFollowLatches.refl (s : State) : OutputsFollowLatches s s := .of_kept rfl rfl

theorem OutputsFollowLatches.trans {a b c : State} (h : OutputsFollowLatches a b) (k : OutputsFollowLatches b c) :
    OutputsFollowLatches a c := by
  obtain ⟨new₁, htrace₁, hout₁⟩ := h
  obtain ⟨new₂, htrace₂, hout₂⟩ := k
  refine ⟨new₂ ++ new₁, by rw [htrace₂, htrace₁, List.append_assoc], ?_⟩
  rw [hout₂, hout₁, latchedWords_append]
  cases latchedWords new₂ <;> rfl

theorem OutputsFollowLatches.of_time {s s' : State} (h : OnlyTime s s') : OutputsFollowLatches s s' :=
  .of_kept (by rw [h.rest]) (by rw [h.rest])

theorem OutputsFollowLatches.of_diagnostic {s s' : State} (h : OnlyDiagnostic s s') : OutputsFollowLatches s s' :=
  .of_kept (by rw [h.time.rest]) (by rw [h.time.rest])

theorem OutputsFollowLatches.of_reception {s s' : State} (h : OnlyReception s s') : OutputsFollowLatches s s' :=
  .of_kept (by rw [h.rest]) (by rw [h.rest])

/-! ## The writes of the frame store and of the brightness register -/

theorem commitStatic_outputs (t : Frame) (s : State) : OutputsFollowLatches s (commitStatic t s) :=
  .of_event (e := .committed .singleFrame) rfl rfl rfl

theorem commitAnimation_outputs (n : Nat) (g : List Frame) (s : State) :
    OutputsFollowLatches s (commitAnimation n g s) :=
  .of_event (e := .committed .animation) rfl rfl rfl

theorem setBrightness_outputs (b : Byte) (s : State) : OutputsFollowLatches s (setBrightness b s) :=
  .of_event (e := .committed .brightness) rfl rfl rfl

theorem renderOnAbort_chain (s : State) : (renderOnAbort s).chain = s.chain := by
  unfold renderOnAbort
  split <;> rfl

theorem renderOnAbort_trace (s : State) : (renderOnAbort s).trace = s.trace := by
  unfold renderOnAbort
  split <;> rfl

theorem clearAnimation_outputs (s : State) : OutputsFollowLatches s (clearAnimation s) := by
  refine .of_event (e := .cleared (shownFrame s)) rfl ?_ ?_
  · simp [clearAnimation, atomically, renderOnAbort_chain]
  · simp [clearAnimation, atomically, renderOnAbort_trace]

/-! ## The ends of a command -/

theorem abortWrites_outputs (e : ErrorKind) (cmd : CommandKind) (s : State) :
    OutputsFollowLatches s (abortWrites e cmd s) := by
  have herror : OutputsFollowLatches s (note (.error e (some cmd)) { s with seq.rxstate := .abort, rx.stage := [] }) :=
    .of_event (e := .error e (some cmd)) rfl rfl rfl
  cases cmd with
  | animation => exact herror.trans (clearAnimation_outputs _)
  | singleFrame => exact herror
  | brightness => exact herror

theorem returnToLoop_outputs (s : State) : OutputsFollowLatches s (returnToLoop s) := .of_kept rfl rfl

theorem raiseError_outputs {e : ErrorKind} {cmd : CommandKind} {s s' : State} (h : raiseError e cmd s = .next s') :
    OutputsFollowLatches s s' :=
  ((abortWrites_outputs e cmd s).trans (returnToLoop_outputs _)).trans (.of_diagnostic (raiseError_next h))

theorem finishCommand_outputs {commit : State → State} (hcommit : ∀ u, OutputsFollowLatches u (commit u))
    {s s' : State} (h : finishCommand commit s = .next s') : OutputsFollowLatches s s' := by
  have hstart : OutputsFollowLatches s (setRxstate .commit s) := .of_kept rfl rfl
  exact ((hstart.trans (hcommit _)).trans (returnToLoop_outputs _)).trans (.of_diagnostic (finishCommand_next h))

/-! ## The commands of the byte stream -/

theorem execSingleFrame_outputs {rows : Option Frame} {endMarker : Option Byte} {s s' : State}
    (h : execSingleFrame rows endMarker s = .next s') : OutputsFollowLatches s s' := by
  unfold execSingleFrame at h
  split at h
  · split at h
    · exact finishCommand_outputs (commitStatic_outputs _) h
    · exact raiseError_outputs h
  · exact raiseError_outputs h
  · exact raiseError_outputs h

theorem animationFrames_outputs {n : Nat} {frames : List Frame} {endMarker : Option Byte} {s s' : State}
    (h : animationFrames n frames endMarker s = .next s') : OutputsFollowLatches s s' := by
  unfold animationFrames at h
  split at h
  · exact raiseError_outputs h
  · split at h
    · exact raiseError_outputs h
    · split at h
      · exact finishCommand_outputs (commitAnimation_outputs n frames) h
      · exact raiseError_outputs h

theorem execAnimation_outputs {count : Option Byte} {frames : List Frame} {endMarker : Option Byte} {s s' : State}
    (h : execAnimation count frames endMarker s = .next s') : OutputsFollowLatches s s' := by
  unfold execAnimation at h
  split at h
  · exact raiseError_outputs h
  · split at h
    · exact animationFrames_outputs h
    · exact raiseError_outputs h

theorem execBrightness_outputs {b : Option Byte} {s s' : State} (h : execBrightness b s = .next s') :
    OutputsFollowLatches s s' := by
  cases b with
  | none => exact raiseError_outputs h
  | some b => exact finishCommand_outputs (setBrightness_outputs b) h

theorem execIgnored_outputs {m : Byte} {s s' : State} (h : execIgnored m s = .next s') : OutputsFollowLatches s s' := by
  have hnote : OutputsFollowLatches s (diagnosticOnUnknown (note (.error .unknownMarker none) s)) :=
    .of_event (e := .error .unknownMarker none) rfl rfl rfl
  exact hnote.trans (.of_time (elapse_next h))

theorem runCommand_outputs {c : Command} {s s' : State} (h : runCommand c s = .next s') :
    OutputsFollowLatches s s' := by
  cases c with
  | singleFrame rows e => exact execSingleFrame_outputs h
  | animation n frames e => exact execAnimation_outputs h
  | brightness b => exact execBrightness_outputs h
  | ignored m => exact execIgnored_outputs (m := m) h

theorem execHandleCommand_outputs {m : Byte} {s s' : State} (h : execHandleCommand m s = .next s') :
    OutputsFollowLatches s s' := by
  obtain ⟨⟨c, u⟩, hu, h⟩ := andThen_eq_next.1 h
  have hreceive := receive_next (receiveCommand_next hu).1
  exact (OutputsFollowLatches.of_reception hreceive).trans (runCommand_outputs h)

theorem execPoll_outputs {s s' : State} (h : execPoll s = .next s') : OutputsFollowLatches s s' := by
  obtain ⟨⟨marker, u⟩, hu, h⟩ := andThen_eq_next.1 h
  have htake := OutputsFollowLatches.of_reception (takeMarker_next hu).1
  cases marker with
  | none => exact htake.trans (.of_time (elapse_next h))
  | some m => exact htake.trans (execHandleCommand_outputs h)

/-! ## The scanner, the scheduler and the main loop -/

/-- A SHIFT moves the shift stage and not the outputs. -/
theorem shiftBit_outputs {d : Bool} {s s' : State} (h : shiftBit d s = .next s') : OutputsFollowLatches s s' := by
  have hshift : OutputsFollowLatches s { s with chain := chainShift d s.chain } := .of_kept rfl rfl
  exact hshift.trans (.of_time (elapse_next h))

theorem latchOutputs_outputs {s s' : State} (h : latchOutputs s = .next s') : OutputsFollowLatches s s' := by
  have hlatch : OutputsFollowLatches s
      (note (.latched s.chain.sr s.clock.t) { s with chain := chainLatch s.chain }) := .of_latch rfl rfl
  exact hlatch.trans (.of_time (elapse_next h))

theorem outputBits_outputs {bits : List Bool} {s s' : State} (h : outputBits bits s = .next s') :
    OutputsFollowLatches s s' := by
  obtain ⟨τ, -, -, htime⟩ := outputBits_next h
  exact .of_latch (w := (chainBits bits s.chain).sr) (τ := τ) (by rw [htime.rest]; rfl) (by rw [htime.rest])

theorem execHold_outputs {s s' : State} (h : execHold s = .next s') : OutputsFollowLatches s s' :=
  .of_time (pass_next h).1

theorem execAdvance_outputs {s s' : State} (h : execAdvance s = .next s') : OutputsFollowLatches s s' := by
  have hrow : OutputsFollowLatches s { s with seq.currentRow := s.seq.currentRow + 1 } := .of_kept rfl rfl
  exact hrow.trans (.of_time (elapse_next h))

theorem setScanphase_outputs (p : ScanPhase) (s : State) : OutputsFollowLatches s (setScanphase p s) := .of_kept rfl rfl

theorem setPhase_outputs (p : Phase) (s : State) : OutputsFollowLatches s (setPhase p s) := .of_kept rfl rfl

theorem execScanStep_outputs {s s' : State} (h : execScanStep s = .next s') : OutputsFollowLatches s s' := by
  obtain ⟨u, hassert, h⟩ := andThen_eq_next.1 h
  obtain ⟨v, hhold, h⟩ := andThen_eq_next.1 h
  obtain ⟨w, hblank, hadvance⟩ := andThen_eq_next.1 h
  have hu := (setScanphase_outputs .assert s).trans (outputBits_outputs hassert)
  have hv := (setScanphase_outputs .hold u).trans (execHold_outputs hhold)
  have hw := (setScanphase_outputs .blank v).trans (outputBits_outputs hblank)
  have hs' := (setScanphase_outputs .advance w).trans (execAdvance_outputs hadvance)
  exact ((hu.trans hv).trans hw).trans hs'

theorem execAnimTick_outputs {s s' : State} (h : execAnimTick s = .next s') : OutputsFollowLatches s s' := by
  have hadvance : OutputsFollowLatches s (if tickDue s then advanceFrame s else s) := by
    split
    · exact .of_kept rfl rfl
    · exact .refl s
  exact hadvance.trans (.of_time (elapse_next h))

theorem execMainLoop_outputs {s s' : State} (h : execMainLoop s = .next s') : OutputsFollowLatches s s' := by
  obtain ⟨u, hpoll, h⟩ := andThen_eq_next.1 h
  obtain ⟨v, hscan, h⟩ := andThen_eq_next.1 h
  obtain ⟨w, htick, h⟩ := andThen_eq_next.1 h
  cases h
  have hu := (setPhase_outputs .poll s).trans (execPoll_outputs hpoll)
  have hv := (setPhase_outputs .scan u).trans (execScanStep_outputs hscan)
  have hw := (setPhase_outputs .tick v).trans (execAnimTick_outputs htick)
  exact ((hu.trans hv).trans hw).trans (setPhase_outputs .poll w)

theorem execCritical_outputs {edge : CriticalEdge} {s s' : State} (h : execCritical edge s = .next s') :
    OutputsFollowLatches s s' := by
  cases edge with
  | enter =>
    have henter : OutputsFollowLatches s (enterCritical s) := .of_kept rfl rfl
    exact henter.trans (.of_time (elapse_next h))
  | leave =>
    have hleave : OutputsFollowLatches s (leaveCritical s) := .of_kept rfl rfl
    exact hleave.trans (.of_time (elapse_next h))

/-! ## Every instruction -/

theorem exec_outputs {i : Instr} {s s' : State} (h : exec i s = .next s') : OutputsFollowLatches s s' := by
  cases i with
  | singleFrame rows e => exact execSingleFrame_outputs h
  | animation n frames e => exact execAnimation_outputs h
  | brightness b => exact execBrightness_outputs h
  | ignored m => exact execIgnored_outputs (m := m) h
  | rowActivate c row => exact outputBits_outputs h
  | blank => exact outputBits_outputs h
  | mainLoop => exact execMainLoop_outputs h
  | poll => exact execPoll_outputs h
  | handleCommand m => exact execHandleCommand_outputs h
  | readBytes k => exact .of_reception (readBytes_next h).1
  | abort e cmd => exact raiseError_outputs h
  | commitStatic t => exact (commitStatic_outputs t s).trans (.of_time (elapse_next h))
  | commitAnimation n g => exact (commitAnimation_outputs n g s).trans (.of_time (elapse_next h))
  | clearAnimation => exact (clearAnimation_outputs s).trans (.of_time (elapse_next h))
  | setRender f =>
    have hrender : OutputsFollowLatches s (writeRender f s) := .of_kept rfl rfl
    exact hrender.trans (.of_time (elapse_next h))
  | setBrightness b => exact (setBrightness_outputs b s).trans (.of_time (elapse_next h))
  | scanStep => exact execScanStep_outputs h
  | assert => exact outputBits_outputs h
  | shift d => exact shiftBit_outputs h
  | latch => exact latchOutputs_outputs h
  | hold => exact execHold_outputs h
  | blankStep => exact outputBits_outputs h
  | advance => exact execAdvance_outputs h
  | animTick => exact execAnimTick_outputs h
  | critical edge => exact execCritical_outputs h

/-- Settles O46: every instruction is made of operations that keep the trace and the outputs in step, and only a LATCH
writes the outputs. -/
theorem outputsChangeOnlyAtALatch : Obligations.OutputsChangeOnlyAtALatch := by
  unfold Obligations.OutputsChangeOnlyAtALatch
  intro i s s' h
  exact exec_outputs h

end Sys2Proof.Machine
end

section
/-! PROOFS of the family 30_encoding: the map of first bytes (30 R102). One equation of `decodeCommand` for each branch of
the map, and the kind of command that each of the two longer decoders answers whatever bytes follow. -/

namespace Sys2Proof

/-! ## The map of first bytes, branch by branch -/

@[simp] theorem decodeCommand_mSingle (bs : List Byte) : decodeCommand Config.mSingle bs = decodeSingleFrame bs := rfl

@[simp] theorem decodeCommand_mAnim (bs : List Byte) : decodeCommand Config.mAnim bs = decodeAnimation bs := rfl

@[simp] theorem decodeCommand_mBright (bs : List Byte) :
    decodeCommand Config.mBright bs = (.brightness (takeByte bs).1, (takeByte bs).2) := rfl

theorem decodeCommand_ignored {m : Byte} (bs : List Byte) (hs : m ≠ Config.mSingle) (ha : m ≠ Config.mAnim)
    (hb : m ≠ Config.mBright) : decodeCommand m bs = (.ignored m, bs) := by
  rw [decodeCommand, if_neg hs, if_neg ha, if_neg hb]

/-! ## The kind of command each decoder answers -/

theorem decodeSingleFrame_kind (bs : List Byte) : ∃ rows e, (decodeSingleFrame bs).1 = .singleFrame rows e := by
  unfold decodeSingleFrame
  split
  · exact ⟨none, none, rfl⟩
  next f rest _ => exact ⟨some f, (takeByte rest).1, rfl⟩

theorem decodeFrames_kind (n : Byte) (bs : List Byte) : ∃ fs e, (decodeFrames n bs).1 = .animation (some n) fs e := by
  unfold decodeFrames
  split
  next fs after _ =>
    split
    · exact ⟨fs, (takeByte after).1, rfl⟩
    · exact ⟨fs, none, rfl⟩

theorem decodeAnimation_kind (bs : List Byte) : ∃ n fs e, (decodeAnimation bs).1 = .animation n fs e := by
  cases bs with
  | nil => exact ⟨none, [], none, rfl⟩
  | cons n rest =>
    simp only [decodeAnimation]
    split
    · exact ⟨some n, decodeFrames_kind n rest⟩
    · exact ⟨some n, [], none, rfl⟩

/-- Settles O1: the decoder answers what the map of first bytes gives, and each branch of the map fixes the kind. -/
theorem everyFirstByteBeginsItsCommand : Obligations.EveryFirstByteBeginsItsCommand := by
  unfold Obligations.EveryFirstByteBeginsItsCommand
  intro m bs
  refine ⟨(decodeCommand m bs).1, (decodeCommand m bs).2, rfl, ?single, ?anim, ?bright, ?ignored⟩
  case single => rintro rfl; rw [decodeCommand_mSingle]; exact decodeSingleFrame_kind bs
  case anim => rintro rfl; rw [decodeCommand_mAnim]; exact decodeAnimation_kind bs
  case bright => rintro rfl; rw [decodeCommand_mBright]; exact ⟨(takeByte bs).1, rfl⟩
  case ignored =>
    intro hs ha hb
    rw [decodeCommand_ignored bs hs ha hb]
    exact ⟨rfl, rfl⟩

end Sys2Proof
end

section
/-! PROOFS of the family 41_frame_store: SET_RENDER replaces the whole of `RB` (41 R164). The write reaches no byte of the
stream, so the host is still paced in the time after it, and that time completes. -/

namespace Sys2Proof.Machine

theorem exec_setRender (f : Frame) (s : State) : exec (.setRender f) s = elapse (writeRender f s) := rfl

theorem paced_writeRender (f : Frame) {s : State} (h : Paced s) : Paced (writeRender f s) := by
  have hstream : stream (writeRender f s) = stream s := by simp [stream]
  exact paced_mono h (writeRender_params f s) (by rw [hstream])

/-- Settles O32: SET_RENDER is the write of all of `RB` and the passing of time, which completes for a paced host. -/
theorem setRenderReplacesTheWholeFrame : Obligations.SetRenderReplacesTheWholeFrame := by
  unfold Obligations.SetRenderReplacesTheWholeFrame
  intro s f h
  rw [exec_setRender]
  exact elapse_completes (paced_writeRender f h)

end Sys2Proof.Machine
end

section
/-! PROOFS of the family 42_display_scanner: ADVANCE moves to the next row (42 R187). The addition is in three bits, so it
wraps at 8; the write of `currentRow` reaches no byte of the stream, so the time after it completes for a paced host. -/

namespace Sys2Proof.Machine

theorem exec_advance (s : State) :
    exec .advance s = elapse { s with seq := { s.seq with currentRow := s.seq.currentRow + 1 } } := rfl

/-- The pacing premise does not read `seq`. -/
theorem paced_withSeq {s : State} (h : Paced s) (q : Sequencer) : Paced { s with seq := q } := h

/-- Settles O43: ADVANCE is the write of `currentRow + 1`, in three bits, and the passing of time. -/
theorem advanceMovesToTheNextRow : Obligations.AdvanceMovesToTheNextRow := by
  unfold Obligations.AdvanceMovesToTheNextRow
  intro s h
  obtain ⟨s', hs', htime⟩ := elapse_completes (paced_withSeq h { s.seq with currentRow := s.seq.currentRow + 1 })
  have hrow : s'.seq.currentRow = s.seq.currentRow + 1 := by rw [htime.rest]
  refine ⟨s', (exec_advance s).trans hs', ?frame, ?row⟩
  case frame => rw [hrow]; exact htime
  case row => rw [hrow]; exact BitVec.toNat_add s.seq.currentRow 1

end Sys2Proof.Machine
end

section
/-! PROOFS of the family 43_animation_scheduler: the tick check while no animation is active (43 R214). A tick that is not
due writes nothing, so all that is left of ANIM_TICK is the time it takes, which completes for a paced host. -/

namespace Sys2Proof.Machine

theorem tickDue_of_inactive {s : State} (h : s.anim.active = false) : tickDue s = false := by
  rw [tickDue, h, Bool.false_and]

theorem exec_animTick (s : State) : exec .animTick s = elapse (if tickDue s then advanceFrame s else s) := rfl

theorem exec_animTick_of_not_due {s : State} (h : tickDue s = false) : exec .animTick s = elapse s := by
  rw [exec_animTick, h, if_neg Bool.false_ne_true]

/-- Settles O48: no tick is due while `active` is false, so the check only takes time. -/
theorem tickDoesNothingWhileInactive : Obligations.TickDoesNothingWhileInactive := by
  unfold Obligations.TickDoesNothingWhileInactive
  intro s hpaced hinactive
  rw [exec_animTick_of_not_due (tickDue_of_inactive hinactive)]
  exact elapse_completes hpaced

end Sys2Proof.Machine
end

section
/-! PROOFS of the family 60_exceptions: a SINGLE_FRAME that fails changes nothing (60 R263, R256). One equation for each
check of the command, in their order; each ends in the abort sequence, whose writes for this command are those of the
receiver and the ghost event alone. -/

namespace Sys2Proof.Machine

/-! ## Which check fails -/

theorem exec_singleFrame_of_rows_missing (e : Option Byte) (s : State) :
    exec (.singleFrame none e) s = raiseError .readTimeout .singleFrame s := rfl

theorem exec_singleFrame_of_end_missing (f : Frame) (s : State) :
    exec (.singleFrame (some f) none) s = raiseError .readTimeout .singleFrame s := rfl

theorem exec_singleFrame_of_end_wrong (f : Frame) {b : Byte} (s : State) (hb : b ≠ Config.mSingleEnd) :
    exec (.singleFrame (some f) (some b)) s = raiseError .invalidEndMarker .singleFrame s := if_neg hb

/-! ## What its abort does -/

theorem returnToLoop_abortWrites_singleFrame (kind : ErrorKind) (s : State) :
    returnToLoop (abortWrites kind .singleFrame s) =
      { s with seq.rxstate := .idle, rx.stage := [], trace := .error kind (some .singleFrame) :: s.trace } := rfl

/-- Settles O17: whichever check fails, the command is the abort sequence with the error of that check, which completes
for a paced host and writes nothing but the receiver's state and the ghost event. -/
theorem failedSingleFrameChangesNothing : Obligations.FailedSingleFrameChangesNothing := by
  unfold Obligations.FailedSingleFrameChangesNothing
  intro s rows e kind hpaced hfails
  have habort : exec (.singleFrame rows e) s = raiseError kind .singleFrame s := by
    obtain ⟨rfl, rfl⟩ | ⟨f, rfl, rfl, rfl⟩ | ⟨f, b, rfl, rfl, hb, rfl⟩ := hfails
    · exact exec_singleFrame_of_rows_missing e s
    · exact exec_singleFrame_of_end_missing f s
    · exact exec_singleFrame_of_end_wrong f s hb
  rw [habort, ← returnToLoop_abortWrites_singleFrame]
  exact raiseError_completes kind .singleFrame hpaced

end Sys2Proof.Machine
end

section
/-! PROOFS of the family "other", encoding (30 R90 to R101, 20 R67): a command's bytes decode to it and to nothing more.
The Frames of a payload are taken back whole however many were expected; the two bytes of a chain word are its two halves,
and a row-select byte names exactly one row. -/

namespace Sys2Proof

open Sys2Proof.Machine

/-! ## The Frames of a payload -/

/-- If fewer Frames follow than are expected, all of them are taken and nothing is left. -/
theorem takeFrames_of_length_le : ∀ {n : Nat} (fs : List Frame), fs.length ≤ n → takeFrames n (framesBytes fs) = (fs, [])
  | 0, [], _ => rfl
  | _ + 1, [], _ => rfl
  | n + 1, f :: fs, h => by
    rw [framesBytes, takeFrames, takeFrame_bytes]
    simp only [takeFrames_of_length_le fs (Nat.le_of_succ_le_succ h)]

theorem decodeFrames_whole {n : Byte} {fs : List Frame} (h : fs.length = n.toNat) (after : List Byte) :
    decodeFrames n (framesBytes fs ++ after) = (.animation (some n) fs (takeByte after).1, (takeByte after).2) := by
  have htake : takeFrames n.toNat (framesBytes fs ++ after) = (fs, after) := h ▸ takeFrames_bytes fs after
  rw [decodeFrames, htake]
  exact if_pos h

theorem decodeFrames_cut {n : Byte} {fs : List Frame} (h : fs.length < n.toNat) :
    decodeFrames n (framesBytes fs) = (.animation (some n) fs none, []) := by
  rw [decodeFrames, takeFrames_of_length_le fs h.le]
  exact if_neg h.ne

theorem decodeAnimation_accepted {n : Byte} (h : countAccepted n = true) (bs : List Byte) :
    decodeAnimation (n :: bs) = decodeFrames n bs := if_pos h

theorem decodeAnimation_rejected {n : Byte} (h : ¬ countAccepted n = true) (bs : List Byte) :
    decodeAnimation (n :: bs) = (.animation (some n) [] none, bs) := if_neg h

/-! ## Whole commands -/

theorem ne_of_not_isStartMarker {m : Byte} (h : isStartMarker m = false) :
    m ≠ Config.mSingle ∧ m ≠ Config.mAnim ∧ m ≠ Config.mBright := by
  simpa [isStartMarker, and_assoc] using h

theorem decodeCommand_not_marker {m : Byte} (h : isStartMarker m = false) (bs : List Byte) :
    decodeCommand m bs = (.ignored m, bs) := by
  obtain ⟨hs, ha, hb⟩ := ne_of_not_isStartMarker h
  exact decodeCommand_ignored bs hs ha hb

/-- The bytes of a command sent whole decode to it, and what comes after them is left. -/
theorem decodeCommand_whole {c : Command} {m : Byte} {ops : List Byte} (hc : wholeCommand c = true)
    (hb : c.bytes = m :: ops) (rest : List Byte) : decodeCommand m (ops ++ rest) = (c, rest) := by
  cases c with
  | singleFrame rows e =>
    simp only [wholeCommand, Bool.and_eq_true, Option.isSome_iff_exists] at hc
    obtain ⟨⟨f, rfl⟩, ⟨e, rfl⟩⟩ := hc
    cases hb
    rfl
  | animation n fs e =>
    cases n with
    | none => cases hc
    | some n =>
      cases hb
      simp only [wholeCommand] at hc
      by_cases hn : countAccepted n = true
      · simp only [if_pos hn, Bool.and_eq_true, beq_iff_eq, Option.isSome_iff_exists] at hc
        obtain ⟨hlen, e, rfl⟩ := hc
        simp only [decodeCommand_mAnim, Option.toList_some, List.cons_append, List.nil_append, List.append_assoc]
        rw [decodeAnimation_accepted hn, decodeFrames_whole hlen]
        rfl
      · simp only [if_neg hn, Bool.and_eq_true, List.isEmpty_iff, Option.isNone_iff_eq_none] at hc
        obtain ⟨rfl, rfl⟩ := hc
        exact decodeAnimation_rejected hn rest
  | brightness b =>
    obtain ⟨b, rfl⟩ := Option.isSome_iff_exists.1 hc
    cases hb
    rfl
  | ignored m' =>
    cases hb
    exact decodeCommand_not_marker (by simpa [wholeCommand] using hc) rest

theorem Command.bytes_eq_cons (c : Command) : ∃ m ops, c.bytes = m :: ops := by
  cases c <;> exact ⟨_, _, rfl⟩

/-- Settles O2: the first byte names the decoder, which takes the operands back and leaves the rest. -/
theorem wholeCommandDecodesUpToItsEnd : Obligations.WholeCommandDecodesUpToItsEnd := by
  unfold Obligations.WholeCommandDecodesUpToItsEnd
  intro c rest hc
  obtain ⟨m, ops, hb⟩ := c.bytes_eq_cons
  rw [hb, List.cons_append, decode, decodeCommand_whole hc hb]

/-! ## Chain words -/

theorem bitrev8_bitrev8 (c : Byte) : bitrev8 (bitrev8 c) = c := by
  refine BitVec.eq_of_getLsbD_eq fun i hi => ?_
  rw [bitrev8_getLsbD _ i hi, bitrev8_getLsbD _ (7 - i) (by omega)]
  congr 1
  omega

theorem selectedRow_rowSelect : ∀ row : RowIndex, selectedRow (rowSelect row) = some row := by decide

theorem eq_rowSelect_of_selectedRow {r : Byte} {row : RowIndex} (h : selectedRow r = some row) : r = rowSelect row := by
  unfold selectedRow at h
  split at h <;> cases h <;> rfl

theorem rowSelect_ne_zero : ∀ row : RowIndex, rowSelect row ≠ 0 := by decide

/-- The column byte is the high half of the word, the row-select byte the low half (30 R100). -/
theorem append_column (hi lo : Byte) : (hi ++ lo : ChainWord).extractLsb' 8 8 = hi := BitVec.extractLsb'_append_eq_left

theorem append_row (hi lo : Byte) : (hi ++ lo : ChainWord).extractLsb' 0 8 = lo := BitVec.extractLsb'_append_eq_right

theorem halves_append (w : ChainWord) : w.extractLsb' 8 8 ++ w.extractLsb' 0 8 = w :=
  BitVec.extractLsb'_append_extractLsb' (w := 8) (len := 8)

theorem rowWord_ne_zero (c : Byte) (row : RowIndex) : rowWord c row ≠ 0 := by
  intro h
  refine rowSelect_ne_zero row ?_
  rw [← append_row (bitrev8 c) (rowSelect row), ← rowWord, h]
  rfl

@[simp] theorem decodeChainWord_zero : decodeChainWord 0 = .ok .blank := rfl

@[simp] theorem decodeChainWord_rowWord (c : Byte) (row : RowIndex) :
    decodeChainWord (rowWord c row) = .ok (.rowActivate c row) := by
  rw [decodeChainWord, if_neg (rowWord_ne_zero c row), rowWord, append_row, append_column, selectedRow_rowSelect,
    bitrev8_bitrev8]

/-- What a chain word that decodes is. -/
theorem decodeChainWord_eq_ok {w : ChainWord} {i : Instr} (h : decodeChainWord w = .ok i) :
    (w = 0 ∧ i = .blank) ∨ ∃ c row, w = rowWord c row ∧ i = .rowActivate c row := by
  unfold decodeChainWord at h
  split at h
  · next hw => exact .inl ⟨hw, (Except.ok.inj h).symm⟩
  · split at h
    · next row hrow =>
      refine .inr ⟨bitrev8 (w.extractLsb' 8 8), row, ?_, (Except.ok.inj h).symm⟩
      rw [rowWord, bitrev8_bitrev8, ← eq_rowSelect_of_selectedRow hrow, halves_append]
    · cases h

/-- Settles O4: the two halves of a word that decodes are read back from it. -/
theorem chainWordDecodesExactlyIfScanned : Obligations.ChainWordDecodesExactlyIfScanned := by
  unfold Obligations.ChainWordDecodesExactlyIfScanned
  intro w i
  constructor
  · exact decodeChainWord_eq_ok
  · rintro (⟨rfl, rfl⟩ | ⟨c, row, rfl, rfl⟩)
    · exact decodeChainWord_zero
    · exact decodeChainWord_rowWord c row

/-- Settles O5, by evaluation of the decoders. -/
theorem writtenOutWordsDecode : Obligations.WrittenOutWordsDecode := by
  unfold Obligations.WrittenOutWordsDecode
  decide

/-- Settles O41: each half of the word is read where the layout puts it, and a byte reversed twice is itself. -/
theorem pairIsRecoveredFromTheWord : Obligations.PairIsRecoveredFromTheWord := by
  unfold Obligations.PairIsRecoveredFromTheWord
  intro c row
  exact ⟨append_row _ _, (congrArg bitrev8 (append_column _ _)).trans (bitrev8_bitrev8 c), append_column _ _,
    (congrArg bitrev8 (append_row _ _)).trans (bitrev8_bitrev8 c), bitrev8_getLsbD c⟩

/-! ## Every instruction that has words -/

/-- A command as the model holds it, cut short or whole, is decoded from the bytes that arrived (log 20). -/
theorem decode_command_bytes {c : Command} (h : WellFormed c.toInstr) : decode c.bytes = .ok (c.toInstr, []) := by
  have whole : wholeCommand c = true → decode c.bytes = .ok (c.toInstr, []) := fun hc => by
    simpa using wholeCommandDecodesUpToItsEnd c [] hc
  cases c with
  | singleFrame rows e =>
    cases rows with
    | none =>
      cases e with
      | none => rfl
      | some e => cases h
    | some f => cases e <;> rfl
  | animation n fs e =>
    cases n with
    | none =>
      simp only [WellFormed, Command.toInstr, Instr.wellFormed, wellFormedAnimation, Bool.and_eq_true, List.isEmpty_iff,
        Option.isNone_iff_eq_none] at h
      obtain ⟨rfl, rfl⟩ := h
      rfl
    | some n =>
      simp only [WellFormed, Command.toInstr, Instr.wellFormed, wellFormedAnimation] at h
      by_cases hn : countAccepted n = true
      · rw [if_pos hn] at h
        cases e with
        | some e => exact whole (by simpa [wholeCommand, hn] using h)
        | none =>
          have hlen : fs.length ≤ n.toNat := by simpa using h
          have hdec : decodeFrames n (framesBytes fs) = (.animation (some n) fs none, []) := by
            rcases hlen.lt_or_eq with hlt | heq
            · exact decodeFrames_cut hlt
            · simpa [takeByte] using decodeFrames_whole heq []
          simp only [Command.bytes, Option.toList_some, Option.toList_none, List.append_nil, List.singleton_append, decode,
            decodeCommand_mAnim, decodeAnimation_accepted hn, hdec]
      · rw [if_neg hn] at h
        exact whole (by simpa [wholeCommand, hn] using h)
  | brightness b => cases b <;> rfl
  | ignored m => exact whole h

/-- Settles O3: the words of an instruction are a command's bytes or a chain word, and both are read back. -/
theorem encodedInstructionDecodesBack : Obligations.EncodedInstructionDecodesBack := by
  unfold Obligations.EncodedInstructionDecodesBack
  intro i words hwf henc
  have command : ∀ c : Command, i = c.toInstr → words = .stream c.bytes → words.decode = .ok (i, []) := by
    rintro c rfl rfl
    exact decode_command_bytes hwf
  cases i with
  | singleFrame rows e => exact command (.singleFrame rows e) rfl (Option.some.inj henc).symm
  | animation n frames e => exact command (.animation n frames e) rfl (Option.some.inj henc).symm
  | brightness b => exact command (.brightness b) rfl (Option.some.inj henc).symm
  | ignored m => exact command (.ignored m) rfl (Option.some.inj henc).symm
  | rowActivate c row =>
    cases henc
    simp only [Code.decode, decodeChainWord_rowWord]
  | blank =>
    cases henc
    rfl
  | _ => cases henc

end Sys2Proof
end

section
/-! PROOFS of the family "other", what every instruction keeps and where it can stop (93 U7, 45 R233, 60 R250; 10 R37, R43,
R46). One relation, `Answers`, says both: an operation answers a state that keeps what `Kept` lists, or it stops on the
overrun, for which the host must be unpaced. It passes through sequencing, so each operation has it from its parts, and
the delivery of arrivals is the one place where it is proved of a stop. -/

namespace Sys2Proof.Machine

/-! ## The writes of the frame store as one update each -/

theorem clearAnimation_eq (s : State) : clearAnimation s =
    { s with
      store := { s.store with ab := [], rb := if s.params.renderOnAnimAbort = .keep then s.store.rb else s.store.si }
      anim := { s.anim with active := false, frameCount := 0, currentFrameIndex := 0 }
      ie := true, trace := .cleared (shownFrame s) :: s.trace } := by
  cases h : s.params.renderOnAnimAbort <;>
    simp only [clearAnimation, atomically, renderOnAbort, enterCritical, deactivate, h] <;> rfl

theorem abortWrites_animation (e : ErrorKind) (s : State) : abortWrites e .animation s =
    clearAnimation
      { s with seq.rxstate := .abort, rx.stage := [], trace := .error e (some .animation) :: s.trace } := rfl

/-! ## What every operation keeps -/

/-- `RXQ` is within its depth (10 R42). -/
def Room (s : State) : Prop := ∀ d, s.params.rxFifoDepth = some d → s.link.rxq.length ≤ d

/-- The parameters are as they were, time has not gone back, the stream and the bytes still to come have lost bytes at
their front only, `TXQ` has only grown, and `RXQ` is still within its depth. -/
structure Kept (s s' : State) : Prop where
  params  : s'.params = s.params
  forward : s.clock.t ≤ s'.clock.t
  taken   : ∃ bs, stream s = bs ++ stream s'
  host    : s'.link.hostStream <:+ s.link.hostStream
  grown   : s.tx.txq <+: s'.tx.txq
  room    : Room s → Room s'

theorem Kept.refl (s : State) : Kept s s := ⟨rfl, le_rfl, ⟨[], rfl⟩, List.suffix_rfl, List.prefix_rfl, id⟩

theorem Kept.trans {a b c : State} (h : Kept a b) (k : Kept b c) : Kept a c := by
  obtain ⟨x, hx⟩ := h.taken
  obtain ⟨y, hy⟩ := k.taken
  exact ⟨k.params.trans h.params, h.forward.trans k.forward, ⟨x ++ y, by rw [hx, hy, List.append_assoc]⟩,
    k.host.trans h.host, h.grown.trans k.grown, k.room ∘ h.room⟩

/-- A write that does not reach the receive queue. -/
theorem Kept.of_write {s s' : State} (hparams : s'.params = s.params) (hlink : s'.link = s.link)
    (hclock : s.clock.t ≤ s'.clock.t) (htx : s.tx.txq <+: s'.tx.txq) : Kept s s' :=
  ⟨hparams, hclock, ⟨[], by simp [stream, hlink]⟩, by rw [hlink], htx, by simp [Room, hparams, hlink]⟩

/-- A write that reaches none of what `Kept` speaks of. -/
theorem Kept.of_apart {s s' : State} (hparams : s'.params = s.params := by rfl) (hlink : s'.link = s.link := by rfl)
    (hclock : s'.clock = s.clock := by rfl) (htx : s'.tx = s.tx := by rfl) : Kept s s' :=
  .of_write hparams hlink (by rw [hclock]) (by rw [htx])

theorem Kept.paced {s s' : State} (h : Kept s s') (hp : Paced s) : Paced s' := by
  obtain ⟨bs, hbs⟩ := h.taken
  exact paced_mono hp h.params (by simp [hbs])

/-! ## Where an operation can stop -/

/-- From `s` the operation answers, with a state that keeps what `Kept` lists, or it stops on the overrun, and then the
host is not paced; it refuses nothing. -/
def Answers {α : Type} (state : α → State) (s : State) (o : Result α) : Prop :=
  (∃ a, o = .next a ∧ Kept s (state a)) ∨ (o = .fault .rxOverrun ∧ ¬ Paced s)

section

variable {α β : Type} {state : α → State} {state' : β → State} {s u : State}

theorem Answers.next {a : α} (h : Kept s (state a)) : Answers state s (.next a) := .inl ⟨a, rfl, h⟩

/-- What comes before an operation may be counted to it. -/
theorem Answers.of_kept {o : Result α} (h : Kept s u) (k : Answers state u o) : Answers state s o := by
  obtain ⟨a, ha, hk⟩ | ⟨ho, hp⟩ := k
  · exact .inl ⟨a, ha, h.trans hk⟩
  · exact .inr ⟨ho, fun hs => hp (h.paced hs)⟩

theorem Answers.andThen {o : Result α} {f : α → Result β} (h : Answers state s o)
    (k : ∀ a, Answers state' (state a) (f a)) : Answers state' s (andThen o f) := by
  obtain ⟨a, rfl, hk⟩ | ⟨rfl, hp⟩ := h
  · exact .of_kept hk (k a)
  · exact .inr ⟨rfl, hp⟩

end

theorem Answers.kept {α : Type} {state : α → State} {s : State} {a : α} {o : Result α} (h : Answers state s o)
    (ho : o = .next a) : Kept s (state a) := by
  obtain ⟨b, rfl, hk⟩ | ⟨rfl, -⟩ := h
  · cases ho
    exact hk
  · cases ho

/-! ## Time and arrivals -/

/-- What has joined `RXQ` was at the front of what was still to come. -/
theorem OnlyTime.host {s s' : State} (h : OnlyTime s s') : s'.link.hostStream <:+ s.link.hostStream := by
  obtain ⟨q, hq⟩ := h.queued
  have hkept := h.kept
  rw [stream, stream, ← hq, List.append_assoc] at hkept
  exact ⟨q, List.append_cancel_left hkept⟩

theorem deliver_answers (s : State) : Answers id s (deliver s) := by
  cases h : deliver s with
  | next s' =>
    obtain ⟨htime, -, -⟩ := deliver_next h
    refine .next ⟨by rw [id, htime.rest], htime.forward, ⟨[], htime.kept.symm⟩, htime.host, by rw [id, htime.rest], ?_⟩
    intro hroom d hd
    unfold deliver at h
    split at h <;> cases h
    next l hl =>
      have hdepth : s.params.rxFifoDepth = some d := hd
      rw [hdepth] at hl
      exact arrive_bound hl (hroom d hdepth)
  | fault r =>
    refine .inr ⟨rfl, fun hp => ?_⟩
    obtain ⟨s', hs'⟩ := deliver_completes hp
    rw [h] at hs'
    cases hs'
  | refused r =>
    unfold deliver at h
    split at h <;> cases h

theorem pass_answers (us : Nat) (s : State) : Answers id s (pass us s) :=
  .of_kept (u := { s with clock := clockAfter us s.clock })
    (.of_write rfl rfl ((Nat.le_add_right _ us).trans (clockAfter_t us s.clock)) List.prefix_rfl) (deliver_answers _)

theorem elapse_answers (s : State) : Answers id s (elapse s) := pass_answers 0 s

theorem elapseUntil_answers (limit : Nat) (s : State) : Answers id s (elapseUntil limit s) :=
  .of_kept (u := { s with clock := clockUntil limit s.clock })
    (.of_write rfl rfl (clockUntil_t limit s.clock).1 List.prefix_rfl) (deliver_answers _)

/-- A write apart from what `Kept` speaks of, and the time an operation takes after it. -/
theorem elapse_answers_apart {s u : State} (h : Kept s u := by exact .of_apart) : Answers id s (elapse u) :=
  .of_kept h (elapse_answers u)

/-! ## The read -/

theorem removeOldest_kept {s s' : State} {b : Byte} (h : removeOldest s = some (b, s')) : Kept s s' := by
  obtain ⟨a, ha, hs⟩ := removeOldest_eq_some h
  obtain ⟨honly, -⟩ := removeOldest_stream h
  refine ⟨by rw [hs], honly.forward, honly.taken, by rw [hs], by rw [hs], fun hroom d hd => ?_⟩
  have := hroom d (by rw [← hd, hs])
  rw [ha, List.length_cons] at this
  omega

theorem setTime_kept {t : Nat} {s : State} (h : s.clock.t ≤ t) : Kept s (setTime t s) :=
  .of_write rfl rfl h List.prefix_rfl

theorem awaitByte_answers (s : State) : Answers Prod.snd s (awaitByte s) := by
  refine (deliver_answers s).andThen fun u => ?_
  simp only [id]
  split
  · next hv => exact .next (removeOldest_kept hv)
  · split
    · exact .next (setTime_kept (le_max_left _ _))
    · split
      · refine .of_kept (setTime_kept (le_max_left _ _)) ((deliver_answers _).andThen fun v => ?_)
        simp only [id]
        split
        · next hw => exact .next (removeOldest_kept hw)
        · exact .next (.refl v)
      · exact .next (setTime_kept (le_max_left _ _))

theorem restartRead_kept (s : State) : Kept s (restartRead s) := by
  unfold restartRead
  split
  · exact .refl s
  · exact .of_apart

theorem readLoop_answers : ∀ (k : Nat) (got : List Byte) (limit : Nat) (s : State),
    Answers id s (readLoop k got limit s)
  | 0, got, limit, s => .of_kept (.of_apart) (elapseUntil_answers limit _)
  | k + 1, got, limit, s => by
    refine .of_kept (restartRead_kept s) ((awaitByte_answers _).andThen ?_)
    rintro ⟨_ | b, u⟩
    · exact .next (.of_apart)
    · exact readLoop_answers k _ _ u

theorem readBytes_answers (k : Nat) (s : State) : Answers id s (readBytes k s) :=
  .of_kept (.of_apart) (readLoop_answers k [] (readLimit s) _)

theorem readOperand_answers (k : Nat) (s : State) : Answers id s (readOperand k s) :=
  (readBytes_answers k s).andThen elapse_answers

/-! ## Reception -/

theorem stageRead_kept (s : State) : Kept s (stageRead s) := by
  unfold stageRead
  split
  · exact .of_apart
  · exact .refl s

theorem readPayload_answers (k : Nat) (s : State) : Answers id s (readPayload k s) :=
  (readOperand_answers k s).andThen fun u => .next (stageRead_kept u)

theorem ifRead_answers {f : State → Result State} {s : State} (h : Answers id s (f s)) : Answers id s (ifRead f s) := by
  unfold ifRead
  split
  · exact h
  · exact .next (.refl s)

theorem readEndMarker_answers (s : State) : Answers id s (readEndMarker s) :=
  .of_kept (.of_apart) (readOperand_answers 1 (setRxstate .readingEndMarker s))

theorem readFrames_answers : ∀ (n : Nat) (s : State), Answers id s (readFrames n s)
  | 0, s => .next (.refl s)
  | n + 1, s => (readPayload_answers 8 s).andThen fun u => ifRead_answers (readFrames_answers n u)

theorem readAnimation_answers (s : State) : Answers id s (readAnimation s) := by
  unfold readAnimation
  split
  · split
    · exact (readFrames_answers _ s).andThen fun u => ifRead_answers (readEndMarker_answers u)
    · exact .next (.refl s)
  · exact .next (.refl s)

theorem receive_answers (m : Byte) (s : State) : Answers id s (receive m s) := by
  have hstart : Kept s (startCommand s) := .of_apart
  unfold receive
  split
  · exact .of_kept hstart ((readPayload_answers 8 _).andThen fun u => ifRead_answers (readEndMarker_answers u))
  · split
    · exact .of_kept hstart ((readPayload_answers 1 _).andThen fun u => ifRead_answers (readAnimation_answers u))
    · split
      · exact .of_kept hstart (readPayload_answers 1 _)
      · exact .next (.refl s)

theorem receiveCommand_answers (m : Byte) (s : State) : Answers Prod.snd s (receiveCommand m s) :=
  (receive_answers m s).andThen fun u => .next (.refl u)

theorem takeMarker_answers (s : State) : Answers Prod.snd s (takeMarker s) := by
  refine (deliver_answers s).andThen fun u => ?_
  simp only [id]
  split
  · exact .next (.refl u)
  · next hv =>
    exact .of_kept (removeOldest_kept hv) ((elapse_answers _).andThen fun w => .next (.refl w))

/-! ## The ends of a command -/

theorem returnToLoop_kept (s : State) : Kept s (returnToLoop s) := .of_apart

theorem diagnostic_answers (s : State) : Answers id s (diagnostic s) :=
  elapse_answers_apart (.of_write rfl rfl le_rfl (List.prefix_append _ _))

theorem abortWrites_kept (e : ErrorKind) (cmd : CommandKind) (s : State) : Kept s (abortWrites e cmd s) := by
  cases cmd with
  | animation =>
    rw [abortWrites_animation, clearAnimation_eq]
    exact .of_apart
  | _ => exact .of_apart

theorem raiseError_answers (e : ErrorKind) (cmd : CommandKind) (s : State) : Answers id s (raiseError e cmd s) :=
  .of_kept (abortWrites_kept e cmd s) ((diagnostic_answers _).andThen fun u => .next (returnToLoop_kept u))

theorem finishCommand_answers {commit : State → State} (hcommit : ∀ u, Kept u (commit u)) (s : State) :
    Answers id s (finishCommand commit s) := by
  have hstart : Kept s (setRxstate .commit s) := .of_apart
  exact .of_kept (hstart.trans (hcommit _)) ((elapse_answers _).andThen fun u =>
    (diagnostic_answers u).andThen fun v => .next (returnToLoop_kept v))

/-! ## The commands -/

theorem commitStatic_kept (f : Frame) (s : State) : Kept s (commitStatic f s) :=
  .of_apart

theorem commitAnimation_kept (n : Nat) (g : List Frame) (s : State) : Kept s (commitAnimation n g s) :=
  .of_apart

theorem setBrightness_kept (b : Byte) (s : State) : Kept s (setBrightness b s) :=
  .of_apart

theorem execSingleFrame_answers (rows : Option Frame) (e : Option Byte) (s : State) :
    Answers id s (execSingleFrame rows e s) := by
  unfold execSingleFrame
  split
  · split
    · exact finishCommand_answers (commitStatic_kept _) s
    · exact raiseError_answers _ _ s
  · exact raiseError_answers _ _ s
  · exact raiseError_answers _ _ s

theorem animationFrames_answers (n : Nat) (frames : List Frame) (e : Option Byte) (s : State) :
    Answers id s (animationFrames n frames e s) := by
  unfold animationFrames
  split
  · exact raiseError_answers _ _ s
  · split
    · exact raiseError_answers _ _ s
    · split
      · exact finishCommand_answers (commitAnimation_kept n frames) s
      · exact raiseError_answers _ _ s

theorem execAnimation_answers (n : Option Byte) (frames : List Frame) (e : Option Byte) (s : State) :
    Answers id s (execAnimation n frames e s) := by
  unfold execAnimation
  split
  · exact raiseError_answers _ _ s
  · split
    · exact animationFrames_answers _ frames e s
    · exact raiseError_answers _ _ s

theorem execBrightness_answers (b : Option Byte) (s : State) : Answers id s (execBrightness b s) := by
  cases b with
  | none => exact raiseError_answers _ _ s
  | some b => exact finishCommand_answers (setBrightness_kept b) s

theorem diagnosticOnUnknown_kept (s : State) : Kept s (diagnosticOnUnknown s) := by
  refine .of_write rfl rfl le_rfl ?_
  unfold diagnosticOnUnknown
  cases s.params.diagOnUnknown
  · exact List.prefix_rfl
  · exact List.prefix_append _ _

theorem execIgnored_answers (m : Byte) (s : State) : Answers id s (execIgnored m s) := by
  have hnote : Kept s (note (.error .unknownMarker none) s) := .of_apart
  exact .of_kept (hnote.trans (diagnosticOnUnknown_kept _)) (elapse_answers _)

theorem runCommand_answers (c : Command) (s : State) : Answers id s (runCommand c s) := by
  cases c with
  | singleFrame rows e => exact execSingleFrame_answers rows e s
  | animation n frames e => exact execAnimation_answers n frames e s
  | brightness b => exact execBrightness_answers b s
  | ignored m => exact execIgnored_answers m s

theorem execHandleCommand_answers (m : Byte) (s : State) : Answers id s (execHandleCommand m s) :=
  (receiveCommand_answers m s).andThen fun p => runCommand_answers p.1 p.2

theorem execPoll_answers (s : State) : Answers id s (execPoll s) := by
  refine (takeMarker_answers s).andThen ?_
  rintro ⟨_ | m, u⟩
  · exact elapse_answers u
  · exact execHandleCommand_answers m u

/-! ## The scanner, the scheduler and the main loop -/

theorem shiftBit_answers (d : Bool) (s : State) : Answers id s (shiftBit d s) := elapse_answers_apart

theorem latchOutputs_answers (s : State) : Answers id s (latchOutputs s) := elapse_answers_apart

theorem shiftBits_answers : ∀ (bits : List Bool) (s : State), Answers id s (shiftBits bits s)
  | [], s => .next (.refl s)
  | d :: bits, s => (shiftBit_answers d s).andThen (shiftBits_answers bits)

theorem outputBits_answers (bits : List Bool) (s : State) : Answers id s (outputBits bits s) :=
  (shiftBits_answers bits s).andThen latchOutputs_answers

theorem setScanphase_kept (p : ScanPhase) (s : State) : Kept s (setScanphase p s) :=
  .of_apart

theorem setPhase_kept (p : Phase) (s : State) : Kept s (setPhase p s) := .of_apart

theorem execAdvance_answers (s : State) : Answers id s (execAdvance s) := elapse_answers_apart

theorem execScanStep_answers (s : State) : Answers id s (execScanStep s) :=
  .of_kept (setScanphase_kept .assert s) ((outputBits_answers _ _).andThen fun u =>
    .of_kept (setScanphase_kept .hold u) ((pass_answers _ _).andThen fun v =>
      .of_kept (setScanphase_kept .blank v) ((outputBits_answers _ _).andThen fun w =>
        .of_kept (setScanphase_kept .advance w) (execAdvance_answers _))))

theorem execAnimTick_answers (s : State) : Answers id s (execAnimTick s) := by
  unfold execAnimTick
  split
  · exact elapse_answers_apart
  · exact elapse_answers s

theorem execMainLoop_answers (s : State) : Answers id s (execMainLoop s) :=
  .of_kept (setPhase_kept .poll s) ((execPoll_answers _).andThen fun u =>
    .of_kept (setPhase_kept .scan u) ((execScanStep_answers _).andThen fun v =>
      .of_kept (setPhase_kept .tick v) ((execAnimTick_answers _).andThen fun w => .next (setPhase_kept .poll w))))

theorem execCritical_answers (edge : CriticalEdge) (s : State) : Answers id s (execCritical edge s) := by
  cases edge <;> exact elapse_answers_apart

/-! ## Every instruction -/

theorem exec_answers (i : Instr) (s : State) : Answers id s (exec i s) := by
  cases i with
  | singleFrame rows e => exact execSingleFrame_answers rows e s
  | animation n frames e => exact execAnimation_answers n frames e s
  | brightness b => exact execBrightness_answers b s
  | ignored m => exact execIgnored_answers m s
  | rowActivate c row => exact outputBits_answers _ s
  | blank => exact outputBits_answers _ s
  | mainLoop => exact execMainLoop_answers s
  | poll => exact execPoll_answers s
  | handleCommand m => exact execHandleCommand_answers m s
  | readBytes k => exact readBytes_answers k s
  | abort e cmd => exact raiseError_answers e cmd s
  | commitStatic t => exact elapse_answers_apart
  | commitAnimation n g => exact elapse_answers_apart
  | clearAnimation =>
    have hwrite : Kept s (clearAnimation s) := by
      rw [clearAnimation_eq]
      exact .of_apart
    exact .of_kept hwrite (elapse_answers _)
  | setRender f => exact elapse_answers_apart
  | setBrightness b => exact elapse_answers_apart
  | scanStep => exact execScanStep_answers s
  | assert => exact outputBits_answers _ s
  | shift d => exact shiftBit_answers d s
  | latch => exact latchOutputs_answers s
  | hold => exact pass_answers _ s
  | blankStep => exact outputBits_answers _ s
  | advance => exact execAdvance_answers s
  | animTick => exact execAnimTick_answers s
  | critical edge => exact execCritical_answers edge s

theorem exec_kept {i : Instr} {s s' : State} (h : exec i s = .next s') : Kept s s' := (exec_answers i s).kept h

theorem exec_completes (i : Instr) {s : State} (h : Paced s) : ∃ s', exec i s = .next s' ∧ Kept s s' := by
  obtain hnext | ⟨-, hp⟩ := exec_answers i s
  · exact hnext
  · exact absurd h hp

/-- Settles O51: a paced host rules the stop out, and what an instruction keeps leaves the host paced. -/
theorem everyInstructionCompletesForAPacedHost : Obligations.EveryInstructionCompletesForAPacedHost := by
  unfold Obligations.EveryInstructionCompletesForAPacedHost
  intro i s h
  obtain ⟨s', hs', hk⟩ := exec_completes i h
  exact ⟨s', hs', hk.paced h⟩

/-- Settles O52: the stop is the overrun, and an unpaced host is a finite depth with more bytes than it holds. -/
theorem onlyAnOverrunStopsTheBlock : Obligations.OnlyAnOverrunStopsTheBlock := by
  unfold Obligations.OnlyAnOverrunStopsTheBlock
  intro i s
  obtain ⟨s', hs', -⟩ | ⟨hf, hp⟩ := exec_answers i s
  · exact .inl ⟨s', hs'⟩
  · refine .inr ⟨hf, hp, ?_⟩
    simpa [paced_iff] using hp

/-- Settles O54: these are among the things that every operation keeps. -/
theorem parametersTimeAndStreamsAreKept : Obligations.ParametersTimeAndStreamsAreKept := by
  unfold Obligations.ParametersTimeAndStreamsAreKept
  intro i s s' h
  obtain ⟨hparams, hforward, htaken, -, hgrown, -⟩ := exec_kept h
  exact ⟨hparams, hforward, htaken, hgrown⟩

end Sys2Proof.Machine
end

section
/-! PROOFS of the family "other", the commands, the frame store and the scheduler (40 R125 to R128, 41 R161 to R163, 43 R210
to R213, 44 R221 to R223, 45 R234, 60 R262 to R266). An operation is a write and the time after it, or a write, a diagnostic
and the return to the loop; what is to be said of it is what its write is. -/

namespace Sys2Proof.Machine

/-! ## The frame store and the brightness register -/

theorem commitAnimation_eq {n : Nat} {f : Frame} {fs : List Frame} (h : (f :: fs).length = n) (s : State) :
    commitAnimation n (f :: fs) s =
      { s with
        store := { s.store with ab := f :: fs, rb := f }
        anim := { active := true, frameCount := n, currentFrameIndex := 0, lastFrameChangeMs := s.clock.t / 1000 }
        ie := true, trace := .committed .animation :: s.trace } := by
  have htake : (f :: fs).take n = f :: fs := List.take_of_length_le h.le
  simp only [commitAnimation, htake]
  rfl

theorem clearAnimation_kept (s : State) : Kept s (clearAnimation s) := by
  rw [clearAnimation_eq]
  exact .of_apart

/-- Settles O29: the commit is one update, and then time passes. -/
theorem commitStaticReplacesBothFrames : Obligations.CommitStaticReplacesBothFrames := by
  unfold Obligations.CommitStaticReplacesBothFrames
  intro s f h
  exact elapse_completes ((commitStatic_kept f s).paced h)

/-- Settles O30: all the Frames are kept, since there are as many as are counted. -/
theorem commitAnimationInstallsItsFrames : Obligations.CommitAnimationInstallsItsFrames := by
  unfold Obligations.CommitAnimationInstallsItsFrames
  intro s n f fs h hlen _
  rw [← commitAnimation_eq hlen]
  exact elapse_completes ((commitAnimation_kept n (f :: fs) s).paced h)

/-- Settles O31: the clearing is one update, under either value of the parameter, and then time passes. -/
theorem clearAnimationEmptiesTheAnimation : Obligations.ClearAnimationEmptiesTheAnimation := by
  unfold Obligations.ClearAnimationEmptiesTheAnimation
  intro s h
  rw [← clearAnimation_eq]
  exact elapse_completes ((clearAnimation_kept s).paced h)

/-- Settles O33: the write of `dwellOf` is one update, and then time passes. -/
theorem setBrightnessFollowsTheFormula : Obligations.SetBrightnessFollowsTheFormula := by
  unfold Obligations.SetBrightnessFollowsTheFormula
  intro s b h
  exact elapse_completes ((setBrightness_kept b s).paced h)

/-! ## The brightness map (44 R223) -/

theorem dwellOf_zero (p : Params) : dwellOf p 0x00 = p.brightnessMin := by simp [dwellOf]

theorem dwellOf_max {p : Params} (h : p.brightnessMin ≤ p.brightnessMax) : dwellOf p 0xFF = p.brightnessMax := by
  have hprod : 255 * (p.brightnessMax - p.brightnessMin) / 255 = p.brightnessMax - p.brightnessMin :=
    Nat.mul_div_cancel_left _ (by decide)
  change p.brightnessMin + 255 * (p.brightnessMax - p.brightnessMin) / 255 = p.brightnessMax
  omega

theorem dwellOf_mono (p : Params) {b1 b2 : Byte} (h : b1.toNat ≤ b2.toNat) : dwellOf p b1 ≤ dwellOf p b2 :=
  Nat.add_le_add_left (Nat.div_le_div_right (Nat.mul_le_mul_right _ h)) _

/-- Settles O34: the map is the sum of a monotone product and a constant; at the defaults a byte adds 4500 / 255, which
is between 17 and 18. -/
theorem brightnessMapHasItsEndPointsAndIsMonotonic : Obligations.BrightnessMapHasItsEndPointsAndIsMonotonic := by
  unfold Obligations.BrightnessMapHasItsEndPointsAndIsMonotonic
  rintro p ⟨hrange, -⟩
  refine ⟨dwellOf_zero p, dwellOf_max hrange, fun _ _ => dwellOf_mono p, fun hmin hmax b1 b2 hlt => ?_⟩
  simp only [dwellOf, hmin, hmax]
  omega

/-! ## Valid commands -/

theorem exec_singleFrame_valid (f : Frame) (s : State) :
    exec (.singleFrame (some f) (some 0xFE)) s = finishCommand (commitStatic f) s := rfl

theorem exec_animation_valid {n : Byte} {fs : List Frame} (hn : countAccepted n = true) (hlen : n.toNat ≤ fs.length)
    (s : State) : exec (.animation (some n) fs (some 0xFB)) s = finishCommand (commitAnimation n.toNat fs) s :=
  (if_pos hn).trans ((if_neg hlen.not_gt).trans (if_pos rfl))

theorem setRxstate_kept (r : RxState) (s : State) : Kept s (setRxstate r s) := .of_apart

/-- A valid command completes for a paced host: its commit, and the receiver back at rest. -/
theorem finishCommand_completes_of_kept {commit : State → State} (hcommit : ∀ u, Kept u (commit u)) {s : State}
    (h : Paced s) : ∃ s', finishCommand commit s = .next s' ∧
      OnlyDiagnostic (returnToLoop (commit (setRxstate .commit s))) s' :=
  finishCommand_completes (((setRxstate_kept .commit s).trans (hcommit _)).paced h)

/-- Settles O16: the end marker is right, so the command ends with its commit. -/
theorem validSingleFrameIsCommitted : Obligations.ValidSingleFrameIsCommitted := by
  unfold Obligations.ValidSingleFrameIsCommitted
  intro s f h
  rw [exec_singleFrame_valid]
  exact finishCommand_completes_of_kept (commitStatic_kept f) h

theorem countAccepted_of_bounds {n : Byte} (h1 : 1 ≤ n.toNat) (h10 : n.toNat ≤ 10) : countAccepted n = true := by
  simp [countAccepted, h1, h10]

/-- Settles O18: the count is accepted, and as many Frames came. -/
theorem validAnimationIsCommitted : Obligations.ValidAnimationIsCommitted := by
  unfold Obligations.ValidAnimationIsCommitted
  intro s n f fs h hlen h10
  have hn : countAccepted n = true := countAccepted_of_bounds (by rw [← hlen]; exact Nat.succ_pos _) h10
  obtain ⟨s', hs', hd⟩ := finishCommand_completes_of_kept (commitAnimation_kept n.toNat (f :: fs)) h
  rw [commitAnimation_eq hlen] at hd
  exact ⟨s', (exec_animation_valid hn hlen.ge s).trans hs', hd⟩

/-- Settles O20: with its byte a valid command, without it an abort that writes nothing but the receiver's state. -/
theorem brightnessSetsTheDwellTime : Obligations.BrightnessSetsTheDwellTime := by
  unfold Obligations.BrightnessSetsTheDwellTime
  exact ⟨fun s b h => finishCommand_completes_of_kept (setBrightness_kept b) h,
    fun s h => raiseError_completes .readTimeout .brightness h⟩

/-- Settles O35: a second run from the state the first left writes what stands there already. -/
theorem repeatedFrameOrBrightnessIsIdempotent : Obligations.RepeatedFrameOrBrightnessIsIdempotent := by
  unfold Obligations.RepeatedFrameOrBrightnessIsIdempotent
  constructor
  case left =>
    intro s s1 f h h1
    obtain ⟨s2, h2, hd2⟩ := validSingleFrameIsCommitted s1 f ((exec_kept h1).paced h)
    rw [exec_singleFrame_valid] at h1
    have hd1 := finishCommand_next h1
    exact ⟨s2, h2, by rw [hd2.time.rest, hd1.time.rest]; rfl, by rw [hd2.time.rest, hd1.time.rest]; rfl,
      by rw [hd2.time.rest]⟩
  case right =>
    intro s s1 b h h1
    obtain ⟨s2, h2, hd2⟩ := brightnessSetsTheDwellTime.1 s1 b ((exec_kept h1).paced h)
    have hd1 := finishCommand_next h1
    exact ⟨s2, h2, by rw [hd2.time.rest], by rw [hd2.time.rest], by rw [hd2.time.rest, hd1.time.rest]; rfl⟩

/-! ## Failed commands and ignored bytes -/

theorem returnToLoop_abortWrites_animation (kind : ErrorKind) (s : State) :
    returnToLoop (abortWrites kind .animation s) =
      { s with
        store := { s.store with ab := [], rb := if s.params.renderOnAnimAbort = .keep then s.store.rb else s.store.si }
        anim := { s.anim with active := false, frameCount := 0, currentFrameIndex := 0 }
        seq.rxstate := .idle, ie := true, rx.stage := []
        trace := .cleared (shownFrame s) :: .error kind (some .animation) :: s.trace } := by
  rw [abortWrites_animation, clearAnimation_eq]
  rfl

theorem exec_animation_of_count_missing (fs : List Frame) (e : Option Byte) (s : State) :
    exec (.animation none fs e) s = raiseError .readTimeout .animation s := rfl

theorem exec_animation_of_count_rejected {n : Byte} (hn : ¬ countAccepted n = true) (fs : List Frame) (e : Option Byte)
    (s : State) : exec (.animation (some n) fs e) s = raiseError .invalidFrameCount .animation s := if_neg hn

theorem exec_animation_of_frame_missing {n : Byte} {fs : List Frame} (hn : countAccepted n = true)
    (hlen : fs.length < n.toNat) (e : Option Byte) (s : State) :
    exec (.animation (some n) fs e) s = raiseError .readTimeout .animation s := (if_pos hn).trans (if_pos hlen)

theorem exec_animation_of_end_missing {n : Byte} {fs : List Frame} (hn : countAccepted n = true)
    (hlen : n.toNat ≤ fs.length) (s : State) :
    exec (.animation (some n) fs none) s = raiseError .readTimeout .animation s :=
  (if_pos hn).trans (if_neg hlen.not_gt)

theorem exec_animation_of_end_wrong {n m : Byte} {fs : List Frame} (hn : countAccepted n = true)
    (hlen : n.toNat ≤ fs.length) (hm : m ≠ Config.mAnimEnd) (s : State) :
    exec (.animation (some n) fs (some m)) s = raiseError .invalidEndMarker .animation s :=
  (if_pos hn).trans ((if_neg hlen.not_gt).trans (if_neg hm))

/-- Settles O19: whichever check fails, the command is the abort sequence of ANIMATION with the error of that check. -/
theorem failedAnimationClearsTheAnimation : Obligations.FailedAnimationClearsTheAnimation := by
  unfold Obligations.FailedAnimationClearsTheAnimation
  intro s n fs e kind hpaced hfails
  have habort : exec (.animation n fs e) s = raiseError kind .animation s := by
    obtain ⟨rfl, rfl⟩ | ⟨b, rfl, hb, rfl⟩ | ⟨b, rfl, h10, hlen, rfl⟩ | ⟨b, rfl, h1, h10, hlen, rfl, rfl⟩ |
      ⟨b, m, rfl, h1, h10, hlen, rfl, hm, rfl⟩ := hfails
    · exact exec_animation_of_count_missing fs e s
    · refine exec_animation_of_count_rejected (fun hn => ?_) fs e s
      have := countAccepted_bound hn
      omega
    · exact exec_animation_of_frame_missing (countAccepted_of_bounds (by omega) h10) hlen e s
    · exact exec_animation_of_end_missing (countAccepted_of_bounds h1 h10) hlen.ge s
    · exact exec_animation_of_end_wrong (countAccepted_of_bounds h1 h10) hlen.ge hm s
  rw [habort, ← returnToLoop_abortWrites_animation]
  exact raiseError_completes kind .animation hpaced

/-- Settles O22: the writes of the abort sequence, command by command. -/
theorem abortFollowsTheCommandsPolicy : Obligations.AbortFollowsTheCommandsPolicy := by
  unfold Obligations.AbortFollowsTheCommandsPolicy
  constructor
  case left =>
    intro s e cmd h hcmd
    cases cmd with
    | singleFrame => exact raiseError_completes e .singleFrame h
    | brightness => exact raiseError_completes e .brightness h
    | animation => exact absurd rfl hcmd
  case right =>
    intro s e h
    rw [← returnToLoop_abortWrites_animation]
    exact raiseError_completes e .animation h

/-- What IGNORED can do: its event, perhaps a diagnostic, and time. -/
theorem execIgnored_next {m : Byte} {s s' : State} (h : execIgnored m s = .next s') :
    OnlyDiagnostic { s with trace := .error .unknownMarker none :: s.trace } s' ∧
      s'.tx = (diagnosticOnUnknown s).tx := by
  have htime := elapse_next h
  have htx : s'.tx = (diagnosticOnUnknown s).tx := by rw [htime.rest]; rfl
  exact ⟨⟨by rw [htx]; exact htime, by rw [htx]; exact (diagnosticOnUnknown_kept s).grown⟩, htx⟩

/-- Settles O21: the event is recorded, and the parameter says whether a text is appended. -/
theorem ignoredByteChangesNothing : Obligations.IgnoredByteChangesNothing := by
  unfold Obligations.IgnoredByteChangesNothing
  intro s m h
  obtain ⟨s', hs', -⟩ := exec_completes (.ignored m) h
  obtain ⟨hd, htx⟩ := execIgnored_next (m := m) hs'
  exact ⟨s', hs', hd, fun hoff => by rw [htx, diagnosticOnUnknown, hoff]; rfl⟩

/-! ## The tick and the critical sections -/

theorem exec_animTick_of_due {s : State} (h : tickDue s = true) : exec .animTick s = elapse (advanceFrame s) := by
  rw [exec_animTick, if_pos h]

/-- The next Frame of `AB`, the last followed by the first (43 R212). -/
theorem next_index {i n : Nat} (h : i < n) : (i + 1) % n = if i + 1 = n then 0 else i + 1 := by
  split
  · next hn => rw [hn, Nat.mod_self]
  · exact Nat.mod_eq_of_lt (by omega)

theorem advanceFrame_eq {s : State} {f : Frame} {i : Nat} (hi : (s.anim.currentFrameIndex + 1) % s.anim.frameCount = i)
    (hf : s.store.ab[i]? = some f) : advanceFrame s =
      { s with
        store := { s.store with rb := f }
        anim := { s.anim with currentFrameIndex := i, lastFrameChangeMs := s.clock.t / 1000 }
        ie := true } := by
  subst hi
  have hframe : animationFrame s ((s.anim.currentFrameIndex + 1) % s.anim.frameCount) = f := by
    rw [animationFrame, hf, Option.getD_some]
  rw [← hframe]
  rfl

/-- Settles O47: the tick is due by the comparison in force, and it advances once. -/
theorem dueTickShowsTheNextFrame : Obligations.DueTickShowsTheNextFrame := by
  unfold Obligations.DueTickShowsTheNextFrame
  intro s f i h hactive helapsed hindex hi hf
  have hdue : tickDue s = true := by
    rw [tickDue, hactive, Bool.true_and, intervalElapsed]
    cases hcmp : s.params.tickCompare <;> rw [hcmp] at helapsed <;> exact decide_eq_true helapsed
  rw [exec_animTick_of_due hdue, advanceFrame_eq ((next_index hindex).trans hi.symm) hf]
  exact elapse_completes h

theorem tickDue_of_early {s : State} (h : s.clock.t / 1000 - s.anim.lastFrameChangeMs < 500) : tickDue s = false := by
  have hearly : intervalElapsed s = false := by
    unfold intervalElapsed
    split
    · exact decide_eq_false h.not_ge
    · exact decide_eq_false h.le.not_gt
  rw [tickDue, hearly, Bool.and_false]

/-- Settles O49: under either comparison no tick is due, so the check only takes time. -/
theorem noFrameAdvanceBeforeItsInterval : Obligations.NoFrameAdvanceBeforeItsInterval := by
  unfold Obligations.NoFrameAdvanceBeforeItsInterval
  intro s h hearly
  rw [exec_animTick_of_not_due (tickDue_of_early hearly)]
  exact elapse_completes h

/-- Settles O50: each edge is the write of the flag, and then time passes. -/
theorem criticalSectionsWriteTheFlag : Obligations.CriticalSectionsWriteTheFlag := by
  unfold Obligations.CriticalSectionsWriteTheFlag
  exact ⟨fun s h => elapse_completes (s := enterCritical s) h, fun s h => elapse_completes (s := leaveCritical s) h⟩

end Sys2Proof.Machine
end

section
/-! PROOFS of the family "other", the scanner and the chain (42 R180 to R189). The laws of the chain say what SHIFTs and a
LATCH leave; a scan step is four operations, each the passing of time after a write, so their writes are made one after
the other and the time passes at the end. -/

namespace Sys2Proof.Machine

/-! ## The operations of the chain -/

/-- Settles O36: the stages move by `BitVec.concat`. -/
theorem shiftMovesEveryStageUp : Obligations.ShiftMovesEveryStageUp := by
  unfold Obligations.ShiftMovesEveryStageUp
  intro s d h
  obtain ⟨s', hs', htime⟩ := elapse_completes (s := { s with chain := chainShift d s.chain }) h
  have hsr : s'.chain.sr = (s.chain.sr.setWidth 15).concat d := by rw [htime.rest]; rfl
  refine ⟨s', hs', by rw [hsr]; exact htime, by rw [hsr, BitVec.getLsbD_concat_zero], fun i hi => ?_⟩
  rw [hsr, BitVec.getLsbD_concat_succ, BitVec.getLsbD_setWidth, decide_eq_true hi, Bool.true_and]

/-- Settles O37: the copy to the outputs and its event are one update, and then time passes. -/
theorem latchCopiesTheShiftStage : Obligations.LatchCopiesTheShiftStage := by
  unfold Obligations.LatchCopiesTheShiftStage
  intro s h
  exact elapse_completes (s := note (.latched s.chain.sr s.clock.t) { s with chain := chainLatch s.chain }) h

/-- Settles O38: whatever the chain held, the sixteen bits of the pair fill it. -/
theorem rowActivateLatchesItsPair : Obligations.RowActivateLatchesItsPair := by
  unfold Obligations.RowActivateLatchesItsPair
  intro s c row h
  obtain ⟨s', hs'⟩ := outputBits_completes (pairBits s.params.shiftOrder c row) h
  obtain ⟨τ, hfrom, hto, htime⟩ := outputPair_next hs'
  exact ⟨s', pairWord s.params.shiftOrder c row, τ, hs', by cases s.params.shiftOrder <;> rfl, hfrom, hto, htime⟩

theorem exec_assert (s : State) :
    exec .assert s = exec (.rowActivate (rowOf s.store.rb s.seq.currentRow) s.seq.currentRow) s := rfl

/-- Settles O39: ASSERT is ROW_ACTIVATE of the current row. -/
theorem assertLatchesTheCurrentRow : Obligations.AssertLatchesTheCurrentRow := by
  unfold Obligations.AssertLatchesTheCurrentRow
  intro s h
  rw [exec_assert]
  exact rowActivateLatchesItsPair s _ _ h

/-- Settles O40: BLANK and BLANK_STEP are sixteen zero SHIFTs and a LATCH. -/
theorem blankClearsTheOutputs : Obligations.BlankClearsTheOutputs := by
  unfold Obligations.BlankClearsTheOutputs
  intro s i h hi
  have hblank : exec i s = blankOutputs s := by obtain rfl | rfl := hi <;> rfl
  obtain ⟨s', hs'⟩ := outputBits_completes (List.replicate 16 false) h
  obtain ⟨τ, hτ⟩ := blankOutputs_next hs'
  exact ⟨s', τ, hblank.trans hs', hτ⟩

/-- Settles O42: HOLD is the passing of the dwell time and of a drawn duration. -/
theorem holdLastsAtLeastTheDwellTime : Obligations.HoldLastsAtLeastTheDwellTime := by
  unfold Obligations.HoldLastsAtLeastTheDwellTime
  intro s h
  exact pass_completes h

/-! ## The scan step -/

/-- `s` after a LATCH of the zero word at `τ`, its scan phase `p`. -/
def blankedAt (τ : Nat) (p : ScanPhase) (s : State) : State :=
  { s with
    seq.scanphase := p
    chain := { sr := 0, out := 0, ser := false, srclk := false, rclk := false }
    trace := .latched 0 τ :: s.trace }

/-- `s` at the next row, at the scan phase ADVANCE. -/
def advancedRow (s : State) : State :=
  { s with seq := { s.seq with scanphase := .advance, currentRow := s.seq.currentRow + 1 } }

/-- What a scan step can do. -/
theorem execScanStep_next {s s' : State} (h : execScanStep s = .next s') :
    ∃ t1 t2, s.clock.t ≤ t1 ∧ t1 + s.dwellUs ≤ t2 ∧ t2 ≤ s'.clock.t ∧
      OnlyTime
        { s with
          seq := { s.seq with scanphase := .advance, currentRow := s.seq.currentRow + 1 }
          chain := { sr := 0, out := 0, ser := false, srclk := false, rclk := false }
          trace := .latched 0 t2 ::
            .latched (pairWord s.params.shiftOrder (rowOf s.store.rb s.seq.currentRow) s.seq.currentRow) t1 ::
            s.trace } s' := by
  obtain ⟨u, hassert, h⟩ := andThen_eq_next.1 h
  obtain ⟨v, hhold, h⟩ := andThen_eq_next.1 h
  obtain ⟨w, hblank, hadvance⟩ := andThen_eq_next.1 h
  obtain ⟨t1, hst1, ht1u, hu⟩ := outputPair_next hassert
  obtain ⟨hv, hdwell⟩ := pass_next hhold
  obtain ⟨t2, hvt2, ht2w, hw⟩ := blankOutputs_next hblank
  have hs' := elapse_next hadvance
  have hudwell : u.dwellUs = s.dwellUs := by rw [hu.rest]; rfl
  have hwait : u.clock.t + s.dwellUs ≤ v.clock.t := hudwell ▸ hdwell
  have huv := (hu.congr (setScanphase .hold) (fun _ => rfl) (fun _ => rfl) (fun _ _ _ => rfl)).trans hv
  have huw := (huv.congr (blankedAt t2 .blank) (fun _ => rfl) (fun _ => rfl) (fun _ _ _ => rfl)).trans hw
  have hall := (huw.congr advancedRow (fun _ => rfl) (fun _ => rfl) (fun _ _ _ => rfl)).trans hs'
  exact ⟨t1, t2, hst1, (Nat.add_le_add_right ht1u _).trans (hwait.trans hvt2), ht2w.trans hs'.forward, hall⟩

/-- Settles O44: a scan step completes for a paced host, and what it can do is `execScanStep_next`. -/
theorem scanStepShowsOneRow : Obligations.ScanStepShowsOneRow := by
  unfold Obligations.ScanStepShowsOneRow
  intro s h
  obtain ⟨s', hs', -⟩ := exec_completes .scanStep h
  obtain ⟨t1, t2, hscan⟩ := execScanStep_next hs'
  exact ⟨s', t1, t2, hs', hscan⟩

/-! ## The scan cycle -/

/-- The `n` rows from `row` on. -/
def rowsFrom : Nat → RowIndex → List RowIndex
  | 0, _ => []
  | n + 1, row => row :: rowsFrom n (row + 1)

theorem scannedRows_eq_rowsFrom : ∀ row : RowIndex, scannedRows row = rowsFrom 8 row := by decide

theorem scannedRows_nodup : ∀ row : RowIndex, (scannedRows row).Nodup := by decide

theorem mem_scannedRows : ∀ row r : RowIndex, r ∈ scannedRows row := by decide

/-- What `n` scan steps leave. -/
theorem scanSteps_completes : ∀ (n : Nat) {s : State}, Paced s → ∃ s', scanSteps n s = .next s' ∧ s'.store = s.store ∧
    s'.seq.currentRow = s.seq.currentRow + BitVec.ofNat 3 n ∧
    latchedWords s'.trace =
      cycleWords s.params.shiftOrder s.store.rb (rowsFrom n s.seq.currentRow) ++ latchedWords s.trace
  | 0, s, _ => ⟨s, rfl, rfl, by simp, rfl⟩
  | n + 1, s, h => by
    obtain ⟨u, hu, hkept⟩ := exec_completes .scanStep h
    obtain ⟨t1, t2, -, -, -, htime⟩ := execScanStep_next hu
    obtain ⟨s', hs', hstore, hrow, hwords⟩ := scanSteps_completes n (hkept.paced h)
    have hustore : u.store = s.store := by rw [htime.rest]
    have hurow : u.seq.currentRow = s.seq.currentRow + 1 := by rw [htime.rest]
    have huwords : latchedWords u.trace = 0 ::
        pairWord s.params.shiftOrder (rowOf s.store.rb s.seq.currentRow) s.seq.currentRow :: latchedWords s.trace := by
      rw [htime.rest]
      rfl
    refine ⟨s', by rw [scanSteps, hu]; exact hs', hstore.trans hustore, ?_, ?_⟩
    · rw [hrow, hurow, BitVec.add_assoc, ← BitVec.ofNat_add_ofNat, BitVec.add_comm (BitVec.ofNat 3 n)]
      rfl
    · rw [hwords, huwords, hkept.params, hustore, hurow, rowsFrom, cycleWords, List.append_assoc]
      rfl

/-- Settles O45: eight steps come back to the row they began at. -/
theorem scanCycleShowsTheRenderBuffer : Obligations.ScanCycleShowsTheRenderBuffer := by
  unfold Obligations.ScanCycleShowsTheRenderBuffer
  intro s h
  obtain ⟨s', hs', hstore, hrow, hwords⟩ := scanSteps_completes 8 h
  refine ⟨s', hs', hstore, ?_, by rw [scannedRows_eq_rowsFrom]; exact hwords, scannedRows_nodup _, mem_scannedRows _⟩
  rw [hrow]
  exact BitVec.add_zero _

end Sys2Proof.Machine
end

section
/-! PROOFS of the family "other", what a command can do (40 R120, R133, R134). One lemma lists the ends a command can come
to, each the write of a commit or of an abort and then a diagnostic; the scanner is where it was after all of them. -/

namespace Sys2Proof.Machine

theorem exec_toInstr (c : Command) (s : State) : exec c.toInstr s = runCommand c s := by cases c <;> rfl

/-! ## The ends of a command -/

/-- What a command can do: a commit of each kind, an abort, or the event of an ignored byte. -/
inductive CommandEnd (c : Command) (s s' : State) : Prop
  | static (f : Frame) (hc : c = .singleFrame (some f) (some 0xFE))
      (h : OnlyDiagnostic (returnToLoop (commitStatic f (setRxstate .commit s))) s')
  | animation (n : Byte) (fs : List Frame) (hc : c = .animation (some n) fs (some 0xFB))
      (hn : countAccepted n = true) (hlen : n.toNat ≤ fs.length)
      (h : OnlyDiagnostic (returnToLoop (commitAnimation n.toNat fs (setRxstate .commit s))) s')
  | brightness (b : Byte) (hc : c = .brightness (some b))
      (h : OnlyDiagnostic (returnToLoop (setBrightness b (setRxstate .commit s))) s')
  | abort (e : ErrorKind) (cmd : CommandKind) (hc : cmd = .animation → ∃ n fs m, c = .animation n fs m)
      (h : OnlyDiagnostic (returnToLoop (abortWrites e cmd s)) s')
  | ignored (m : Byte) (hc : c = .ignored m)
      (h : OnlyDiagnostic { s with trace := .error .unknownMarker none :: s.trace } s')

theorem execSingleFrame_end {rows : Option Frame} {e : Option Byte} {s s' : State}
    (h : execSingleFrame rows e s = .next s') : CommandEnd (.singleFrame rows e) s s' := by
  have failed : ∀ {kind}, raiseError kind .singleFrame s = .next s' → CommandEnd (.singleFrame rows e) s s' :=
    fun hr => .abort _ _ (fun hcmd => by cases hcmd) (raiseError_next hr)
  unfold execSingleFrame at h
  split at h
  · split at h
    · next f b hb => exact .static f (by rw [hb]; rfl) (finishCommand_next h)
    · exact failed h
  · exact failed h
  · exact failed h

theorem execAnimation_end {n : Option Byte} {fs : List Frame} {e : Option Byte} {s s' : State}
    (h : execAnimation n fs e s = .next s') : CommandEnd (.animation n fs e) s s' := by
  have failed : ∀ {kind}, raiseError kind .animation s = .next s' → CommandEnd (.animation n fs e) s s' :=
    fun hr => .abort _ _ (fun _ => ⟨_, _, _, rfl⟩) (raiseError_next hr)
  unfold execAnimation at h
  split at h
  · exact failed h
  · split at h
    · next n hn =>
      unfold animationFrames at h
      split at h
      · exact failed h
      · next hlen =>
        split at h
        · exact failed h
        · split at h
          · next b hb => exact .animation n fs (by rw [hb]; rfl) hn (not_lt.1 hlen) (finishCommand_next h)
          · exact failed h
    · exact failed h

theorem runCommand_end {c : Command} {s s' : State} (h : runCommand c s = .next s') : CommandEnd c s s' := by
  cases c with
  | singleFrame rows e => exact execSingleFrame_end h
  | animation n fs e => exact execAnimation_end h
  | brightness b =>
    cases b with
    | none => exact .abort _ _ (fun hcmd => by cases hcmd) (raiseError_next h)
    | some b => exact .brightness b rfl (finishCommand_next h)
  | ignored m => exact .ignored m rfl (execIgnored_next (m := m) h).1

/-! ## The scanner is where it was -/

/-- The chain with its outputs and lines, the row, the phase and the scan phase are as they were, and nothing was
latched. -/
structure ScannerStill (s s' : State) : Prop where
  chain     : s'.chain = s.chain
  row       : s'.seq.currentRow = s.seq.currentRow
  phase     : s'.seq.phase = s.seq.phase
  scanphase : s'.seq.scanphase = s.seq.scanphase
  words     : latchedWords s'.trace = latchedWords s.trace

theorem ScannerStill.trans {a b c : State} (h : ScannerStill a b) (k : ScannerStill b c) : ScannerStill a c :=
  ⟨k.chain.trans h.chain, k.row.trans h.row, k.phase.trans h.phase, k.scanphase.trans h.scanphase,
    k.words.trans h.words⟩

theorem ScannerStill.of_time {s s' : State} (h : OnlyTime s s') : ScannerStill s s' := by
  constructor <;> rw [h.rest]

theorem ScannerStill.of_diagnostic {s s' : State} (h : OnlyDiagnostic s s') : ScannerStill s s' := by
  constructor <;> rw [h.time.rest]

theorem ScannerStill.of_reception {s s' : State} (h : OnlyReception s s') : ScannerStill s s' := by
  constructor <;> rw [h.rest]

theorem abortWrites_still (e : ErrorKind) (cmd : CommandKind) (s : State) :
    ScannerStill s (returnToLoop (abortWrites e cmd s)) := by
  cases cmd with
  | animation => rw [returnToLoop_abortWrites_animation]; exact ⟨rfl, rfl, rfl, rfl, rfl⟩
  | _ => exact ⟨rfl, rfl, rfl, rfl, rfl⟩

theorem runCommand_still {c : Command} {s s' : State} (h : runCommand c s = .next s') : ScannerStill s s' := by
  have after : ∀ {u}, OnlyDiagnostic u s' → ScannerStill s u → ScannerStill s s' := fun hd hu =>
    hu.trans (.of_diagnostic hd)
  cases runCommand_end h with
  | static f _ hd => exact after hd ⟨rfl, rfl, rfl, rfl, rfl⟩
  | animation n fs _ _ _ hd => exact after hd ⟨rfl, rfl, rfl, rfl, rfl⟩
  | brightness b _ hd => exact after hd ⟨rfl, rfl, rfl, rfl, rfl⟩
  | abort e cmd _ hd => exact after hd (abortWrites_still e cmd s)
  | ignored m _ hd => exact after hd ⟨rfl, rfl, rfl, rfl, rfl⟩

/-- What HANDLE_COMMAND can do: receive its command and run it. -/
theorem execHandleCommand_next {m : Byte} {s s' : State} (h : execHandleCommand m s = .next s') :
    ∃ u, receive m s = .next u ∧ OnlyReception s u ∧
      runCommand (decodeCommand m (receivedBytes u)).1 u = .next s' := by
  obtain ⟨⟨c, u⟩, hu, h⟩ := andThen_eq_next.1 h
  obtain ⟨hreceive, hc⟩ := receiveCommand_next hu
  simp only at hreceive hc h
  subst hc
  exact ⟨u, hreceive, receive_next hreceive, h⟩

theorem execHandleCommand_still {m : Byte} {s s' : State} (h : execHandleCommand m s = .next s') :
    ScannerStill s s' := by
  obtain ⟨u, -, hu, hrun⟩ := execHandleCommand_next h
  exact (ScannerStill.of_reception hu).trans (runCommand_still hrun)

theorem execPoll_still {s s' : State} (h : execPoll s = .next s') : ScannerStill s s' := by
  obtain ⟨⟨marker, u⟩, hu, h⟩ := andThen_eq_next.1 h
  have htake := ScannerStill.of_reception (takeMarker_next hu).1
  cases marker with
  | none => exact htake.trans (.of_time (elapse_next h))
  | some m => exact htake.trans (execHandleCommand_still h)

/-- Settles O55: each of these receives, and ends as a command does. -/
theorem receptionStopsTheScanner : Obligations.ReceptionStopsTheScanner := by
  unfold Obligations.ReceptionStopsTheScanner
  intro i s s' hi h
  have hstill : ScannerStill s s' := by
    obtain rfl | ⟨m, rfl⟩ | ⟨k, rfl⟩ | ⟨c, rfl⟩ | ⟨e, cmd, rfl⟩ := hi
    · exact execPoll_still h
    · exact execHandleCommand_still h
    · exact .of_reception (readBytes_next h).1
    · exact runCommand_still ((exec_toInstr c s).symm.trans h)
    · exact (abortWrites_still e cmd s).trans (.of_diagnostic (raiseError_next h))
  exact ⟨hstill.chain, hstill.row, hstill.phase, hstill.scanphase⟩

/-! ## Which marker begins which command -/

/-- The command a marker begins, whatever bytes were received for it. -/
theorem decodeCommand_kind (m : Byte) (bs : List Byte) :
    (m = Config.mSingle ∧ ∃ rows e, (decodeCommand m bs).1 = .singleFrame rows e) ∨
      (m = Config.mAnim ∧ ∃ n fs e, (decodeCommand m bs).1 = .animation n fs e) ∨
      (m = Config.mBright ∧ ∃ b, (decodeCommand m bs).1 = .brightness b) ∨
      (isStartMarker m = false ∧ (decodeCommand m bs).1 = .ignored m) := by
  by_cases hs : m = Config.mSingle
  · exact .inl ⟨hs, hs ▸ decodeSingleFrame_kind bs⟩
  by_cases ha : m = Config.mAnim
  · exact .inr (.inl ⟨ha, ha ▸ decodeAnimation_kind bs⟩)
  by_cases hb : m = Config.mBright
  · exact .inr (.inr (.inl ⟨hb, hb ▸ ⟨(takeByte bs).1, rfl⟩⟩))
  · exact .inr (.inr (.inr ⟨by simp [isStartMarker, hs, ha, hb], by rw [decodeCommand_ignored bs hs ha hb]⟩))

/-- A byte that is no marker is followed by no read. -/
theorem receive_not_marker {m : Byte} (h : isStartMarker m = false) (s : State) : receive m s = .next s := by
  obtain ⟨hs, ha, hb⟩ := ne_of_not_isStartMarker h
  rw [receive, if_neg hs, if_neg ha, if_neg hb]

end Sys2Proof.Machine
end

section
/-! PROOFS of the family "other", the step and the main loop (42 R180, 45 R230, R231; log 1, log 2, log 25). A step is its
instruction followed by the move of the sequencer, which the position before it fixes, since no instruction of a step
moves the sequencer itself. POLL is the removal of a marker and HANDLE_COMMAND of it; a command whose bytes are queued
reaches `exec` as the instruction those bytes decode to. -/

namespace Sys2Proof.Machine

/-! ## Sequencing -/

theorem andThen_congr {α β : Type} {o : Result α} {f g : α → Result β} (h : ∀ a, o = .next a → f a = g a) :
    andThen o f = andThen o g := by
  cases o with
  | next a => exact h a rfl
  | fault r => rfl
  | refused r => rfl

/-! ## Deliveries that deliver nothing -/

/-- Where the next byte is still to arrive, a delivery changes nothing. -/
theorem deliver_of_late {s : State} (h : ∀ b ∈ s.link.hostStream.head?, s.clock.t < b.arrival) : deliver s = .next s := by
  have harrive : arrive s.params.rxFifoDepth s.clock.t s.link.rxq s.link.hostStream = some s.link := by
    rcases hl : s.link with ⟨q, _ | ⟨b, bs⟩⟩
    · rfl
    · have hb : s.clock.t < b.arrival := h b (by rw [hl]; rfl)
      rw [arrive, if_neg hb.not_ge]
  rw [deliver, harrive]

theorem removeOldest_of_empty {s : State} (h : s.link.rxq = []) : removeOldest s = none := by
  rw [removeOldest, h]

theorem takeMarker_of_none {s : State} (hq : s.link.rxq = [])
    (hlate : ∀ b ∈ s.link.hostStream.head?, s.clock.t < b.arrival) : takeMarker s = .next (none, s) := by
  rw [takeMarker, deliver_of_late hlate, andThen_next, removeOldest_of_empty hq]

/-- A POLL that found no marker finds none at the same instant again. -/
theorem takeMarker_again {s u : State} (h : takeMarker s = .next (none, u)) : takeMarker u = .next (none, u) := by
  have hq : u.link.rxq = [] := (takeMarker_next h).2.2.2 rfl
  obtain ⟨v, hv, h⟩ := andThen_eq_next.1 h
  obtain ⟨-, hclock, hlate⟩ := deliver_next hv
  split at h
  · cases h
    exact takeMarker_of_none hq (by rw [hclock]; exact hlate)
  · obtain ⟨w, -, h⟩ := andThen_eq_next.1 h
    cases h

/-! ## The step at each position -/

theorem nextPosition_of_poll {s : State} (h : s.seq.phase = .poll) :
    nextPosition s = setScanphase .assert (setPhase .scan s) := by
  rw [nextPosition, h]

theorem nextPosition_of_assert {s : State} (h : s.seq.phase = .scan) (hs : s.seq.scanphase = .assert) :
    nextPosition s = setScanphase .hold s := by simp only [nextPosition, h, hs]

theorem nextPosition_of_hold {s : State} (h : s.seq.phase = .scan) (hs : s.seq.scanphase = .hold) :
    nextPosition s = setScanphase .blank s := by simp only [nextPosition, h, hs]

theorem nextPosition_of_blank {s : State} (h : s.seq.phase = .scan) (hs : s.seq.scanphase = .blank) :
    nextPosition s = setScanphase .advance s := by simp only [nextPosition, h, hs]

theorem nextPosition_of_advance {s : State} (h : s.seq.phase = .scan) (hs : s.seq.scanphase = .advance) :
    nextPosition s = setPhase .tick s := by simp only [nextPosition, h, hs]

theorem nextPosition_of_tick {s : State} (h : s.seq.phase = .tick) : nextPosition s = setPhase .poll s := by
  rw [nextPosition, h]

theorem step_of_poll {s : State} (h : s.seq.phase = .poll) :
    step s = andThen (exec .poll s) fun s' => .next (nextPosition s') := by
  have hpoll : exec .poll s = execPoll s := rfl
  rw [step, fetch, h, hpoll, execPoll, andThen_assoc, andThen_assoc]
  refine andThen_congr ?_
  rintro ⟨_ | m, u⟩ hu
  · have hagain : exec .poll u = elapse u := by
      change execPoll u = _
      rw [execPoll, takeMarker_again hu, andThen_next]
    simp only [andThen_next, hagain]
  · simp only [execHandleCommand, andThen_assoc, andThen_next, exec_toInstr]

theorem step_of_scan {s : State} (h : s.seq.phase = .scan) :
    step s = andThen (exec (scanInstr s) s) fun s' => .next (nextPosition s') := by
  rw [step, fetch, h, andThen_next]

theorem step_of_tick {s : State} (h : s.seq.phase = .tick) :
    step s = andThen (exec .animTick s) fun s' => .next (nextPosition s') := by
  rw [step, fetch, h, andThen_next]

theorem scanInstr_assert {s : State} (h : s.seq.scanphase = .assert) :
    scanInstr s = .rowActivate (rowOf s.store.rb s.seq.currentRow) s.seq.currentRow := by
  rw [scanInstr, h]
  simp only [chainInstr, assertWord, decodeChainWord_rowWord, columnData]

theorem scanInstr_hold {s : State} (h : s.seq.scanphase = .hold) : scanInstr s = .hold := by rw [scanInstr, h]

theorem scanInstr_blank {s : State} (h : s.seq.scanphase = .blank) : scanInstr s = .blank := by
  rw [scanInstr, h]
  rfl

theorem scanInstr_advance {s : State} (h : s.seq.scanphase = .advance) : scanInstr s = .advance := by rw [scanInstr, h]

/-- The operations of the scan and the tick check leave the phase and the scan phase where they are. -/
theorem exec_position {i : Instr} {s s' : State} (h : exec i s = .next s')
    (hi : (∃ c row, i = .rowActivate c row) ∨ i = .hold ∨ i = .blank ∨ i = .advance ∨ i = .animTick) :
    s'.seq.phase = s.seq.phase ∧ s'.seq.scanphase = s.seq.scanphase := by
  have of_time : ∀ {u}, OnlyTime u s' → u.seq.phase = s.seq.phase ∧ u.seq.scanphase = s.seq.scanphase →
      s'.seq.phase = s.seq.phase ∧ s'.seq.scanphase = s.seq.scanphase := by
    intro u htime hu
    rw [htime.rest]
    exact hu
  obtain ⟨c, row, rfl⟩ | rfl | rfl | rfl | rfl := hi
  · obtain ⟨τ, -, -, htime⟩ := outputPair_next h
    exact of_time htime ⟨rfl, rfl⟩
  · exact of_time (pass_next h).1 ⟨rfl, rfl⟩
  · obtain ⟨τ, -, -, htime⟩ := blankOutputs_next h
    exact of_time htime ⟨rfl, rfl⟩
  · exact of_time (elapse_next h) ⟨rfl, rfl⟩
  · rw [exec_animTick] at h
    refine of_time (elapse_next h) ?_
    split <;> exact ⟨rfl, rfl⟩

/-- A part of the scan step: its instruction, and the move from its scan phase. -/
theorem step_of_scan_part {s : State} {i : Instr} {move : State → State} (hp : s.seq.phase = .scan)
    (hi : scanInstr s = i)
    (hkeeps : (∃ c row, i = .rowActivate c row) ∨ i = .hold ∨ i = .blank ∨ i = .advance ∨ i = .animTick)
    (hmove : ∀ u : State, u.seq.phase = .scan → u.seq.scanphase = s.seq.scanphase → nextPosition u = move u) :
    step s = andThen (exec i s) fun s' => .next (move s') := by
  rw [step_of_scan hp, hi]
  refine andThen_congr fun u hu => ?_
  obtain ⟨hphase, hscan⟩ := exec_position hu hkeeps
  rw [hmove u (hphase.trans hp) hscan]

/-- Settles O8: the step is the instruction in turn, and the position before it, which it does not move, names the next. -/
theorem stepRunsTheOperationInTurn : Obligations.StepRunsTheOperationInTurn := by
  unfold Obligations.StepRunsTheOperationInTurn
  refine ⟨fun s hp => ?poll, fun s hp hs => ?assert, fun s hp hs => ?hold, fun s hp hs => ?blank, fun s hp hs => ?advance,
    fun s hp => ?tick⟩
  case poll =>
    rw [step_of_poll hp]
    refine andThen_congr fun s' h => ?_
    rw [nextPosition_of_poll ((execPoll_still h).phase.trans hp)]
  case assert =>
    exact step_of_scan_part hp (scanInstr_assert hs) (.inl ⟨_, _, rfl⟩) fun u hu hus =>
      nextPosition_of_assert hu (hus.trans hs)
  case hold =>
    exact step_of_scan_part hp (scanInstr_hold hs) (by simp) fun u hu hus => nextPosition_of_hold hu (hus.trans hs)
  case blank =>
    exact step_of_scan_part hp (scanInstr_blank hs) (by simp) fun u hu hus => nextPosition_of_blank hu (hus.trans hs)
  case advance =>
    exact step_of_scan_part hp (scanInstr_advance hs) (by simp) fun u hu hus => nextPosition_of_advance hu (hus.trans hs)
  case tick =>
    rw [step_of_tick hp]
    refine andThen_congr fun s' h => ?_
    rw [nextPosition_of_tick ((exec_position h (by simp)).1.trans hp)]

/-! ## Six steps -/

theorem setPhase_self {s : State} {p : Phase} (h : s.seq.phase = p) : setPhase p s = s := by
  subst h
  rfl

/-- Settles O9: each of the six steps is its operation and the move, and the moves are those MAIN_LOOP makes. -/
theorem sixStepsAreOneIteration : Obligations.SixStepsAreOneIteration := by
  unfold Obligations.SixStepsAreOneIteration
  intro s hs
  obtain ⟨hpoll, hassert, hhold, hblank, hadvance, htick⟩ := stepRunsTheOperationInTurn
  have hloop : exec .mainLoop s = execMainLoop s := rfl
  rw [hloop, execMainLoop, setPhase_self hs, steps, hpoll s hs, andThen_assoc]
  refine andThen_congr fun u _ => ?_
  rw [andThen_next, steps, hassert _ rfl rfl, execScanStep, andThen_assoc, andThen_assoc]
  refine andThen_congr fun v hv => ?_
  have hvp : v.seq.phase = .scan := (exec_position hv (.inl ⟨_, _, rfl⟩)).1
  rw [andThen_next, steps, hhold (setScanphase .hold v) hvp rfl, andThen_assoc, andThen_assoc]
  refine andThen_congr fun w hw => ?_
  have hwp : w.seq.phase = .scan := (exec_position hw (by simp)).1.trans hvp
  rw [andThen_next, steps, hblank (setScanphase .blank w) hwp rfl, andThen_assoc, andThen_assoc]
  refine andThen_congr fun x hx => ?_
  have hxp : x.seq.phase = .scan := (exec_position hx (by simp)).1.trans hwp
  rw [andThen_next, steps, hadvance (setScanphase .advance x) hxp rfl, andThen_assoc]
  refine andThen_congr fun y hy => ?_
  rw [andThen_next, steps, htick (setPhase .tick y) rfl, andThen_assoc]
  exact andThen_congr fun z _ => rfl

/-! ## POLL -/

/-- Settles O10: with no byte arrived POLL finds no marker, and its time is one drawn duration. -/
theorem pollOfAnEmptyQueueDoesNothing : Obligations.PollOfAnEmptyQueueDoesNothing := by
  unfold Obligations.PollOfAnEmptyQueueDoesNothing
  intro s h hq hlate
  have hpoll : exec .poll s = elapse s := by
    change execPoll s = _
    rw [execPoll, takeMarker_of_none hq hlate, andThen_next]
  obtain ⟨s', hs', htime⟩ := elapse_completes h
  exact ⟨s', hpoll.trans hs', htime, (deliver_next hs').2.1⟩

/-- The oldest byte of the stream is the marker, once it has arrived. -/
theorem takeMarker_arrived {s : State} {b : RxByte} (h : Paced s) (hb : (stream s).head? = some b)
    (harrived : s.link.rxq ≠ [] ∨ b.arrival ≤ s.clock.t) :
    ∃ s', takeMarker s = .next (some b.byte, s') ∧ stream s' = (stream s).drop 1 := by
  obtain ⟨u, hu⟩ := deliver_completes h
  obtain ⟨htime, -, hlate⟩ := deliver_next hu
  have hub : (stream u).head? = some b := by rw [htime.kept, hb]
  cases hq : u.link.rxq with
  | nil =>
    rw [stream, hq, List.nil_append] at hub
    have hlt := hlate b (by rw [hub]; rfl)
    have hnil : s.link.rxq = [] := List.prefix_nil.1 (hq ▸ htime.queued)
    rcases harrived with hne | hle
    · exact absurd hnil hne
    · exact absurd hle hlt.not_ge
  | cons x q =>
    have hx : x = b := by simpa [stream, hq] using hub
    subst hx
    have htake : removeOldest u = some (x.byte, { u with link.rxq := q }) := by rw [removeOldest, hq]
    obtain ⟨w, hw, wtime⟩ := elapse_completes ((removeOldest_kept htake).paced (htime.paced h))
    refine ⟨w, by rw [takeMarker, hu, andThen_next, htake]; simp only [hw, andThen_next], ?_⟩
    rw [wtime.kept, ← htime.kept]
    simp [stream, hq]

theorem exec_poll_of_marker {s u : State} {m : Byte} (h : takeMarker s = .next (some m, u)) :
    exec .poll s = exec (.handleCommand m) u := by
  change execPoll s = _
  rw [execPoll, h, andThen_next]
  rfl

/-- Settles O11: the marker is the oldest byte, and POLL goes on as HANDLE_COMMAND. -/
theorem pollHandlesTheOldestByte : Obligations.PollHandlesTheOldestByte := by
  unfold Obligations.PollHandlesTheOldestByte
  intro s b h hb harrived
  obtain ⟨u, hu, hstream⟩ := takeMarker_arrived h hb harrived
  obtain ⟨honly, hrx, hseq, -⟩ := takeMarker_next hu
  exact ⟨u, honly, hrx, hseq, hstream, exec_poll_of_marker hu⟩

/-! ## A command whose bytes are queued -/

theorem receiveCommand_queued {c : Command} {m : Byte} {ops rest : List Byte} {s : State} (h : Paced s)
    (hc : wholeCommand c = true) (hb : c.bytes = m :: ops) (hq : ops ++ rest <+: queuedBytes s) :
    ∃ s1, receiveCommand m s = .next (c, s1) ∧ OnlyReception s s1 ∧ stream s1 = (stream s).drop ops.length := by
  obtain ⟨s1, hs1, hdec, -, hstream⟩ := receive_queued h hc hb hq
  exact ⟨s1, by rw [receiveCommand, hs1, andThen_next, hdec], receive_next hs1, hstream⟩

/-- A received command is run, and for a paced host it completes. -/
theorem handleCommand_of_received {c : Command} {m : Byte} {s s1 : State} (h : Paced s1)
    (hs1 : receiveCommand m s = .next (c, s1)) :
    ∃ s', exec c.toInstr s1 = .next s' ∧ exec (.handleCommand m) s = .next s' := by
  obtain ⟨s', hs', -⟩ := exec_completes c.toInstr h
  refine ⟨s', hs', ?_⟩
  change execHandleCommand m s = _
  rw [execHandleCommand, hs1, andThen_next, ← exec_toInstr, hs']

/-- Settles O13: HANDLE_COMMAND receives the command and runs it, which completes for a paced host. -/
theorem handleCommandRunsTheReceivedCommand : Obligations.HandleCommandRunsTheReceivedCommand := by
  unfold Obligations.HandleCommandRunsTheReceivedCommand
  intro s c m ops h hc hb hq
  obtain ⟨s1, hs1, honly, hstream⟩ := receiveCommand_queued (rest := []) h hc hb (by simpa using hq)
  obtain ⟨s', hrun⟩ := handleCommand_of_received (honly.paced h) hs1
  exact ⟨s1, s', honly, hstream, hrun⟩

/-- The marker of a queued command is removed, and its other bytes are then at the front. -/
theorem takeMarker_command {c : Command} {m : Byte} {ops rest : List Byte} {s : State} (h : Paced s)
    (hb : c.bytes = m :: ops) (hq : c.bytes ++ rest <+: queuedBytes s) :
    ∃ u, takeMarker s = .next (some m, u) ∧ OnlyReception s u ∧ ops ++ rest <+: queuedBytes u ∧
      stream u = (stream s).drop 1 := by
  rw [hb, List.cons_append] at hq
  obtain ⟨u, hu, hrest, hstream⟩ := takeMarker_queued h hq
  exact ⟨u, hu, (takeMarker_next hu).1, hrest, hstream⟩

theorem received_of_marker {c : Command} {m : Byte} {ops : List Byte} {s u s1 : State} (hb : c.bytes = m :: ops)
    (hu : OnlyReception s u) (hust : stream u = (stream s).drop 1) (h1 : OnlyReception u s1)
    (h1st : stream s1 = (stream u).drop ops.length) : Received c s s1 :=
  ⟨hu.trans h1, by rw [h1st, hust, List.drop_drop, hb, List.length_cons, Nat.add_comm]⟩

/-- Settles O12: the marker is removed, and HANDLE_COMMAND takes the rest of the command. -/
theorem pollRunsOneQueuedCommand : Obligations.PollRunsOneQueuedCommand := by
  unfold Obligations.PollRunsOneQueuedCommand
  intro s c h hc hq
  obtain ⟨m, ops, hb⟩ := c.bytes_eq_cons
  obtain ⟨u, hu, huonly, hops, hust⟩ := takeMarker_command (rest := []) h hb (by simpa using hq)
  obtain ⟨s1, s', h1, h1st, hs', hhandle⟩ :=
    handleCommandRunsTheReceivedCommand u c m ops (huonly.paced h) hc hb (by simpa using hops)
  exact ⟨s1, s', received_of_marker hb huonly hust h1 h1st, hs', (exec_poll_of_marker hu).trans hhandle⟩

/-- The fetch of a queued command takes exactly its bytes. -/
theorem fetch_queued {s : State} {c : Command} {rest : List Byte} (hphase : s.seq.phase = .poll) (h : Paced s)
    (hc : wholeCommand c = true) (hq : c.bytes ++ rest <+: queuedBytes s) :
    ∃ s1, fetch s = .next (c.toInstr, s1) ∧ Received c s s1 := by
  obtain ⟨m, ops, hb⟩ := c.bytes_eq_cons
  obtain ⟨u, hu, huonly, hops, hust⟩ := takeMarker_command h hb hq
  obtain ⟨s1, hs1, h1, h1st⟩ := receiveCommand_queued (huonly.paced h) hc hb hops
  refine ⟨s1, ?_, received_of_marker hb huonly hust h1 h1st⟩
  rw [fetch, hphase]
  simp only [hu, hs1, andThen_next]

/-- Settles O7: the fetch takes the command's bytes, and the command leaves the sequencer at POLL, which the move leaves. -/
theorem stepRunsTheQueuedCommand : Obligations.StepRunsTheQueuedCommand := by
  unfold Obligations.StepRunsTheQueuedCommand
  intro s c hphase h hc hq
  obtain ⟨s1, hs1, hreceived⟩ := fetch_queued (rest := []) hphase h hc (by simpa using hq)
  refine ⟨s1, hreceived, ?_⟩
  rw [step, hs1, andThen_next]
  refine andThen_congr fun s2 hs2 => ?_
  have hstill := (ScannerStill.of_reception hreceived.only).trans (runCommand_still ((exec_toInstr c s1).symm.trans hs2))
  rw [nextPosition_of_poll (hstill.phase.trans hphase)]

/-! ## The host's words -/

theorem takeFrame_enough {bs : List Byte} (h : 8 ≤ bs.length) : ∃ f rest, takeFrame bs = some (f, rest) ∧
    f.bytes ++ rest = bs := by
  match bs, h with
  | b0 :: b1 :: b2 :: b3 :: b4 :: b5 :: b6 :: b7 :: rest, _ => exact ⟨⟨b0, b1, b2, b3, b4, b5, b6, b7⟩, rest, rfl, rfl⟩

theorem takeFrames_enough : ∀ {n : Nat} {bs : List Byte}, 8 * n ≤ bs.length →
    (takeFrames n bs).1.length = n ∧ framesBytes (takeFrames n bs).1 ++ (takeFrames n bs).2 = bs
  | 0, _, _ => ⟨rfl, rfl⟩
  | n + 1, bs, h => by
    obtain ⟨f, rest, hf, hbs⟩ := takeFrame_enough (bs := bs) (by omega)
    have hlen : 8 + rest.length = bs.length := by rw [← hbs, List.length_append, Frame.bytes_length]
    obtain ⟨h1, h2⟩ := takeFrames_enough (n := n) (bs := rest) (by omega)
    simp only [takeFrames, hf]
    exact ⟨by rw [List.length_cons, h1], by rw [framesBytes, List.append_assoc, h2, hbs]⟩

/-- Behind a first byte and as many bytes as the longest command has, a command is found whole. -/
theorem decodeCommand_of_long {bs : List Byte} (h : longestCommand ≤ bs.length + 1) (m : Byte) :
    wholeCommand (decodeCommand m bs).1 = true ∧
      (decodeCommand m bs).1.bytes ++ (decodeCommand m bs).2 = m :: bs := by
  have hlen : 82 ≤ bs.length := Nat.le_of_succ_le_succ h
  by_cases hs : m = Config.mSingle
  · subst hs
    obtain ⟨f, rest, hf, rfl⟩ := takeFrame_enough (bs := bs) (by omega)
    cases rest with
    | nil => simp [Frame.bytes_length] at hlen
    | cons e rest => exact ⟨rfl, rfl⟩
  by_cases ha : m = Config.mAnim
  · subst ha
    match bs, hlen with
    | n :: bs, hlen =>
      rw [decodeCommand_mAnim]
      by_cases hn : countAccepted n = true
      · have hbound := countAccepted_bound hn
        rw [List.length_cons] at hlen
        obtain ⟨hcount, hframes⟩ := takeFrames_enough (n := n.toNat) (bs := bs) (by omega)
        generalize takeFrames n.toNat bs = p at hcount hframes
        obtain ⟨fs, after⟩ := p
        simp only at hcount hframes
        subst hframes
        cases after with
        | nil => rw [List.length_append, framesBytes_length, List.length_nil] at hlen; omega
        | cons e after =>
          rw [decodeAnimation_accepted hn, decodeFrames_whole hcount]
          exact ⟨by simp [wholeCommand, hn, hcount, takeByte], by simp [Command.bytes, takeByte]⟩
      · rw [decodeAnimation_rejected hn]
        exact ⟨by simp [wholeCommand, hn], rfl⟩
  by_cases hb : m = Config.mBright
  · subst hb
    match bs, hlen with
    | b :: bs, _ => exact ⟨rfl, rfl⟩
  · rw [decodeCommand_ignored bs hs ha hb]
    exact ⟨by simp [wholeCommand, isStartMarker, hs, ha, hb], rfl⟩

theorem tableBytes_length (nbits w : Nat) : (tableBytes nbits w).length = longestCommand := by
  rw [tableBytes, List.length_map, List.length_range]

theorem queuedBytes_storeCommandBytes (bs : List Byte) (s : State) :
    queuedBytes (storeCommandBytes bs s) = bs ++ queuedBytes s := by
  simp [queuedBytes, storeCommandBytes, Function.comp_def]

/-- A command placed in `RXQ` is the next one fetched. -/
theorem fetch_storeCommandBytes {nbits w : Nat} {i : Instr} {rest : List Byte} {s : State}
    (h : Paced (storeCommandBytes (tableBytes nbits w) s)) (hdec : decode (tableBytes nbits w) = .ok (i, rest)) :
    ∃ s1, fetch (storeCommandBytes (tableBytes nbits w) s) = .next (i, s1) ∧
      OnlyReception (storeCommandBytes (tableBytes nbits w) s) s1 := by
  have hlen := tableBytes_length nbits w
  cases hbs : tableBytes nbits w with
  | nil => rw [hbs] at hlen; cases hlen
  | cons m bs =>
    rw [hbs] at hlen hdec h
    obtain ⟨hwhole, hbytes⟩ := decodeCommand_of_long (bs := bs) hlen.ge m
    cases hdec
    obtain ⟨s1, hs1, hreceived⟩ := fetch_queued (s := storeCommandBytes (m :: bs) s) (rest := (decodeCommand m bs).2)
      rfl h hwhole (by rw [hbytes, queuedBytes_storeCommandBytes]; exact List.prefix_append _ _)
    exact ⟨s1, hs1, hreceived.only⟩

theorem rowOf_setRow (f : Frame) (c : Byte) (row : RowIndex) : rowOf (setRow f row c) row = c := by
  unfold setRow
  split <;> rfl

/-- A chain word placed in the scan step is the next one latched. -/
theorem fetch_storeChainWord {w : ChainWord} {i : Instr} {s : State} (hdec : decodeChainWord w = .ok i) :
    fetch (storeChainWord w s) = .next (i, storeChainWord w s) := by
  obtain ⟨rfl, rfl⟩ | ⟨c, row, rfl, rfl⟩ := decodeChainWord_eq_ok hdec
  · rfl
  · simp only [storeChainWord, decodeChainWord_rowWord]
    rw [fetch]
    simp only [setScanphase_seq, setPhase_seq]
    rw [scanInstr_assert rfl]
    simp only [setScanphase_seq, setPhase_seq, setScanphase_store, setPhase_store, rowOf_setRow]

/-- Settles O6: a word of 16 bits is placed in the scan step, any other in `RXQ`, and each is fetched there. -/
theorem placedTableWordIsFetched : Obligations.PlacedTableWordIsFetched := by
  unfold Obligations.PlacedTableWordIsFetched
  intro s nbits w i h hdec
  rw [State.withFetchWord, storeFetchWord] at h ⊢
  rw [decodeTableWord] at hdec
  split at hdec
  · next hn =>
    rw [if_pos hn] at h ⊢
    split at hdec <;> cases hdec
    next hw => exact ⟨_, fetch_storeChainWord hw, .refl _⟩
  · next hn =>
    rw [if_neg hn] at h ⊢
    split at hdec
    · cases hdec
    · split at hdec <;> cases hdec
      next hw => exact fetch_storeCommandBytes h hw

/-! ## One iteration -/

theorem execAnimTick_next {s s' : State} (h : execAnimTick s = .next s') :
    OnlyTime (if tickDue s then advanceFrame s else s) s' := elapse_next h

/-- What the tick check does not write. -/
theorem animTick_apart (s : State) :
    (if tickDue s then advanceFrame s else s) =
      { s with
        store := (if tickDue s then advanceFrame s else s).store
        anim := (if tickDue s then advanceFrame s else s).anim
        ie := (if tickDue s then advanceFrame s else s).ie } := by
  split <;> rfl

/-- What POLL, the scan step and the tick check of one iteration leave of the scanner and of the dwell time. -/
theorem execMainLoop_next {s s' : State} (h : execMainLoop s = .next s') : s'.seq.phase = .poll ∧
    s'.seq.currentRow = s.seq.currentRow + 1 ∧ s'.chain.out = 0 ∧ s.clock.t + s'.dwellUs ≤ s'.clock.t := by
  obtain ⟨u, hpoll, h⟩ := andThen_eq_next.1 h
  obtain ⟨v, hscan, h⟩ := andThen_eq_next.1 h
  obtain ⟨w, htick, h⟩ := andThen_eq_next.1 h
  cases h
  have hu := execPoll_still hpoll
  have hsu : s.clock.t ≤ u.clock.t := (execPoll_answers (setPhase .poll s)).kept hpoll |>.forward
  obtain ⟨t1, t2, hut1, hdwell, ht2v, hv⟩ := execScanStep_next hscan
  have hw := execAnimTick_next htick
  rw [animTick_apart] at hw
  have hrow : w.seq.currentRow = v.seq.currentRow := by rw [hw.rest]; rfl
  have hout : w.chain.out = v.chain.out := by rw [hw.rest]; rfl
  have hdw : w.dwellUs = v.dwellUs := by rw [hw.rest]; rfl
  have hvdw : v.dwellUs = u.dwellUs := by rw [hv.rest]; rfl
  have hvw : v.clock.t ≤ w.clock.t := hw.forward
  refine ⟨rfl, ?row, ?out, ?time⟩
  case row =>
    rw [setPhase_seq, hrow, hv.rest]
    exact congrArg (· + 1) hu.row
  case out => rw [setPhase_chain, hout, hv.rest]
  case time =>
    rw [setPhase_dwellUs, setPhase_clock, hdw, hvdw]
    simp only [setPhase_clock, setPhase_dwellUs] at hut1 hdwell
    omega

/-- Settles O15: the scan step moves the row and leaves the outputs blank after the dwell time that POLL left; neither
POLL nor the tick check moves the scanner, and the tick check does not write the dwell time. -/
theorem iterationScansOneRow : Obligations.IterationScansOneRow := by
  unfold Obligations.IterationScansOneRow
  intro s h
  obtain ⟨s', hs', -⟩ := exec_completes .mainLoop h
  exact ⟨s', hs', execMainLoop_next hs'⟩

end Sys2Proof.Machine
end

section
/-! PROOFS of the family "other", the invariant of the block (10 R23, R24, R27, R33, R47; 42 R188, R191, R192). The invariant
is cut into the part that commands and ticks write, the part that the scanner writes, the receiver at rest, and the queue
within its depth; a step touches the first or the second, and the relations `OnlyTime`, `OnlyReception`, `OnlyDiagnostic`
carry the others over. -/

namespace Sys2Proof.Machine

/-! ## The parts of the invariant -/

/-- The frame store, the animation and the dwell time. -/
structure StoreInv (s : State) : Prop where
  legal     : s.params.Legal
  dwell     : s.params.brightnessMin ≤ s.dwellUs ∧ s.dwellUs ≤ s.params.brightnessMax
  animation : AnimationOk s
  render    : RenderOk s
  ie        : s.ie = true
  timer     : s.anim.active = true → s.anim.lastFrameChangeMs ≤ nowMs s

/-- The outputs and the lines. -/
structure ScanInv (s : State) : Prop where
  outputs : OutputsOk s
  lines   : s.chain.srclk = false ∧ s.chain.rclk = false

/-- The receiver at rest. -/
def ReceiverIdle (s : State) : Prop := s.seq.rxstate = .idle ∧ s.rx.stage = []

theorem blockInv_iff (s : State) : BlockInv s ↔ StoreInv s ∧ ScanInv s ∧ ReceiverIdle s ∧ Room s := by
  constructor
  · rintro ⟨hlegal, hdwell, hanim, hrender, hout, hrx, hie, hlines, htimer, hqueue⟩
    exact ⟨⟨hlegal, hdwell, hanim, hrender, hie, htimer⟩, ⟨hout, hlines⟩, hrx, hqueue⟩
  · rintro ⟨⟨hlegal, hdwell, hanim, hrender, hie, htimer⟩, ⟨hout, hlines⟩, hrx, hqueue⟩
    exact ⟨hlegal, hdwell, hanim, hrender, hout, hrx, hie, hlines, htimer, hqueue⟩

/-! ## The frame store, the animation and the dwell time -/

/-- What `StoreInv` reads; of the trace it reads the last commits and clears alone. -/
structure SameStore (s s' : State) : Prop where
  params : s'.params = s.params
  dwell  : s'.dwellUs = s.dwellUs
  store  : s'.store = s.store
  anim   : s'.anim = s.anim
  ie     : s'.ie = s.ie
  since  : animationSince s'.trace = animationSince s.trace
  frozen : frozenFrame s'.trace = frozenFrame s.trace
  clock  : s.clock.t ≤ s'.clock.t

/-- A write apart from what `StoreInv` reads. -/
theorem SameStore.of_apart {s s' : State} (params : s'.params = s.params := by rfl)
    (dwell : s'.dwellUs = s.dwellUs := by rfl) (store : s'.store = s.store := by rfl)
    (anim : s'.anim = s.anim := by rfl) (ie : s'.ie = s.ie := by rfl)
    (since : animationSince s'.trace = animationSince s.trace := by rfl)
    (frozen : frozenFrame s'.trace = frozenFrame s.trace := by rfl) (clock : s'.clock = s.clock := by rfl) :
    SameStore s s' := ⟨params, dwell, store, anim, ie, since, frozen, by rw [clock]⟩

theorem SameStore.of_time {s s' : State} (h : OnlyTime s s') : SameStore s s' := by
  refine ⟨?_, ?_, ?_, ?_, ?_, ?_, ?_, h.forward⟩ <;> rw [h.rest]

theorem SameStore.of_diagnostic {s s' : State} (h : OnlyDiagnostic s s') : SameStore s s' := by
  refine ⟨?_, ?_, ?_, ?_, ?_, ?_, ?_, h.time.forward⟩ <;> rw [h.time.rest]

theorem SameStore.of_reception {s s' : State} (h : OnlyReception s s') : SameStore s s' := by
  refine ⟨?_, ?_, ?_, ?_, ?_, ?_, ?_, h.forward⟩ <;> rw [h.rest]

theorem StoreInv.same {s s' : State} (h : StoreInv s) (k : SameStore s s') : StoreInv s' := by
  obtain ⟨hlegal, hdwell, ⟨hcount, hlive, hactive, hinactive⟩, ⟨rshown, rstill, rstopped⟩, hie, htimer⟩ := h
  obtain ⟨kparams, kdwell, kstore, kanim, kie, ksince, kfrozen, kclock⟩ := k
  refine ⟨kparams ▸ hlegal, by rw [kparams, kdwell]; exact hdwell, ⟨?_, ?_, ?_, ?_⟩, ⟨?_, ?_, ?_⟩, kie.trans hie, ?_⟩
  · rwa [kanim]
  · rwa [kanim, kstore]
  · rwa [kanim]
  · rwa [kanim]
  · rwa [kanim, kstore, ksince]
  · rwa [kanim, kstore, ksince]
  · rwa [kanim, kstore, ksince, kfrozen, kparams]
  · rw [kanim]
    exact fun ha => (htimer ha).trans (Nat.div_le_div_right kclock)

/-- A write apart from what `StoreInv` reads, and time after it. -/
theorem StoreInv.after_time {s w s' : State} (h : StoreInv s) (htime : OnlyTime w s')
    (hwrite : SameStore s w := by exact .of_apart) : StoreInv s' :=
  (h.same hwrite).same (.of_time htime)

theorem StoreInv.setScanphase (p : ScanPhase) {s : State} (h : StoreInv s) : StoreInv (setScanphase p s) :=
  h.same .of_apart

theorem StoreInv.setPhase (p : Phase) {s : State} (h : StoreInv s) : StoreInv (setPhase p s) := h.same .of_apart

theorem commitStatic_storeInv (f : Frame) {s : State} (h : StoreInv s) : StoreInv (commitStatic f s) := by
  refine ⟨h.legal, h.dwell, ⟨Nat.zero_le _, rfl, ?_, fun _ => ⟨rfl, rfl⟩⟩, ⟨?_, fun _ _ => rfl, ?_⟩, rfl, ?_⟩
  · intro hactive; cases hactive
  · intro hactive; cases hactive
  · intro _ hsince; cases hsince
  · intro hactive; cases hactive

theorem commitAnimation_storeInv {n : Nat} {g : List Frame} {s : State} (h1 : 1 ≤ n) (h10 : n ≤ 10)
    (hlen : n ≤ g.length) (h : StoreInv s) : StoreInv (commitAnimation n g s) := by
  have hfirst : (g.take n)[0]? = some (g.head?.getD s.store.rb) := by
    rw [List.getElem?_take_of_lt h1, ← List.head?_eq_getElem?]
    cases g with
    | nil => exact absurd (h1.trans hlen) (by simp)
    | cons f fs => rfl
  refine ⟨h.legal, h.dwell, ⟨h10, List.length_take_of_le hlen, fun _ => h1, ?_⟩, ⟨fun _ => ⟨hfirst, rfl⟩, ?_, ?_⟩, rfl,
    fun _ => le_rfl⟩
  · intro hinactive; cases hinactive
  · intro hinactive; cases hinactive
  · intro hinactive; cases hinactive

theorem shownFrame_of_inactive {s : State} (h : s.anim.active = false) : shownFrame s = none := by
  rw [shownFrame, h, if_neg Bool.false_ne_true]

/-- While an animation is active the Frame at its index is the one on display (10 R23, first arm). -/
theorem shownFrame_of_active {s : State} (h : RenderOk s) (hactive : s.anim.active = true) :
    shownFrame s = some s.store.rb := by
  rw [shownFrame, if_pos hactive, animationFrame, (h.active hactive).1, Option.getD_some]

/-- Clearing the animation freezes the Frame on display, or shows `SI` (10 R23, third arm; C1). -/
theorem clearAnimation_storeInv {s : State} (h : StoreInv s) : StoreInv (clearAnimation s) := by
  rw [clearAnimation_eq]
  refine ⟨h.legal, h.dwell, ⟨Nat.zero_le _, rfl, ?_, fun _ => ⟨rfl, rfl⟩⟩, ⟨?_, ?_, ?_⟩, rfl, ?_⟩
  · intro hactive; cases hactive
  · intro hactive; cases hactive
  · intro _ hsince
    cases hactive : s.anim.active with
    | true => exact absurd (h.render.active hactive).2 (Bool.eq_false_iff.1 hsince)
    | false =>
      have hrb := h.render.still hactive hsince
      simp only [hrb, ite_self]
  · intro _ hsince
    cases hpolicy : s.params.renderOnAnimAbort with
    | static => rfl
    | keep =>
      cases hactive : s.anim.active with
      | true => simp only [shownFrame_of_active h.render hactive, if_true]; rfl
      | false =>
        have hfrozen := h.render.stopped hactive hsince
        simp only [hpolicy] at hfrozen
        simp only [shownFrame_of_inactive hactive, if_true]
        exact hfrozen
  · intro hactive; cases hactive

theorem dwellOf_range {p : Params} (h : p.Legal) (b : Byte) :
    p.brightnessMin ≤ dwellOf p b ∧ dwellOf p b ≤ p.brightnessMax := by
  have hmax : b.toNat ≤ (0xFF : Byte).toNat := Nat.le_of_lt_succ b.isLt
  exact ⟨Nat.le_add_right _ _, (dwellOf_mono p hmax).trans (dwellOf_max h.1).le⟩

theorem setBrightness_storeInv (b : Byte) {s : State} (h : StoreInv s) : StoreInv (setBrightness b s) := by
  have hsame : SameStore { s with dwellUs := dwellOf s.params b } (setBrightness b s) :=
    ⟨rfl, rfl, rfl, rfl, h.ie.symm, rfl, rfl, le_rfl⟩
  obtain ⟨hlegal, -, hanim, hrender, hie, htimer⟩ := h
  have hwritten : StoreInv { s with dwellUs := dwellOf s.params b } :=
    ⟨hlegal, dwellOf_range hlegal b, ⟨hanim.count, hanim.live, hanim.active, hanim.inactive⟩,
      ⟨hrender.active, hrender.still, hrender.stopped⟩, hie, htimer⟩
  exact hwritten.same hsame

theorem advanceFrame_storeInv {s : State} (h : StoreInv s) (hactive : s.anim.active = true) :
    StoreInv (advanceFrame s) := by
  have hindex := h.animation.active hactive
  have hnext : (s.anim.currentFrameIndex + 1) % s.anim.frameCount < s.anim.frameCount := Nat.mod_lt _ (by omega)
  have hf := List.getElem?_eq_getElem (hnext.trans_eq h.animation.live.symm)
  rw [advanceFrame_eq rfl hf]
  have inactive : ∀ {p : Prop}, s.anim.active = false → p := fun hi => absurd hactive (Bool.eq_false_iff.1 hi)
  exact ⟨h.legal, h.dwell, ⟨h.animation.count, h.animation.live, fun _ => hnext, fun hi => inactive hi⟩,
    ⟨fun _ => ⟨hf, (h.render.active hactive).2⟩, fun hi => inactive hi, fun hi => inactive hi⟩, rfl, fun _ => le_rfl⟩

theorem abortWrites_storeInv (e : ErrorKind) (cmd : CommandKind) {s : State} (h : StoreInv s) :
    StoreInv (abortWrites e cmd s) := by
  cases cmd with
  | animation =>
    rw [abortWrites_animation]
    exact clearAnimation_storeInv (h.same .of_apart)
  | _ => exact h.same .of_apart

theorem setRxstate_storeInv (r : RxState) {s : State} (h : StoreInv s) : StoreInv (setRxstate r s) :=
  h.same .of_apart

theorem returnToLoop_storeInv {s : State} (h : StoreInv s) : StoreInv (returnToLoop s) :=
  h.same .of_apart

theorem runCommand_storeInv {c : Command} {s s' : State} (h : StoreInv s) (hrun : runCommand c s = .next s') :
    StoreInv s' := by
  have hstart := setRxstate_storeInv .commit h
  have finished : ∀ {u}, OnlyDiagnostic (returnToLoop u) s' → StoreInv u → StoreInv s' := fun hd hu =>
    (returnToLoop_storeInv hu).same (.of_diagnostic hd)
  cases runCommand_end hrun with
  | static f _ hd => exact finished hd (commitStatic_storeInv f hstart)
  | animation n fs _ hn hlen hd =>
    obtain ⟨h1, h10⟩ := countAccepted_bound hn
    exact finished hd (commitAnimation_storeInv h1 h10 hlen hstart)
  | brightness b _ hd => exact finished hd (setBrightness_storeInv b hstart)
  | abort e cmd _ hd => exact finished hd (abortWrites_storeInv e cmd h)
  | ignored m _ hd =>
    have hnote : SameStore s { s with trace := .error .unknownMarker none :: s.trace } :=
      .of_apart
    exact (h.same hnote).same (.of_diagnostic hd)

theorem execPoll_storeInv {s s' : State} (h : StoreInv s) (hpoll : execPoll s = .next s') : StoreInv s' := by
  obtain ⟨⟨marker, u⟩, hu, hrest⟩ := andThen_eq_next.1 hpoll
  have htake : StoreInv u := h.same (.of_reception (takeMarker_next hu).1)
  cases marker with
  | none => exact htake.same (.of_time (elapse_next hrest))
  | some m =>
    obtain ⟨v, -, hv, hrun⟩ := execHandleCommand_next hrest
    exact runCommand_storeInv (htake.same (.of_reception hv)) hrun

/-! ## The receiver at rest -/

/-- A command ends with the receiver at rest; an ignored byte leaves it as it was. -/
theorem runCommand_idle {c : Command} {s s' : State} (h : runCommand c s = .next s') :
    ReceiverIdle s' ∨ ∃ m, c = .ignored m ∧ (ReceiverIdle s → ReceiverIdle s') := by
  have finished : ∀ {u}, OnlyDiagnostic (returnToLoop u) s' → ReceiverIdle s' := by
    intro u hd
    rw [ReceiverIdle, hd.time.rest]
    exact ⟨rfl, rfl⟩
  cases runCommand_end h with
  | static f _ hd => exact .inl (finished hd)
  | animation n fs _ _ _ hd => exact .inl (finished hd)
  | brightness b _ hd => exact .inl (finished hd)
  | abort e cmd _ hd => exact .inl (finished hd)
  | ignored m hc hd =>
    refine .inr ⟨m, hc, fun hidle => ?_⟩
    rw [ReceiverIdle, hd.time.rest]
    exact hidle

theorem execHandleCommand_idle {m : Byte} {s s' : State} (hidle : ReceiverIdle s)
    (h : execHandleCommand m s = .next s') : ReceiverIdle s' := by
  obtain ⟨u, hreceive, -, hrun⟩ := execHandleCommand_next h
  obtain hdone | ⟨m', hc, hkeep⟩ := runCommand_idle hrun
  · exact hdone
  · obtain ⟨-, _, _, hk⟩ | ⟨-, _, _, _, hk⟩ | ⟨-, _, hk⟩ | ⟨hm, -⟩ := decodeCommand_kind m (receivedBytes u)
    · rw [hc] at hk; cases hk
    · rw [hc] at hk; cases hk
    · rw [hc] at hk; cases hk
    · rw [receive_not_marker hm] at hreceive
      cases hreceive
      exact hkeep hidle

theorem execPoll_idle {s s' : State} (hidle : ReceiverIdle s) (h : execPoll s = .next s') : ReceiverIdle s' := by
  obtain ⟨⟨marker, u⟩, hu, hrest⟩ := andThen_eq_next.1 h
  obtain ⟨-, hrx, hseq, -⟩ := takeMarker_next hu
  have htake : ReceiverIdle u := by
    rw [ReceiverIdle, hrx, hseq]
    exact hidle
  cases marker with
  | none =>
    rw [ReceiverIdle, (elapse_next hrest).rest]
    exact htake
  | some m => exact execHandleCommand_idle htake hrest

/-! ## The outputs -/

theorem pairWord_ne_zero (order : ShiftOrder) (c : Byte) (row : RowIndex) : pairWord order c row ≠ 0 := by
  cases order with
  | colThenRow => exact rowWord_ne_zero c row
  | rowThenCol =>
    intro h
    refine rowSelect_ne_zero row ?_
    rw [← append_column (rowSelect row) (bitrev8 c)]
    exact congrArg (BitVec.extractLsb' 8 8) h

/-- An ASSERT word may follow a BLANK word, and a BLANK word an ASSERT word (42 R192). -/
theorem alternates_asserted {w : ChainWord} {ws : List ChainWord} (hw : w ≠ 0) (h : alternates false ws = true) :
    alternates true (w :: ws) = true := by
  rw [alternates, bne_iff_ne.2 hw]
  exact h

theorem alternates_blanked {ws : List ChainWord} (h : alternates true ws = true) : alternates false (0 :: ws) = true := h

theorem ScanInv.of_shown {s : State} (hshown : rowShown s = true)
    (hout : s.chain.out = pairWord s.params.shiftOrder (columnData s) s.seq.currentRow)
    (horder : alternates true (latchedWords s.trace) = true)
    (hlines : s.chain.srclk = false ∧ s.chain.rclk = false) : ScanInv s :=
  ⟨⟨fun _ => hout, fun hdark => absurd hshown (Bool.eq_false_iff.1 hdark), by rw [hshown]; exact horder⟩, hlines⟩

theorem ScanInv.of_dark {s : State} (hdark : rowShown s = false) (hout : latchedWords s.trace ≠ [] → s.chain.out = 0)
    (horder : alternates false (latchedWords s.trace) = true)
    (hlines : s.chain.srclk = false ∧ s.chain.rclk = false) : ScanInv s :=
  ⟨⟨fun hshown => absurd hshown (Bool.eq_false_iff.1 hdark), fun _ => hout, by rw [hdark]; exact horder⟩, hlines⟩

/-- Between two dark positions the outputs stay blank if nothing is latched. -/
theorem ScanInv.stays_dark {s s' : State} (h : ScanInv s) (hdark : rowShown s = false) (hdark' : rowShown s' = false)
    (hchain : s'.chain = s.chain) (hwords : latchedWords s'.trace = latchedWords s.trace) : ScanInv s' := by
  refine .of_dark hdark' ?_ ?_ (by rw [hchain]; exact h.lines)
  · rw [hchain, hwords]
    exact h.outputs.blank hdark
  · rw [hwords, ← hdark]
    exact h.outputs.order

theorem rowShown_of_poll {s : State} (h : s.seq.phase = .poll) : rowShown s = false := by simp only [rowShown, h]

theorem rowShown_of_tick {s : State} (h : s.seq.phase = .tick) : rowShown s = false := by simp only [rowShown, h]

theorem rowShown_iff (s : State) :
    rowShown s = true ↔ s.seq.phase = .scan ∧ (s.seq.scanphase = .hold ∨ s.seq.scanphase = .blank) := by
  unfold rowShown
  split <;> simp_all

theorem rowShown_of_scan {s : State} {p : ScanPhase} (h : s.seq.phase = .scan) (hp : s.seq.scanphase = p) :
    rowShown s = true ↔ p = .hold ∨ p = .blank := by
  rw [rowShown_iff, h, hp, and_iff_right rfl]

/-! ## Reset -/

/-- Settles O57, by evaluation of the state after reset. -/
theorem resetHasTheValuesOfTheTable : Obligations.ResetHasTheValuesOfTheTable := by
  unfold Obligations.ResetHasTheValuesOfTheTable
  exact ⟨rfl, rfl, rfl, rfl, rfl, rfl, rfl, rfl, rfl, rfl, rfl⟩

/-- Settles O58: nothing is active, nothing latched, and the dwell time is the midpoint of the range. -/
theorem resetMeetsTheInvariant : Obligations.ResetMeetsTheInvariant := by
  unfold Obligations.ResetMeetsTheInvariant
  rw [blockInv_iff]
  refine ⟨⟨by decide, by decide, ⟨Nat.zero_le _, rfl, ?_, fun _ => ⟨rfl, rfl⟩⟩, ⟨?_, fun _ _ => rfl, ?_⟩, rfl, ?_⟩,
    .of_dark rfl ?_ rfl ⟨rfl, rfl⟩, ⟨rfl, rfl⟩, fun d _ => Nat.zero_le d⟩
  · intro hactive; cases hactive
  · intro hactive; cases hactive
  · intro _ hsince; cases hsince
  · intro hactive; cases hactive
  · intro hne; exact absurd rfl hne

/-! ## The step -/

/-- A step of the scan or the tick leaves the receiver at rest. -/
theorem ReceiverIdle.of_same {s s' : State} (h : ReceiverIdle s) (hrx : s'.rx = s.rx)
    (hrxstate : s'.seq.rxstate = s.seq.rxstate) : ReceiverIdle s' := by
  rw [ReceiverIdle, hrx, hrxstate]
  exact h

theorem poll_keeps_blockInv {s u : State} (hp : s.seq.phase = .poll) (h : BlockInv s) (hexec : exec .poll s = .next u) :
    BlockInv (setScanphase .assert (setPhase .scan u)) := by
  rw [blockInv_iff] at h ⊢
  obtain ⟨hstore, hscan, hidle, hroom⟩ := h
  have hstill := execPoll_still hexec
  refine ⟨((execPoll_storeInv hstore hexec).setPhase .scan).setScanphase .assert, ?_,
    (execPoll_idle hidle hexec : ReceiverIdle u), (exec_kept hexec).room hroom⟩
  exact hscan.stays_dark (rowShown_of_poll hp) rfl hstill.chain hstill.words

theorem assert_keeps_blockInv {s u : State} (hp : s.seq.phase = .scan) (hs : s.seq.scanphase = .assert) (h : BlockInv s)
    (hexec : exec (.rowActivate (rowOf s.store.rb s.seq.currentRow) s.seq.currentRow) s = .next u) :
    BlockInv (setScanphase .hold u) := by
  rw [blockInv_iff] at h ⊢
  obtain ⟨hstore, hscan, hidle, hroom⟩ := h
  obtain ⟨τ, -, -, htime⟩ := outputPair_next hexec
  have hup : u.seq.phase = .scan := (exec_position hexec (.inl ⟨_, _, rfl⟩)).1.trans hp
  have hdark : rowShown s = false := by simp [← Bool.not_eq_true, rowShown_of_scan hp hs]
  have horder := hscan.outputs.order
  rw [hdark] at horder
  have hshown' : rowShown (setScanphase .hold u) = true :=
    (rowShown_of_scan (s := setScanphase .hold u) hup rfl).2 (.inl rfl)
  refine ⟨?_, .of_shown hshown' ?_ ?_ ?_, hidle.of_same ?_ ?_, (exec_kept hexec).room hroom⟩
  · exact (hstore.after_time htime).setScanphase .hold
  · rw [htime.rest]; rfl
  · rw [setScanphase_trace, htime.rest]
    exact alternates_asserted (pairWord_ne_zero _ _ _) horder
  · rw [htime.rest]; exact ⟨rfl, rfl⟩
  · rw [htime.rest]; rfl
  · rw [htime.rest]; rfl

theorem hold_keeps_blockInv {s u : State} (hp : s.seq.phase = .scan) (hs : s.seq.scanphase = .hold) (h : BlockInv s)
    (hexec : exec .hold s = .next u) : BlockInv (setScanphase .blank u) := by
  rw [blockInv_iff] at h ⊢
  obtain ⟨hstore, hscan, hidle, hroom⟩ := h
  have htime : OnlyTime s u := (pass_next hexec).1
  have hup : u.seq.phase = .scan := (exec_position hexec (by simp)).1.trans hp
  have hshown : rowShown s = true := (rowShown_of_scan hp hs).2 (.inl rfl)
  have horder := hscan.outputs.order
  rw [hshown] at horder
  have hshown' : rowShown (setScanphase .blank u) = true :=
    (rowShown_of_scan (s := setScanphase .blank u) hup rfl).2 (.inr rfl)
  refine ⟨?_, .of_shown hshown' ?_ ?_ ?_, hidle.of_same ?_ ?_, (exec_kept hexec).room hroom⟩
  · exact (hstore.after_time htime).setScanphase .blank
  · rw [htime.rest]; exact hscan.outputs.shown hshown
  · rw [htime.rest]; exact horder
  · rw [htime.rest]; exact hscan.lines
  · rw [htime.rest]; rfl
  · rw [htime.rest]; rfl

theorem blank_keeps_blockInv {s u : State} (hp : s.seq.phase = .scan) (hs : s.seq.scanphase = .blank) (h : BlockInv s)
    (hexec : exec .blank s = .next u) : BlockInv (setScanphase .advance u) := by
  rw [blockInv_iff] at h ⊢
  obtain ⟨hstore, hscan, hidle, hroom⟩ := h
  obtain ⟨τ, -, -, htime⟩ := blankOutputs_next hexec
  have hup : u.seq.phase = .scan := (exec_position hexec (by simp)).1.trans hp
  have hshown : rowShown s = true := (rowShown_of_scan hp hs).2 (.inr rfl)
  have hdark : rowShown (setScanphase .advance u) = false := by
    simp [← Bool.not_eq_true, rowShown_of_scan (s := setScanphase .advance u) hup rfl]
  have horder := hscan.outputs.order
  rw [hshown] at horder
  refine ⟨?_, .of_dark hdark (fun _ => ?_) ?_ ?_, hidle.of_same ?_ ?_, (exec_kept hexec).room hroom⟩
  · exact (hstore.after_time htime).setScanphase .advance
  · rw [htime.rest]; rfl
  · rw [setScanphase_trace, htime.rest]
    exact alternates_blanked horder
  · rw [htime.rest]; exact ⟨rfl, rfl⟩
  · rw [htime.rest]; rfl
  · rw [htime.rest]; rfl

theorem advance_keeps_blockInv {s u : State} (hp : s.seq.phase = .scan) (hs : s.seq.scanphase = .advance) (h : BlockInv s)
    (hexec : exec .advance s = .next u) : BlockInv (setPhase .tick u) := by
  rw [blockInv_iff] at h ⊢
  obtain ⟨hstore, hscan, hidle, hroom⟩ := h
  have htime := elapse_next hexec
  have hdark : rowShown s = false := by simp [← Bool.not_eq_true, rowShown_of_scan hp hs]
  refine ⟨?_, hscan.stays_dark hdark (rowShown_of_tick rfl) ?_ ?_, hidle.of_same ?_ ?_, (exec_kept hexec).room hroom⟩
  · exact (hstore.after_time htime).setPhase .tick
  · rw [htime.rest]; rfl
  · rw [htime.rest]; rfl
  · rw [htime.rest]; rfl
  · rw [htime.rest]; rfl

theorem animTick_storeInv {s : State} (h : StoreInv s) : StoreInv (if tickDue s then advanceFrame s else s) := by
  split
  · next hdue =>
    rw [tickDue, Bool.and_eq_true] at hdue
    exact advanceFrame_storeInv h hdue.1
  · exact h

theorem tick_keeps_blockInv {s u : State} (hp : s.seq.phase = .tick) (h : BlockInv s) (hexec : exec .animTick s = .next u) :
    BlockInv (setPhase .poll u) := by
  rw [blockInv_iff] at h ⊢
  obtain ⟨hstore, hscan, hidle, hroom⟩ := h
  have htime := execAnimTick_next hexec
  have hstart := animTick_storeInv hstore
  rw [animTick_apart] at htime
  rw [animTick_apart] at hstart
  refine ⟨?_, hscan.stays_dark (rowShown_of_tick hp) (rowShown_of_poll rfl) ?_ ?_, hidle.of_same ?_ ?_,
    (exec_kept hexec).room hroom⟩
  · exact (hstart.after_time htime).setPhase .poll
  · rw [htime.rest]; rfl
  · rw [htime.rest]; rfl
  · rw [htime.rest]; rfl
  · rw [htime.rest]; rfl

/-- Settles O59: at each position of the loop the step is one operation and one move, and these keep the invariant. -/
theorem everyStepKeepsTheInvariant : Obligations.EveryStepKeepsTheInvariant := by
  unfold Obligations.EveryStepKeepsTheInvariant
  intro s s' hinv hstep
  obtain ⟨hpoll, hassert, hhold, hblank, hadvance, htick⟩ := stepRunsTheOperationInTurn
  have moved : ∀ {o : Result State} {move : State → State}, step s = andThen o (fun u => .next (move u)) →
      (∀ u, o = .next u → BlockInv (move u)) → BlockInv s' := by
    intro o move hs hkeeps
    rw [hs] at hstep
    obtain ⟨u, hu, hmove⟩ := andThen_eq_next.1 hstep
    cases hmove
    exact hkeeps u hu
  cases hp : s.seq.phase with
  | poll => exact moved (hpoll s hp) fun u hu => poll_keeps_blockInv hp hinv hu
  | scan =>
    cases hs : s.seq.scanphase with
    | assert => exact moved (hassert s hp hs) fun u hu => assert_keeps_blockInv hp hs hinv hu
    | hold => exact moved (hhold s hp hs) fun u hu => hold_keeps_blockInv hp hs hinv hu
    | blank => exact moved (hblank s hp hs) fun u hu => blank_keeps_blockInv hp hs hinv hu
    | advance => exact moved (hadvance s hp hs) fun u hu => advance_keeps_blockInv hp hs hinv hu
  | tick => exact moved (htick s hp) fun u hu => tick_keeps_blockInv hp hinv hu

/-! ## At most one row is lit -/

theorem rowSelectBits_of_pair {s : State} {c : Byte} {row : RowIndex}
    (h : s.chain.out = pairWord s.params.shiftOrder c row) : rowSelectBits s = 1#8 <<< row.toNat := by
  unfold rowSelectBits
  rw [h]
  cases s.params.shiftOrder with
  | colThenRow => exact append_row _ _
  | rowThenCol => exact append_column _ _

theorem rowSelectBits_of_blank {s : State} (h : s.chain.out = 0) : rowSelectBits s = 0 := by
  unfold rowSelectBits
  rw [h]
  split <;> rfl

/-- Settles O60: the invariant after the step says what the outputs hold, and whether a row is shown. -/
theorem atMostOneRowIsLit : Obligations.AtMostOneRowIsLit := by
  unfold Obligations.AtMostOneRowIsLit
  intro s s' hinv hstep hlatched
  obtain ⟨hshown, hblank, -⟩ := (everyStepKeepsTheInvariant s s' hinv hstep).outputs
  have lit : rowShown s' = true → rowSelectBits s' = 1#8 <<< s'.seq.currentRow.toNat := fun h =>
    rowSelectBits_of_pair (hshown h)
  have dark : rowShown s' = false → s'.chain.out = 0 := fun h => hblank h hlatched
  refine ⟨?_, fun hp hs => lit ((rowShown_iff s').2 ⟨hp, hs⟩), fun hs => dark ?_⟩
  · cases h : rowShown s' with
    | true => exact .inr ⟨_, lit h⟩
    | false => exact .inl (rowSelectBits_of_blank (dark h))
  · rw [← Bool.not_eq_true, rowShown_iff]
    rintro ⟨hp, hsp⟩
    simp [hp] at hs
    obtain hs | hs := hs <;> simp [hs] at hsp

end Sys2Proof.Machine
end

section
/-! PROOFS of the family "other", who writes what (10 R25, 41 R166). One lemma, `exec_writes`, says of every instruction which
kind of write it may make and what that write leaves alone; the rows of the access matrix are read off it. -/

namespace Sys2Proof.Machine

/-! ## The writers -/

/-- The instructions that may commit a static Frame. -/
def StaticWriter (i : Instr) : Prop :=
  (∃ f, i = .singleFrame (some f) (some 0xFE)) ∨ (∃ f, i = .commitStatic f) ∨ i = .handleCommand 0xFF

/-- The instructions that may install an animation. -/
def AnimationWriter (i : Instr) : Prop :=
  (∃ n fs, i = .animation (some n) fs (some 0xFB) ∧ 1 ≤ n.toNat ∧ n.toNat ≤ 10) ∨
    (∃ n fs, i = .commitAnimation n fs) ∨ i = .handleCommand 0xFA

/-- The instructions that may clear the animation. -/
def AnimationClearer (i : Instr) : Prop :=
  i = .clearAnimation ∨ (∃ e, i = .abort e .animation) ∨ (∃ n fs e, i = .animation n fs e) ∨ i = .handleCommand 0xFA

/-- The instructions that may set the dwell time. -/
def BrightnessWriter (i : Instr) : Prop :=
  (∃ b, i = .brightness (some b)) ∨ (∃ b, i = .setBrightness b) ∨ i = .handleCommand 0xFC

/-- What `i` may write of the frame store, the animation and the dwell time, and what it then leaves alone. -/
inductive Writes (i : Instr) (s s' : State) : Prop
  | nothing (store : s'.store = s.store) (anim : s'.anim = s.anim) (dwell : s'.dwellUs = s.dwellUs)
  | static (hi : StaticWriter i) (dwell : s'.dwellUs = s.dwellUs)
  | animation (hi : AnimationWriter i) (si : s'.store.si = s.store.si) (dwell : s'.dwellUs = s.dwellUs)
  | clear (hi : AnimationClearer i) (si : s'.store.si = s.store.si) (dwell : s'.dwellUs = s.dwellUs)
      (rb : s.params.renderOnAnimAbort = .keep → s'.store.rb = s.store.rb)
  | brightness (hi : BrightnessWriter i) (store : s'.store = s.store) (anim : s'.anim = s.anim)
  | render (hi : ∃ f, i = .setRender f) (si : s'.store.si = s.store.si) (ab : s'.store.ab = s.store.ab)
      (anim : s'.anim = s.anim) (dwell : s'.dwellUs = s.dwellUs)
  | tick (hi : i = .animTick ∧ s.anim.active = true) (si : s'.store.si = s.store.si) (ab : s'.store.ab = s.store.ab)
      (dwell : s'.dwellUs = s.dwellUs)
  | loop (hi : i = .poll ∨ i = .mainLoop)

section

variable {i : Instr} {c : Command} {s u s' : State}

/-- Time after a write elsewhere. -/
theorem Writes.of_time (h : OnlyTime u s') (store : u.store = s.store := by rfl) (anim : u.anim = s.anim := by rfl)
    (dwell : u.dwellUs = s.dwellUs := by rfl) : Writes i s s' :=
  .nothing (by rw [h.rest]; exact store) (by rw [h.rest]; exact anim) (by rw [h.rest]; exact dwell)

theorem Writes.of_reception (h : OnlyReception s u) (k : Writes i u s') : Writes i s s' := by
  have hstore : u.store = s.store := by rw [h.rest]
  have hanim : u.anim = s.anim := by rw [h.rest]
  have hdwell : u.dwellUs = s.dwellUs := by rw [h.rest]
  have hparams : u.params = s.params := by rw [h.rest]
  cases k with
  | nothing store anim dwell => exact .nothing (store.trans hstore) (anim.trans hanim) (dwell.trans hdwell)
  | static hi dwell => exact .static hi (dwell.trans hdwell)
  | animation hi si dwell => exact .animation hi (hstore ▸ si) (dwell.trans hdwell)
  | clear hi si dwell rb => exact .clear hi (hstore ▸ si) (dwell.trans hdwell) (by rwa [hparams, hstore] at rb)
  | brightness hi store anim => exact .brightness hi (store.trans hstore) (anim.trans hanim)
  | render hi si ab anim dwell => exact .render hi (hstore ▸ si) (hstore ▸ ab) (anim.trans hanim) (dwell.trans hdwell)
  | tick hi si ab dwell => exact .tick (hanim ▸ hi) (hstore ▸ si) (hstore ▸ ab) (dwell.trans hdwell)
  | loop hi => exact .loop hi

/-! ## The commands -/

/-- What the abort sequence of a command writes. -/
theorem Writes.of_abort {e : ErrorKind} {cmd : CommandKind} (hi : cmd = .animation → AnimationClearer i)
    (h : OnlyDiagnostic (returnToLoop (abortWrites e cmd s)) s') : Writes i s s' := by
  cases cmd with
  | animation =>
    rw [returnToLoop_abortWrites_animation] at h
    exact .clear (hi rfl) (by rw [h.time.rest]) (by rw [h.time.rest]) fun hkeep => by rw [h.time.rest]; exact if_pos hkeep
  | singleFrame => exact .of_time h.time
  | brightness => exact .of_time h.time

/-- What a command writes, for the instruction `i` that runs it. -/
theorem CommandEnd.writes (h : CommandEnd c s s')
    (hstatic : ∀ f, c = .singleFrame (some f) (some 0xFE) → StaticWriter i)
    (hinstall : ∀ n fs, c = .animation (some n) fs (some 0xFB) → countAccepted n = true → AnimationWriter i)
    (hclear : ∀ n fs e, c = .animation n fs e → AnimationClearer i)
    (hbright : ∀ b, c = .brightness (some b) → BrightnessWriter i) : Writes i s s' := by
  cases h with
  | static f hc hd => exact .static (hstatic f hc) (by rw [hd.time.rest]; rfl)
  | animation n fs hc hn _ hd =>
    exact .animation (hinstall n fs hc hn) (by rw [hd.time.rest]; rfl) (by rw [hd.time.rest]; rfl)
  | brightness b hc hd => exact .brightness (hbright b hc) (by rw [hd.time.rest]; rfl) (by rw [hd.time.rest]; rfl)
  | abort e cmd hc hd =>
    refine .of_abort (fun hcmd => ?_) hd
    obtain ⟨n, fs, m, hc⟩ := hc hcmd
    exact hclear n fs m hc
  | ignored m _ hd => exact .of_time hd.time

theorem runCommand_writes (h : runCommand c s = .next s') : Writes c.toInstr s s' := by
  refine (runCommand_end h).writes ?_ ?_ ?_ ?_
  · rintro f rfl
    exact .inl ⟨f, rfl⟩
  · rintro n fs rfl hn
    exact .inl ⟨n, fs, rfl, countAccepted_bound hn⟩
  · rintro n fs e rfl
    exact .inr (.inr (.inl ⟨n, fs, e, rfl⟩))
  · rintro b rfl
    exact .inl ⟨b, rfl⟩

/-- HANDLE_COMMAND writes what the command of its marker writes. -/
theorem execHandleCommand_writes {m : Byte} (h : execHandleCommand m s = .next s') :
    Writes (.handleCommand m) s s' := by
  obtain ⟨v, -, hv, hrun⟩ := execHandleCommand_next h
  refine .of_reception hv ((runCommand_end hrun).writes ?_ ?_ ?_ ?_)
  all_goals
    obtain ⟨rfl, _, _, hk⟩ | ⟨rfl, _, _, _, hk⟩ | ⟨rfl, _, hk⟩ | ⟨-, hk⟩ := decodeCommand_kind m (receivedBytes v)
  all_goals
    rw [hk]
    simp [StaticWriter, AnimationWriter, AnimationClearer, BrightnessWriter]

/-! ## Every instruction -/

theorem execAnimTick_writes (h : execAnimTick s = .next s') : Writes .animTick s s' := by
  have htime := execAnimTick_next h
  cases hdue : tickDue s with
  | false =>
    rw [hdue] at htime
    exact .of_time htime
  | true =>
    rw [hdue] at htime
    rw [tickDue, Bool.and_eq_true] at hdue
    exact .tick ⟨rfl, hdue.1⟩ (by rw [htime.rest]; rfl) (by rw [htime.rest]; rfl) (by rw [htime.rest]; rfl)

theorem exec_writes (h : exec i s = .next s') : Writes i s s' := by
  cases i with
  | singleFrame rows e => exact runCommand_writes (c := .singleFrame rows e) h
  | animation n frames e => exact runCommand_writes (c := .animation n frames e) h
  | brightness b => exact runCommand_writes (c := .brightness b) h
  | ignored m => exact runCommand_writes (c := .ignored m) h
  | rowActivate c row => obtain ⟨τ, -, -, htime⟩ := outputPair_next h; exact .of_time htime
  | blank => obtain ⟨τ, -, -, htime⟩ := blankOutputs_next h; exact .of_time htime
  | mainLoop => exact .loop (.inr rfl)
  | poll => exact .loop (.inl rfl)
  | handleCommand m => exact execHandleCommand_writes h
  | readBytes k => exact .of_reception (readBytes_next h).1 (.nothing rfl rfl rfl)
  | abort e cmd => exact .of_abort (fun hcmd => .inr (.inl ⟨e, by rw [hcmd]⟩)) (raiseError_next h)
  | commitStatic t => exact .static (.inr (.inl ⟨t, rfl⟩)) (by rw [(elapse_next h).rest]; rfl)
  | commitAnimation n g =>
    have htime := elapse_next h
    exact .animation (.inr (.inl ⟨n, g, rfl⟩)) (by rw [htime.rest]; rfl) (by rw [htime.rest]; rfl)
  | clearAnimation =>
    have htime := elapse_next h
    rw [clearAnimation_eq] at htime
    exact .clear (.inl rfl) (by rw [htime.rest]) (by rw [htime.rest]) fun hkeep => by rw [htime.rest]; exact if_pos hkeep
  | setRender f =>
    have htime := elapse_next h
    exact .render ⟨f, rfl⟩ (by rw [htime.rest]; rfl) (by rw [htime.rest]; rfl) (by rw [htime.rest]; rfl)
      (by rw [htime.rest]; rfl)
  | setBrightness b =>
    have htime := elapse_next h
    exact .brightness (.inr (.inl ⟨b, rfl⟩)) (by rw [htime.rest]; rfl) (by rw [htime.rest]; rfl)
  | scanStep => obtain ⟨t1, t2, -, -, -, htime⟩ := execScanStep_next h; exact .of_time htime
  | assert => obtain ⟨τ, -, -, htime⟩ := outputPair_next h; exact .of_time htime
  | shift d => exact .of_time (elapse_next h)
  | latch => exact .of_time (elapse_next h)
  | hold => exact .of_time (pass_next h).1
  | blankStep => obtain ⟨τ, -, -, htime⟩ := blankOutputs_next h; exact .of_time htime
  | advance => exact .of_time (elapse_next h)
  | animTick => exact execAnimTick_writes h
  | critical edge => cases edge <;> exact .of_time (elapse_next h)

/-! ## The row -/

theorem OnlyTime.row (h : OnlyTime u s') (hrow : u.seq.currentRow = s.seq.currentRow := by rfl) :
    s'.seq.currentRow = s.seq.currentRow := by
  rw [h.rest]
  exact hrow

theorem exec_row (h : exec i s = .next s') :
    s'.seq.currentRow = s.seq.currentRow ∨ i = .advance ∨ i = .scanStep ∨ i = .mainLoop := by
  cases i with
  | singleFrame rows e => exact .inl (runCommand_still (c := .singleFrame rows e) h).row
  | animation n frames e => exact .inl (runCommand_still (c := .animation n frames e) h).row
  | brightness b => exact .inl (runCommand_still (c := .brightness b) h).row
  | ignored m => exact .inl (runCommand_still (c := .ignored m) h).row
  | rowActivate c row => obtain ⟨τ, -, -, htime⟩ := outputPair_next h; exact .inl htime.row
  | blank => obtain ⟨τ, -, -, htime⟩ := blankOutputs_next h; exact .inl htime.row
  | mainLoop => exact .inr (.inr (.inr rfl))
  | poll => exact .inl (execPoll_still h).row
  | handleCommand m => exact .inl (execHandleCommand_still h).row
  | readBytes k => exact .inl (ScannerStill.of_reception (readBytes_next h).1).row
  | abort e cmd => exact .inl ((abortWrites_still e cmd s).trans (.of_diagnostic (raiseError_next h))).row
  | commitStatic t => exact .inl (elapse_next h).row
  | commitAnimation n g => exact .inl (elapse_next h).row
  | clearAnimation => exact .inl ((elapse_next h).row (by rw [clearAnimation_eq]))
  | setRender f => exact .inl (elapse_next h).row
  | setBrightness b => exact .inl (elapse_next h).row
  | scanStep => exact .inr (.inr (.inl rfl))
  | assert => obtain ⟨τ, -, -, htime⟩ := outputPair_next h; exact .inl htime.row
  | shift d => exact .inl (elapse_next h).row
  | latch => exact .inl (elapse_next h).row
  | hold => exact .inl (pass_next h).1.row
  | blankStep => obtain ⟨τ, -, -, htime⟩ := blankOutputs_next h; exact .inl htime.row
  | advance => exact .inr (.inl rfl)
  | animTick => exact .inl ((execAnimTick_next h).row (by rw [animTick_apart]))
  | critical edge => cases edge <;> exact .inl (elapse_next h).row

/-! ## The scanner's own frame -/

/-- The frame store, the animation, the dwell time, `IE`, the receiver and the transmit stream are as they were. -/
def OffScanner (s s' : State) : Prop :=
  s'.store = s.store ∧ s'.anim = s.anim ∧ s'.dwellUs = s.dwellUs ∧ s'.ie = s.ie ∧ s'.rx = s.rx ∧ s'.tx = s.tx

theorem OffScanner.of_time (h : OnlyTime u s') (hu : OffScanner s u := by exact ⟨rfl, rfl, rfl, rfl, rfl, rfl⟩) :
    OffScanner s s' := by
  rw [OffScanner, h.rest]
  exact hu

end

/-- Settles O56: each row of the matrix is what `exec_writes` leaves of the kinds of writes. -/
theorem registersAreWrittenOnlyByTheirCommands : Obligations.RegistersAreWrittenOnlyByTheirCommands := by
  unfold Obligations.RegistersAreWrittenOnlyByTheirCommands
  refine ⟨?si, ?dwell, ?rb, ?ab, ?anim, ?row, ?frame⟩
  case si =>
    intro i s s' h hne
    cases exec_writes h with
    | nothing store _ _ => exact absurd (congrArg FrameStore.si store) hne
    | static hi _ => obtain ⟨f, rfl⟩ | ⟨f, rfl⟩ | rfl := hi <;> simp
    | animation _ si _ => exact absurd si hne
    | clear _ si _ _ => exact absurd si hne
    | brightness _ store _ => exact absurd (congrArg FrameStore.si store) hne
    | render _ si _ _ _ => exact absurd si hne
    | tick _ si _ _ => exact absurd si hne
    | loop hi => obtain rfl | rfl := hi <;> simp
  case dwell =>
    intro i s s' h hne
    cases exec_writes h with
    | nothing _ _ dwell => exact absurd dwell hne
    | static _ dwell => exact absurd dwell hne
    | animation _ _ dwell => exact absurd dwell hne
    | clear _ _ dwell _ => exact absurd dwell hne
    | brightness hi _ _ => obtain ⟨b, rfl⟩ | ⟨b, rfl⟩ | rfl := hi <;> simp
    | render _ _ _ _ dwell => exact absurd dwell hne
    | tick _ _ _ dwell => exact absurd dwell hne
    | loop hi => obtain rfl | rfl := hi <;> simp
  case rb =>
    intro i s s' h hne
    cases exec_writes h with
    | nothing store _ _ => exact absurd (congrArg FrameStore.rb store) hne
    | static hi _ => obtain ⟨f, rfl⟩ | ⟨f, rfl⟩ | rfl := hi <;> simp
    | animation hi _ _ =>
      obtain ⟨n, fs, rfl, hn⟩ | hi := hi
      · simp [hn]
      · obtain ⟨n, fs, rfl⟩ | rfl := hi <;> simp
    | clear hi _ _ rb =>
      have hpolicy : s.params.renderOnAnimAbort = .static := by
        cases hk : s.params.renderOnAnimAbort with
        | keep => exact absurd (rb hk) hne
        | static => rfl
      obtain rfl | ⟨e, rfl⟩ | ⟨n, fs, e, rfl⟩ | rfl := hi <;> simp [hpolicy]
    | brightness _ store _ => exact absurd (congrArg FrameStore.rb store) hne
    | render hi _ _ _ _ => obtain ⟨f, rfl⟩ := hi; simp
    | tick hi _ _ _ => obtain ⟨rfl, hactive⟩ := hi; simp [hactive]
    | loop hi => obtain rfl | rfl := hi <;> simp
  case ab =>
    intro i s s' h hne
    cases exec_writes h with
    | nothing store _ _ => exact absurd (congrArg FrameStore.ab store) hne
    | static hi _ => obtain ⟨f, rfl⟩ | ⟨f, rfl⟩ | rfl := hi <;> simp
    | animation hi _ _ => obtain ⟨n, fs, rfl, -⟩ | ⟨n, fs, rfl⟩ | rfl := hi <;> simp
    | clear hi _ _ _ => obtain rfl | ⟨e, rfl⟩ | ⟨n, fs, e, rfl⟩ | rfl := hi <;> simp
    | brightness _ store _ => exact absurd (congrArg FrameStore.ab store) hne
    | render _ _ ab _ _ => exact absurd ab hne
    | tick _ _ ab _ => exact absurd ab hne
    | loop hi => obtain rfl | rfl := hi <;> simp
  case anim =>
    intro i s s' h hne
    cases exec_writes h with
    | nothing _ anim _ => exact absurd anim hne
    | static hi _ => obtain ⟨f, rfl⟩ | ⟨f, rfl⟩ | rfl := hi <;> simp
    | animation hi _ _ => obtain ⟨n, fs, rfl, -⟩ | ⟨n, fs, rfl⟩ | rfl := hi <;> simp
    | clear hi _ _ _ => obtain rfl | ⟨e, rfl⟩ | ⟨n, fs, e, rfl⟩ | rfl := hi <;> simp
    | brightness _ _ anim => exact absurd anim hne
    | render _ _ _ anim _ => exact absurd anim hne
    | tick hi _ _ _ => obtain ⟨rfl, hactive⟩ := hi; simp [hactive]
    | loop hi => obtain rfl | rfl := hi <;> simp
  case row =>
    intro i s s' h hne
    exact (exec_row h).resolve_left hne
  case frame =>
    intro i s s' h hi
    obtain rfl | rfl | rfl | rfl | rfl | rfl | rfl | ⟨d, rfl⟩ | ⟨c, row, rfl⟩ := hi
    · obtain ⟨t1, t2, -, -, -, htime⟩ := execScanStep_next h; exact OffScanner.of_time htime
    · obtain ⟨τ, -, -, htime⟩ := outputPair_next h; exact OffScanner.of_time htime
    · exact OffScanner.of_time (pass_next h).1
    · obtain ⟨τ, -, -, htime⟩ := blankOutputs_next h; exact OffScanner.of_time htime
    · exact OffScanner.of_time (elapse_next h)
    · exact OffScanner.of_time (elapse_next h)
    · obtain ⟨τ, -, -, htime⟩ := blankOutputs_next h; exact OffScanner.of_time htime
    · exact OffScanner.of_time (elapse_next h)
    · obtain ⟨τ, -, -, htime⟩ := outputPair_next h; exact OffScanner.of_time htime

end Sys2Proof.Machine
end

section
/-! PROOFS of the family "other", the overrun (93 U7, 10 R42; log 7, log 8). When a delivery stops is said once, as a count
of the bytes that have arrived; every instruction that takes no byte delivers first at the end of its first operation. -/

namespace Sys2Proof.Machine

/-! ## When a delivery stops -/

/-- The bytes of the list that have arrived by `now`, up to the first that has not. -/
def arrivedBy (now : Nat) (bs : List RxByte) : List RxByte := bs.takeWhile fun b => decide (b.arrival ≤ now)

theorem arrivedBy_cons_of_le {now : Nat} {b : RxByte} (h : b.arrival ≤ now) (bs : List RxByte) :
    arrivedBy now (b :: bs) = b :: arrivedBy now bs := List.takeWhile_cons_of_pos (decide_eq_true h)

theorem arrivedBy_cons_of_lt {now : Nat} {b : RxByte} (h : now < b.arrival) (bs : List RxByte) :
    arrivedBy now (b :: bs) = [] := List.takeWhile_cons_of_neg (by simpa using h)

/-- A delivery finds the queue full exactly if a byte has arrived and the queue with all that have is too long. -/
theorem arrive_eq_none_iff {depth : Option Nat} {now : Nat} : ∀ {bs q : List RxByte}, arrive depth now q bs = none ↔
    ∃ d, depth = some d ∧ arrivedBy now bs ≠ [] ∧ d < q.length + (arrivedBy now bs).length
  | [], q => by simp [arrive, arrivedBy]
  | b :: bs, q => by
    by_cases hb : b.arrival ≤ now
    · rw [arrive, if_pos hb, arrivedBy_cons_of_le hb]
      cases depth with
      | none => simpa [queueFull] using arrive_eq_none_iff (depth := none) (bs := bs) (q := q ++ [b])
      | some d =>
        have ih := arrive_eq_none_iff (depth := some d) (now := now) (bs := bs) (q := q ++ [b])
        simp only [Option.some.injEq, exists_eq_left', List.length_append, List.length_cons, List.length_nil,
          ← List.length_pos_iff] at ih
        by_cases hfull : d ≤ q.length
        · simp [queueFull, hfull]
          omega
        · simp only [queueFull, hfull, decide_false, Bool.false_eq_true, if_false, ih, Option.some.injEq, exists_eq_left',
            List.length_cons]
          constructor
          · intro ⟨_, h⟩
            exact ⟨List.cons_ne_nil _ _, by omega⟩
          · intro ⟨_, h⟩
            exact ⟨by omega, by omega⟩
    · rw [arrive, if_neg hb, arrivedBy_cons_of_lt (not_le.1 hb)]
      simp

theorem deliver_eq_fault_iff (s : State) : deliver s = .fault .rxOverrun ↔
    ∃ d, s.params.rxFifoDepth = some d ∧ arrivedBy s.clock.t s.link.hostStream ≠ [] ∧
      d < s.link.rxq.length + (arrivedBy s.clock.t s.link.hostStream).length := by
  rw [← arrive_eq_none_iff, deliver]
  split
  · next hl => simp [hl]
  · next hl => simp [hl]

/-! ## A full queue and a byte on its way -/

/-- The queue is full, and the next byte arrives within the drawn time of the next operation. -/
def Overruns (s : State) : Prop :=
  ∃ d b bs, s.params.rxFifoDepth = some d ∧ d ≤ s.link.rxq.length ∧ s.link.hostStream = b :: bs ∧
    b.arrival ≤ (clockAfter 0 s.clock).t

/-- The premise reads the parameters, the link and the clock alone. -/
theorem Overruns.of_apart {s u : State} (h : Overruns s) (hparams : u.params = s.params := by rfl)
    (hlink : u.link = s.link := by rfl) (hclock : u.clock = s.clock := by rfl) : Overruns u := by
  rw [Overruns, hparams, hlink, hclock]
  exact h

theorem clockAfter_mono (us : Nat) (c : Clock) : (clockAfter 0 c).t ≤ (clockAfter us c).t := by
  unfold clockAfter
  split <;> simp only <;> omega

theorem pass_overruns {s : State} (h : Overruns s) (us : Nat) : pass us s = .fault .rxOverrun := by
  obtain ⟨d, b, bs, hdepth, hfull, hstream, hb⟩ := h
  have harrived := arrivedBy_cons_of_le (hb.trans (clockAfter_mono us s.clock)) bs
  rw [pass, deliver_eq_fault_iff]
  refine ⟨d, hdepth, ?_, ?_⟩
  · simp only [hstream, harrived]
    exact List.cons_ne_nil _ _
  · simp only [hstream, harrived, List.length_cons]
    omega

theorem elapse_overruns {s : State} (h : Overruns s) : elapse s = .fault .rxOverrun := pass_overruns h 0

theorem andThen_of_fault {α β : Type} {o : Result α} {r : Fault} (h : o = .fault r) (f : α → Result β) :
    andThen o f = .fault r := by
  rw [h]
  rfl

theorem raiseError_overruns {s : State} (h : Overruns s) (e : ErrorKind) (cmd : CommandKind) :
    raiseError e cmd s = .fault .rxOverrun := by
  refine andThen_of_fault (elapse_overruns ?_) _
  cases cmd with
  | animation =>
    rw [abortWrites_animation, clearAnimation_eq]
    exact h.of_apart
  | _ => exact h.of_apart

theorem finishCommand_overruns {s : State} {commit : State → State} (h : Overruns (commit (setRxstate .commit s))) :
    finishCommand commit s = .fault .rxOverrun := andThen_of_fault (elapse_overruns h) _

theorem outputBits_overruns {s : State} (h : Overruns s) (d : Bool) (bits : List Bool) :
    outputBits (d :: bits) s = .fault .rxOverrun := by
  have hshift : shiftBit d s = .fault .rxOverrun := elapse_overruns h.of_apart
  exact andThen_of_fault (andThen_of_fault hshift _) _

theorem pairBits_overruns {s : State} (h : Overruns s) (order : ShiftOrder) (c : Byte) (row : RowIndex) :
    outputBits (pairBits order c row) s = .fault .rxOverrun := by
  cases order <;> exact outputBits_overruns h _ _

theorem runCommand_overruns {s : State} (h : Overruns s) (c : Command) : runCommand c s = .fault .rxOverrun := by
  cases c with
  | singleFrame rows e =>
    simp only [runCommand, execSingleFrame]
    split
    · split
      · exact finishCommand_overruns h.of_apart
      · exact raiseError_overruns h _ _
    · exact raiseError_overruns h _ _
    · exact raiseError_overruns h _ _
  | animation n fs e =>
    simp only [runCommand, execAnimation, animationFrames]
    split
    · exact raiseError_overruns h _ _
    · split
      · split
        · exact raiseError_overruns h _ _
        · split
          · exact raiseError_overruns h _ _
          · split
            · exact finishCommand_overruns h.of_apart
            · exact raiseError_overruns h _ _
      · exact raiseError_overruns h _ _
  | brightness b =>
    cases b with
    | none => exact raiseError_overruns h _ _
    | some b => exact finishCommand_overruns h.of_apart
  | ignored m => exact elapse_overruns h.of_apart

/-- Every instruction that takes no byte stops within its first operation. -/
theorem exec_overruns {i : Instr} {s : State} (h : Overruns s) (hpoll : i ≠ .poll) (hloop : i ≠ .mainLoop)
    (hhandle : ∀ m, i ≠ .handleCommand m) (hread : ∀ k, i ≠ .readBytes k) : exec i s = .fault .rxOverrun := by
  cases i with
  | singleFrame rows e => exact runCommand_overruns h (.singleFrame rows e)
  | animation n frames e => exact runCommand_overruns h (.animation n frames e)
  | brightness b => exact runCommand_overruns h (.brightness b)
  | ignored m => exact runCommand_overruns h (.ignored m)
  | rowActivate c row => exact pairBits_overruns h _ c row
  | blank => exact outputBits_overruns h _ _
  | mainLoop => exact absurd rfl hloop
  | poll => exact absurd rfl hpoll
  | handleCommand m => exact absurd rfl (hhandle m)
  | readBytes k => exact absurd rfl (hread k)
  | abort e cmd => exact raiseError_overruns h e cmd
  | commitStatic t => exact elapse_overruns h.of_apart
  | commitAnimation n g => exact elapse_overruns h.of_apart
  | clearAnimation =>
    refine elapse_overruns ?_
    rw [clearAnimation_eq]
    exact h.of_apart
  | setRender f => exact elapse_overruns h.of_apart
  | setBrightness b => exact elapse_overruns h.of_apart
  | scanStep =>
    have hassert : execAssert (setScanphase .assert s) = .fault .rxOverrun := pairBits_overruns h.of_apart _ _ _
    exact andThen_of_fault hassert _
  | assert => exact pairBits_overruns h _ _ _
  | shift d => exact elapse_overruns h.of_apart
  | latch => exact elapse_overruns h.of_apart
  | hold => exact pass_overruns h _
  | blankStep => exact outputBits_overruns h _ _
  | advance => exact elapse_overruns h.of_apart
  | animTick =>
    rw [exec_animTick, animTick_apart]
    exact elapse_overruns h.of_apart
  | critical edge => cases edge <;> exact elapse_overruns h.of_apart

/-- So does the step wherever the sequencer takes no byte. -/
theorem step_overruns {s : State} (h : Overruns s) (hp : s.seq.phase ≠ .poll) : step s = .fault .rxOverrun := by
  obtain ⟨-, hassert, hhold, hblank, hadvance, htick⟩ := stepRunsTheOperationInTurn
  have stops : ∀ {i : Instr} {move : State → State}, step s = andThen (exec i s) (fun s' => .next (move s')) →
      i ≠ .poll → i ≠ .mainLoop → (∀ m, i ≠ .handleCommand m) → (∀ k, i ≠ .readBytes k) →
      step s = .fault .rxOverrun := fun hs h1 h2 h3 h4 => hs.trans (andThen_of_fault (exec_overruns h h1 h2 h3 h4) _)
  cases hphase : s.seq.phase with
  | poll => exact absurd hphase hp
  | scan =>
    cases hscan : s.seq.scanphase with
    | assert => exact stops (hassert s hphase hscan) (by simp) (by simp) (by simp) (by simp)
    | hold => exact stops (hhold s hphase hscan) (by simp) (by simp) (by simp) (by simp)
    | blank => exact stops (hblank s hphase hscan) (by simp) (by simp) (by simp) (by simp)
    | advance => exact stops (hadvance s hphase hscan) (by simp) (by simp) (by simp) (by simp)
  | tick => exact stops (htick s hphase) (by simp) (by simp) (by simp) (by simp)

/-! ## POLL, which takes one byte -/

/-- With the queue full POLL stops if the next byte has arrived, if there is no byte to take, or if two bytes arrive. -/
theorem execPoll_overruns {s : State} {d : Nat} {b : RxByte} {bs : List RxByte} (hdepth : s.params.rxFifoDepth = some d)
    (hfull : d ≤ s.link.rxq.length) (hstream : s.link.hostStream = b :: bs) (hb : b.arrival ≤ (clockAfter 0 s.clock).t)
    (hwhen : b.arrival ≤ s.clock.t ∨ s.link.rxq = [] ∨
      ∃ b' bs', bs = b' :: bs' ∧ b'.arrival ≤ (clockAfter 0 s.clock).t) :
    execPoll s = .fault .rxOverrun := by
  by_cases hnow : b.arrival ≤ s.clock.t
  · have hdeliver : deliver s = .fault .rxOverrun := by
      rw [deliver_eq_fault_iff, hstream, arrivedBy_cons_of_le hnow, List.length_cons]
      exact ⟨d, hdepth, List.cons_ne_nil _ _, by omega⟩
    exact andThen_of_fault (andThen_of_fault hdeliver _) _
  have hdeliver : deliver s = .next s := deliver_of_late (by rw [hstream]; rintro x ⟨⟩; exact not_le.1 hnow)
  cases hq : s.link.rxq with
  | nil =>
    rw [execPoll, takeMarker, hdeliver, andThen_next, removeOldest_of_empty hq, andThen_next]
    exact elapse_overruns ⟨d, b, bs, hdepth, hfull, hstream, hb⟩
  | cons x q =>
    have htake : removeOldest s = some (x.byte, { s with link.rxq := q }) := by rw [removeOldest, hq]
    have helapse : elapse { s with link.rxq := q } = .fault .rxOverrun := by
      obtain hle | hnil | ⟨b', bs', rfl, hb'⟩ := hwhen
      · exact absurd hle hnow
      · rw [hq] at hnil; cases hnil
      · rw [hq, List.length_cons] at hfull
        rw [elapse, pass, deliver_eq_fault_iff]
        refine ⟨d, hdepth, ?_, ?_⟩
        · simp only [hstream, arrivedBy_cons_of_le hb]
          exact List.cons_ne_nil _ _
        · simp only [hstream, arrivedBy_cons_of_le hb, arrivedBy_cons_of_le hb', List.length_cons]
          omega
    rw [execPoll, takeMarker, hdeliver, andThen_next, htake]
    exact andThen_of_fault (andThen_of_fault helapse _) _

/-- Settles O53: LATCH is the one delivery at its end; the others stop within their first operation, POLL in the time it
takes to remove a byte. -/
theorem arrivalAtAFullQueueStops : Obligations.ArrivalAtAFullQueueStops := by
  unfold Obligations.ArrivalAtAFullQueueStops
  refine ⟨fun s => ?latch, fun s d b bs hdepth hfull hstream hb => ?others,
    fun s d b bs hdepth hfull hstream hb hwhen => ?poll⟩
  case latch => exact deliver_eq_fault_iff _
  case others =>
    have h : Overruns s := ⟨d, b, bs, hdepth, hfull, hstream, hb⟩
    exact ⟨fun i => exec_overruns h, step_overruns h⟩
  case poll =>
    have hpoll : exec .poll s = .fault .rxOverrun := execPoll_overruns hdepth hfull hstream hb hwhen
    have hloop : execPoll (setPhase .poll s) = .fault .rxOverrun := execPoll_overruns hdepth hfull hstream hb hwhen
    refine ⟨hpoll, andThen_of_fault hloop _, fun hphase => ?_⟩
    rw [stepRunsTheOperationInTurn.1 s hphase]
    exact andThen_of_fault hpoll _

end Sys2Proof.Machine
end

section
/-! PROOFS of the family "other", the deadline-bounded read (40 R121 to R123, R134; D7 to D10, log 12). The wait for one byte
either takes the oldest byte of the stream or times out, and which of the two is fixed by the queue, the clock and the
deadline; the loop repeats it, under `GROUP` with one deadline and under `BYTE` with one for each byte. -/

namespace Sys2Proof.Machine

/-! ## The wait for one byte -/

/-- All the bytes in `RXQ` have arrived. -/
def AllArrived (s : State) : Prop := ∀ b ∈ s.link.rxq, b.arrival ≤ s.clock.t

theorem arrive_allArrived {depth : Option Nat} {now : Nat} : ∀ {bs q : List RxByte} {l : Link},
    arrive depth now q bs = some l → (∀ b ∈ q, b.arrival ≤ now) → ∀ b ∈ l.rxq, b.arrival ≤ now
  | [], q, l, h, hq => by
    cases h
    exact hq
  | b :: bs, q, l, h, hq => by
    unfold arrive at h
    split at h
    · next hb =>
      split at h
      · cases h
      · refine arrive_allArrived h ?_
        simpa [or_imp, forall_and] using ⟨hq, hb⟩
    · cases h
      exact hq

theorem deliver_allArrived {s s' : State} (h : deliver s = .next s') (hs : AllArrived s) : AllArrived s' := by
  unfold deliver at h
  split at h <;> cases h
  next l hl => exact arrive_allArrived hl hs

theorem removeOldest_of_cons {s : State} {b : RxByte} {q : List RxByte} (h : s.link.rxq = b :: q) :
    removeOldest s = some (b.byte, { s with link.rxq := q }) := by
  rw [removeOldest, h]

/-- With `RXQ` empty and no byte to arrive by the deadline, the wait ends at the deadline. -/
theorem awaitByte_late {s : State} (hq : s.link.rxq = [])
    (hlate : ∀ b ∈ s.link.hostStream.head?, max s.clock.t (readDeadline s) < b.arrival) :
    awaitByte s = .next (none, setTime (max s.clock.t (readDeadline s)) s) := by
  have hdeliver : deliver s = .next s := deliver_of_late fun b hb => (le_max_left _ _).trans_lt (hlate b hb)
  rw [awaitByte, hdeliver, andThen_next, removeOldest_of_empty hq]
  rcases hs : s.link.hostStream with _ | ⟨b, bs⟩
  · rfl
  · exact if_neg (hlate b (by rw [hs]; rfl)).not_ge

/-- The oldest byte of the stream is taken if `RXQ` holds one or if it arrives by the deadline; time passes until it has
arrived. -/
theorem awaitByte_takes {s : State} {b : RxByte} {bs : List RxByte} (h : Paced s) (hs : stream s = b :: bs)
    (hb : s.link.rxq ≠ [] ∨ b.arrival ≤ max s.clock.t (readDeadline s)) :
    ∃ u, awaitByte s = .next (some b.byte, u) ∧ stream u = bs ∧
      (AllArrived s → AllArrived u ∧ u.clock.t = max s.clock.t b.arrival) ∧
      (s.link.rxq ≠ [] → u.clock = s.clock) := by
  obtain ⟨v, hv⟩ := deliver_completes h
  obtain ⟨vtime, vclock, vlate⟩ := deliver_next hv
  have hvs : stream v = b :: bs := vtime.kept.trans hs
  cases hvq : v.link.rxq with
  | cons x q =>
    rw [stream, hvq, List.cons_append, List.cons.injEq] at hvs
    obtain ⟨rfl, hq⟩ := hvs
    refine ⟨{ v with link.rxq := q }, ?_, hq, fun harr => ?_, fun _ => vclock⟩
    · rw [awaitByte, hv, andThen_next, removeOldest_of_cons hvq]
    · have hv_arr := deliver_allArrived hv harr
      have hx : x.arrival ≤ s.clock.t := vclock ▸ hv_arr x (by rw [hvq]; exact List.mem_cons_self)
      refine ⟨fun y hy => hv_arr y (by rw [hvq]; exact List.mem_cons_of_mem _ hy), ?_⟩
      rw [max_eq_left hx, ← vclock]
  | nil =>
    have hsq : s.link.rxq = [] := List.prefix_nil.1 (hvq ▸ vtime.queued)
    have hvhost : v.link.hostStream = b :: bs := by rwa [stream, hvq, List.nil_append] at hvs
    have hdeadline : readDeadline v = readDeadline s := by rw [vtime.rest]; rfl
    have hbt : b.arrival ≤ max v.clock.t (readDeadline v) := by
      rw [hdeadline, vclock]
      exact hb.resolve_left fun hne => hne hsq
    obtain ⟨w, hw⟩ := deliver_completes (s := setTime (max v.clock.t b.arrival) v) (vtime.paced h)
    obtain ⟨wtime, wclock, wlate⟩ := deliver_next hw
    have hws : stream w = b :: bs := wtime.kept.trans hvs
    cases hwq : w.link.rxq with
    | nil =>
      rw [stream, hwq, List.nil_append] at hws
      have hlt := wlate b (by rw [hws]; rfl)
      exact absurd (le_max_right v.clock.t b.arrival) hlt.not_ge
    | cons x q =>
      rw [stream, hwq, List.cons_append, List.cons.injEq] at hws
      obtain ⟨rfl, hq⟩ := hws
      refine ⟨{ w with link.rxq := q }, ?_, hq, fun _ => ⟨?_, ?_⟩, fun hne => absurd hsq hne⟩
      · rw [awaitByte, hv, andThen_next, removeOldest_of_empty hvq]
        simp only [hvhost, if_pos hbt, hw, andThen_next, removeOldest_of_cons hwq]
      · have hv_none : AllArrived (setTime (max v.clock.t x.arrival) v) := fun y hy => by
          rw [setTime_link, hvq] at hy
          cases hy
        exact fun y hy => deliver_allArrived hw hv_none y (by rw [hwq]; exact List.mem_cons_of_mem _ hy)
      · change w.clock.t = _
        rw [wclock, setTime_clock, vclock]

/-- A wait that took no byte found `RXQ` empty and let time pass to the deadline. -/
theorem awaitByte_none {s u : State} (h : Paced s) (hu : awaitByte s = .next (none, u)) :
    s.link.rxq = [] ∧ (∀ b ∈ s.link.hostStream.head?, max s.clock.t (readDeadline s) < b.arrival) ∧
      u = setTime (max s.clock.t (readDeadline s)) s := by
  have late : ∀ b bs, stream s = b :: bs → ¬ (s.link.rxq ≠ [] ∨ b.arrival ≤ max s.clock.t (readDeadline s)) := by
    intro b bs hs hb
    obtain ⟨v, hv, -⟩ := awaitByte_takes h hs hb
    rw [hu] at hv
    cases hv
  have hq : s.link.rxq = [] := by
    rcases hq : s.link.rxq with _ | ⟨x, q⟩
    · rfl
    · exact absurd (.inl (by simp [hq])) (late x (q ++ s.link.hostStream) (by rw [stream, hq]; rfl))
  have hlate : ∀ b ∈ s.link.hostStream.head?, max s.clock.t (readDeadline s) < b.arrival := by
    rcases hs : s.link.hostStream with _ | ⟨x, q⟩
    · simp
    · rintro b ⟨⟩
      exact not_le.1 fun hle => late x q (by rw [stream, hq, hs]; rfl) (.inr hle)
  refine ⟨hq, hlate, ?_⟩
  rw [awaitByte_late hq hlate] at hu
  cases hu
  rfl

/-- Where the oldest byte of the stream has not arrived, `RXQ` is empty. -/
theorem rxq_empty_of_late {s : State} {b : RxByte} {bs : List RxByte} (harr : AllArrived s) (hs : stream s = b :: bs)
    (hlate : s.clock.t < b.arrival) : s.link.rxq = [] ∧ s.link.hostStream = b :: bs := by
  rcases hq : s.link.rxq with _ | ⟨x, q⟩
  · exact ⟨rfl, by rwa [stream, hq, List.nil_append] at hs⟩
  · rw [stream, hq, List.cons_append, List.cons.injEq] at hs
    have hx := harr x (by rw [hq]; exact List.mem_cons_self)
    exact absurd (hs.1 ▸ hx) hlate.not_ge

/-! ## The restart of the timeout -/

theorem restartRead_group {s : State} (h : s.params.readUnit = .group) : restartRead s = s := by rw [restartRead, h]

theorem restartRead_byte {s : State} (h : s.params.readUnit = .byte) :
    restartRead s = { s with rx.readStartMs := nowMs s } := by rw [restartRead, h]

/-- A timeout that starts now and one that is started again now are the same. -/
theorem restartRead_fresh {s : State} (h : s.rx.readStartMs = nowMs s) : restartRead s = s := by
  unfold restartRead
  split
  · rfl
  · rw [← h]

theorem stream_restartRead (s : State) : stream (restartRead s) = stream s := by
  rw [stream, (restartRead_spec s).2.2.2, stream]

theorem deadlineFromNow_mono {s u : State} (h : Kept s u) : deadlineFromNow s ≤ deadlineFromNow u := by
  rw [deadlineFromNow, deadlineFromNow, h.params]
  exact Nat.mul_le_mul_right _ (Nat.add_le_add_right (Nat.div_le_div_right h.forward) _)

/-- The deadline of an attempt is never before that of the attempt before it. -/
theorem attemptDeadline_mono {s u : State} {r : Option Byte} (h : awaitByte (restartRead s) = .next (r, u)) :
    readDeadline (restartRead s) ≤ readDeadline (restartRead u) := by
  have hkept : Kept s u := (restartRead_kept s).trans ((awaitByte_answers _).kept h)
  obtain ⟨-, hrx, -⟩ := awaitByte_next h
  cases hunit : s.params.readUnit with
  | group =>
    rw [restartRead_group hunit] at hrx ⊢
    rw [restartRead_group (by rw [hkept.params, hunit]), readDeadline, readDeadline, hrx, hkept.params]
  | byte =>
    rw [restartRead_byte hunit, restartRead_byte (by rw [hkept.params, hunit])]
    exact deadlineFromNow_mono hkept

/-! ## Queued bytes -/

/-- Settles O28: the queued bytes are returned, and the call does nothing but receive. -/
theorem readTakesQueuedBytes : Obligations.ReadTakesQueuedBytes := by
  unfold Obligations.ReadTakesQueuedBytes
  intro s bs h hq
  obtain ⟨s', hs', hread, -, hstream⟩ := readBytes_queued (rest := []) h (by simpa using hq) rfl
  obtain ⟨honly, hstage, hseq, -⟩ := readBytes_next hs'
  exact ⟨s', hs', honly, hread, hstage, hseq, hstream⟩

/-! ## Under `READ_UNIT = GROUP` -/

/-- What is left of the list from the first byte on that has not arrived by `now`. -/
def leftAt (now : Nat) (bs : List RxByte) : List RxByte := bs.dropWhile fun b => decide (b.arrival ≤ now)

theorem leftAt_cons_of_le {now : Nat} {b : RxByte} (h : b.arrival ≤ now) (bs : List RxByte) :
    leftAt now (b :: bs) = leftAt now bs :=
  List.dropWhile_cons_of_pos (p := fun b : RxByte => decide (b.arrival ≤ now)) (decide_eq_true h)

theorem leftAt_cons_of_lt {now : Nat} {b : RxByte} (h : now < b.arrival) (bs : List RxByte) :
    leftAt now (b :: bs) = b :: bs :=
  List.dropWhile_cons_of_neg (p := fun b : RxByte => decide (b.arrival ≤ now)) (by simpa using h)

theorem arrivedBy_append_leftAt (now : Nat) (bs : List RxByte) : arrivedBy now bs ++ leftAt now bs = bs :=
  List.takeWhile_append_dropWhile

/-- The wait for a byte leaves the deadline where it is. -/
theorem awaitByte_readDeadline {s u : State} {r : Option Byte} (h : awaitByte s = .next (r, u)) :
    readDeadline u = readDeadline s := by
  obtain ⟨honly, hrx, -⟩ := awaitByte_next h
  rw [readDeadline, hrx, honly.rest, readDeadline]

/-- The loop under one deadline: it takes the bytes that arrive by the deadline, up to `k` of them. -/
theorem readLoop_group : ∀ (k : Nat) (got : List Byte) (limit : Nat) {s : State}, Paced s → AllArrived s →
    s.params.readUnit = .group → s.clock.t ≤ readDeadline s →
    ∃ s', readLoop k got limit s = .next s' ∧
      ((k ≤ (arrivedBy (readDeadline s) (stream s)).length ∧
          s'.rx.lastRead = .ok (got ++ ((stream s).take k).map RxByte.byte) ∧ stream s' = (stream s).drop k ∧
          ∀ b ∈ (stream s).take k, b.arrival ≤ s'.clock.t) ∨
        ((arrivedBy (readDeadline s) (stream s)).length < k ∧ s'.clock.t = readDeadline s ∧
          s'.rx.lastRead = .timeout ∧
          stream s' = leftAt (readDeadline s) (stream s)))
  | 0, got, limit, s, h, _, _, _ => by
    obtain ⟨s', hs', htime, -⟩ := elapseUntil_completes (limit := limit) (s := { s with rx.lastRead := .ok got }) h
    exact ⟨s', hs', .inl ⟨Nat.zero_le _, by rw [htime.rest]; simp, htime.kept, by simp⟩⟩
  | k + 1, got, limit, s, h, harr, hunit, hnow => by
    have hmax : max s.clock.t (readDeadline s) = readDeadline s := max_eq_right hnow
    have timesOut : s.link.rxq = [] → (∀ b ∈ s.link.hostStream.head?, readDeadline s < b.arrival) →
        readLoop (k + 1) got limit s = .next { setTime (readDeadline s) s with rx.lastRead := .timeout } := by
      intro hq hlate
      rw [readLoop, restartRead_group hunit, awaitByte_late hq (by rwa [hmax]), hmax]
      rfl
    rcases hs : stream s with _ | ⟨b, bs⟩
    · obtain ⟨hq, hhost⟩ := List.append_eq_nil_iff.1 hs
      exact ⟨_, timesOut hq (by simp [hhost]), .inr ⟨Nat.succ_pos _, rfl, rfl, hs⟩⟩
    · by_cases hb : b.arrival ≤ readDeadline s
      · obtain ⟨u, hu, hus, hclock, -⟩ := awaitByte_takes h hs (.inr (by rwa [hmax]))
        obtain ⟨honly, -⟩ := awaitByte_next hu
        obtain ⟨hu_arr, hu_clock⟩ := hclock harr
        have hdeadline := awaitByte_readDeadline hu
        obtain ⟨s', hs', hcases⟩ := readLoop_group k (got ++ [b.byte]) (attemptLimit limit s) (honly.paced h) hu_arr
          (by rw [honly.rest]; exact hunit) (by rw [hu_clock, hdeadline]; exact max_le hnow hb)
        rw [hdeadline, hus] at hcases
        refine ⟨s', ?_, ?_⟩
        · rw [readLoop, restartRead_group hunit, hu]
          exact hs'
        rw [arrivedBy_cons_of_le hb, leftAt_cons_of_le hb]
        obtain ⟨hlen, hread, hdrop, htake⟩ | ⟨hlen, ht, hread, hdrop⟩ := hcases
        · refine .inl ⟨Nat.succ_le_succ hlen, by rw [hread]; simp, hdrop, ?_⟩
          have hbs' : b.arrival ≤ s'.clock.t :=
            (hu_clock ▸ le_max_right _ _ : b.arrival ≤ u.clock.t).trans (readLoop_next hs').1.forward
          simpa [hbs'] using htake
        · exact .inr ⟨Nat.succ_lt_succ hlen, ht, hread, hdrop⟩
      · have hlt := not_le.1 hb
        obtain ⟨hq, hhost⟩ := rxq_empty_of_late harr hs (hnow.trans_lt hlt)
        refine ⟨_, timesOut hq (by rw [hhost]; rintro x ⟨⟩; exact hlt), .inr ⟨?_, rfl, rfl, ?_⟩⟩
        · rw [arrivedBy_cons_of_lt hlt]
          exact Nat.succ_pos _
        · rw [leftAt_cons_of_lt hlt]
          exact hs

/-- Of bytes in order, those after the first late one are late. -/
theorem late_of_mem_leftAt {now : Nat} {b : RxByte} : ∀ {bs : List RxByte},
    bs.Pairwise (fun a b => a.arrival ≤ b.arrival) → b ∈ leftAt now bs → now < b.arrival
  | [], _, hb => by cases hb
  | c :: cs, hsorted, hb => by
    obtain ⟨hc, hcs⟩ := List.pairwise_cons.1 hsorted
    by_cases hle : c.arrival ≤ now
    · rw [leftAt_cons_of_le hle] at hb
      exact late_of_mem_leftAt hcs hb
    · rw [leftAt_cons_of_lt (not_le.1 hle)] at hb
      obtain rfl | hmem := List.mem_cons.1 hb
      · exact not_le.1 hle
      · exact (not_le.1 hle).trans_le (hc b hmem)

/-- A call that starts now has a deadline after now. -/
theorem lt_deadlineFromNow {s : State} (h : s.params.Legal) : s.clock.t < deadlineFromNow s := by
  have := h.2
  rw [deadlineFromNow, nowMs]
  omega

/-- Settles O25: whether the `k`-th byte arrives by the deadline is whether `k` bytes do. -/
theorem readSucceedsExactlyByItsDeadline : Obligations.ReadSucceedsExactlyByItsDeadline := by
  unfold Obligations.ReadSucceedsExactlyByItsDeadline
  intro s k h ⟨hsorted, harr⟩ hlegal hunit hk
  obtain ⟨s', hs', hcases⟩ := readLoop_group k [] (readLimit s) (s := { s with rx.readStartMs := nowMs s }) h harr hunit
    (lt_deadlineFromNow hlegal).le
  refine ⟨s', hs', (readBytes_next hs').1, ?_⟩
  change (k ≤ (arrivedBy (deadlineFromNow s) (stream s)).length ∧ _) ∨
    ((arrivedBy (deadlineFromNow s) (stream s)).length < k ∧ _) at hcases
  obtain ⟨hlen, hread, hdrop, htake⟩ | ⟨hlen, ht, hread, hdrop⟩ := hcases
  · have hlt : k - 1 < (arrivedBy (deadlineFromNow s) (stream s)).length := by omega
    have hb : (stream s)[k - 1]? = some (arrivedBy (deadlineFromNow s) (stream s))[k - 1] := by
      conv_lhs => rw [← arrivedBy_append_leftAt (deadlineFromNow s) (stream s)]
      rw [List.getElem?_append_left hlt, List.getElem?_eq_getElem hlt]
    have hin := List.mem_takeWhile_imp (List.getElem_mem hlt)
    refine .inl ⟨_, hb, of_decide_eq_true hin, htake _ ?_, hread, hdrop⟩
    exact List.mem_of_getElem? (i := k - 1) (by rw [← hb]; exact List.getElem?_take_of_lt (by omega))
  · refine .inr ⟨fun b hb => ?_, ht, hread, hdrop⟩
    rw [← arrivedBy_append_leftAt (deadlineFromNow s) (stream s), List.getElem?_append_right (by omega)] at hb
    exact late_of_mem_leftAt hsorted (List.mem_of_getElem? hb)

/-! ## Under `READ_UNIT = BYTE` -/

theorem takenInTime_cons_of_le {T k t : Nat} {b : RxByte} (h : b.arrival ≤ (t / 1000 + T) * 1000) (bs : List RxByte) :
    takenInTime T (k + 1) t (b :: bs) = b :: takenInTime T k (max t b.arrival) bs := if_pos h

theorem takenInTime_cons_of_lt {T k t : Nat} {b : RxByte} (h : (t / 1000 + T) * 1000 < b.arrival) (bs : List RxByte) :
    takenInTime T (k + 1) t (b :: bs) = [] := if_neg h.not_ge

/-- The loop with a deadline for each byte. -/
theorem readLoop_byte : ∀ (k : Nat) (got : List Byte) (limit : Nat) {s : State}, Paced s → AllArrived s →
    s.params.Legal → s.params.readUnit = .byte →
    ∃ s' taken, readLoop k got limit s = .next s' ∧
      taken = takenInTime s.params.readTimeoutMs k s.clock.t (stream s) ∧ stream s = taken ++ stream s' ∧
      ((taken.length = k ∧ s'.rx.lastRead = .ok (got ++ taken.map RxByte.byte) ∧
          lastArrival s.clock.t taken ≤ s'.clock.t) ∨
        (taken.length < k ∧ s'.rx.lastRead = .timeout ∧
          s'.clock.t = (lastArrival s.clock.t taken / 1000 + s.params.readTimeoutMs) * 1000))
  | 0, got, limit, s, h, _, _, _ => by
    obtain ⟨s', hs', htime, -⟩ := elapseUntil_completes (limit := limit) (s := { s with rx.lastRead := .ok got }) h
    exact ⟨s', [], hs', rfl, htime.kept.symm, .inl ⟨rfl, by rw [htime.rest]; simp, htime.forward⟩⟩
  | k + 1, got, limit, s, h, harr, hlegal, hunit => by
    have hr := restartRead_byte hunit
    have hmax : max (restartRead s).clock.t (readDeadline (restartRead s)) = deadlineFromNow s := by
      rw [hr]
      exact max_eq_right (lt_deadlineFromNow hlegal).le
    have timesOut : s.link.rxq = [] → (∀ b ∈ s.link.hostStream.head?, deadlineFromNow s < b.arrival) →
        ∃ s', readLoop (k + 1) got limit s = .next s' ∧ stream s = stream s' ∧ s'.rx.lastRead = .timeout ∧
          s'.clock.t = deadlineFromNow s := by
      intro hq hlate
      refine ⟨{ setTime (deadlineFromNow s) (restartRead s) with rx.lastRead := .timeout }, ?_,
        (stream_restartRead s).symm, rfl, rfl⟩
      rw [readLoop, awaitByte_late (by rw [hr]; exact hq) (by rw [hmax, hr]; exact hlate), hmax]
      rfl
    rcases hs : stream s with _ | ⟨b, bs⟩
    · obtain ⟨hq, hhost⟩ := List.append_eq_nil_iff.1 hs
      obtain ⟨s', hs', hkept, hread, ht⟩ := timesOut hq (by simp [hhost])
      exact ⟨s', [], hs', rfl, hs.symm.trans hkept, .inr ⟨Nat.succ_pos _, hread, ht⟩⟩
    · by_cases hb : b.arrival ≤ deadlineFromNow s
      · obtain ⟨u, hu, hus, hclock, -⟩ := awaitByte_takes ((restartRead_kept s).paced h)
          ((stream_restartRead s).trans hs) (.inr (by rwa [hmax]))
        have hkept := (awaitByte_answers _).kept hu
        obtain ⟨hu_arr, hu_clock⟩ := hclock (by rw [hr]; exact harr)
        have hparams : u.params = s.params := hkept.params.trans (restartRead_kept s).params
        have hu_clock : u.clock.t = max s.clock.t b.arrival := by rw [hu_clock, hr]
        obtain ⟨s', taken, hs', htaken, hstream, hcases⟩ := readLoop_byte k (got ++ [b.byte]) (attemptLimit limit s)
          (hkept.paced ((restartRead_kept s).paced h)) hu_arr (hparams ▸ hlegal) (hparams ▸ hunit)
        rw [hus, hparams, hu_clock] at htaken
        rw [hu_clock, hparams] at hcases
        refine ⟨s', b :: taken, ?_, by rw [takenInTime_cons_of_le hb, htaken], by rw [← hus, hstream]; rfl, ?_⟩
        · rw [readLoop, hu]
          exact hs'
        obtain ⟨hlen, hread, ht⟩ | ⟨hlen, hread, ht⟩ := hcases
        · exact .inl ⟨congrArg (· + 1) hlen, by rw [hread]; simp, ht⟩
        · exact .inr ⟨Nat.succ_lt_succ hlen, hread, ht⟩
      · have hlt := not_le.1 hb
        obtain ⟨hq, hhost⟩ := rxq_empty_of_late harr hs ((lt_deadlineFromNow hlegal).trans hlt)
        obtain ⟨s', hs', hkept, hread, ht⟩ := timesOut hq (by rw [hhost]; rintro x ⟨⟩; exact hlt)
        exact ⟨s', [], hs', (takenInTime_cons_of_lt hlt bs).symm, hs.symm.trans hkept, .inr ⟨Nat.succ_pos _, hread, ht⟩⟩

/-- Settles O26: the call is the loop with a deadline for each byte. -/
theorem readByBytesGivesEachByteItsDeadline : Obligations.ReadByBytesGivesEachByteItsDeadline := by
  unfold Obligations.ReadByBytesGivesEachByteItsDeadline
  intro s k h ⟨_, harr⟩ hlegal hunit
  obtain ⟨s', taken, hs', hloop⟩ := readLoop_byte k [] (readLimit s) (s := { s with rx.readStartMs := nowMs s }) h harr
    hlegal hunit
  exact ⟨s', taken, hs', (readBytes_next hs').1, hloop⟩

/-! ## The bound on a call (40 R134) -/

theorem readDeadline_le_readLimit {s u : State} (hstart : u.rx.readStartMs = nowMs s) (hparams : u.params = s.params) :
    readDeadline u ≤ readLimit s := by
  rw [readDeadline, readLimit, hstart, hparams, nowMs]
  omega

/-- Under one deadline the loop ends by the limit of its one attempt. -/
theorem readLoop_group_clock {k : Nat} {got : List Byte} {limit : Nat} {s s' : State}
    (h : readLoop k got limit s = .next s') (hunit : s.params.readUnit = .group) (hnow : s.clock.t ≤ limit)
    (hdeadline : readDeadline s ≤ limit) : s'.clock.t ≤ limit := by
  induction k generalizing got s with
  | zero => exact (elapseUntil_next h).2.trans (max_le hnow le_rfl)
  | succ k ih =>
    obtain ⟨⟨r, u⟩, hu, h⟩ := andThen_eq_next.1 h
    rw [restartRead_group hunit] at hu
    have hclock : u.clock.t ≤ limit := (awaitByte_clock hu).trans (max_le hnow hdeadline)
    cases r with
    | none =>
      cases h
      exact hclock
    | some b =>
      simp only [attemptLimit, hunit] at h
      exact ih h (by rw [((awaitByte_answers s).kept hu).params]; exact hunit) hclock
        ((awaitByte_readDeadline hu).trans_le hdeadline)

/-- With a deadline for each byte every attempt ends by its own limit. -/
theorem readLoop_byte_clock : ∀ {k : Nat} {got : List Byte} {limit : Nat} {s s' : State},
    readLoop k got limit s = .next s' → s.params.readUnit = .byte →
    s'.clock.t ≤ max (max s.clock.t limit) (s.clock.t + k * ((s.params.readTimeoutMs + 1) * 1000) - 1)
  | 0, got, limit, s, s', h, _ => (elapseUntil_next h).2.trans (le_max_left _ _)
  | k + 1, got, limit, s, s', h, hunit => by
    obtain ⟨⟨r, u⟩, hu, h⟩ := andThen_eq_next.1 h
    have hkept : Kept s u := (restartRead_kept s).trans ((awaitByte_answers _).kept hu)
    have hclock := awaitByte_clock hu
    rw [restartRead_byte hunit] at hclock
    have hlimit : u.clock.t ≤ readLimit s :=
      hclock.trans (max_le (by simp only [readLimit]; omega) (readDeadline_le_readLimit rfl rfl))
    have hsucc : (k + 1) * ((s.params.readTimeoutMs + 1) * 1000) =
        k * ((s.params.readTimeoutMs + 1) * 1000) + (s.params.readTimeoutMs + 1) * 1000 := Nat.succ_mul _ _
    rw [hsucc]
    cases r with
    | none =>
      cases h
      simp only [readLimit] at hlimit ⊢
      omega
    | some b =>
      simp only [attemptLimit, hunit] at h
      have ih := readLoop_byte_clock h (by rw [hkept.params]; exact hunit)
      rw [hkept.params] at ih
      simp only [readLimit] at hlimit ih ⊢
      omega

/-- A call whose bytes are queued takes them at once and then a drawn time, cut off at its limit. -/
theorem readLoop_queued_clock : ∀ {bs : List Byte} {got : List Byte} {s s' : State}, Paced s → bs <+: queuedBytes s →
    readLoop bs.length got (readLimit s) s = .next s' → s'.clock = clockUntil (readLimit s) s.clock
  | [], got, s, s', _, _, h => (deliver_next h).2.1
  | b :: bs, got, s, s', hpaced, hq, h => by
    obtain ⟨honly, -, -, hlink⟩ := restartRead_spec s
    have hclock : (restartRead s).clock = s.clock := by unfold restartRead; split <;> rfl
    have hqr : b :: bs <+: queuedBytes (restartRead s) := by rwa [queuedBytes, hlink]
    obtain ⟨u, hu, hqu, -⟩ := awaitByte_queued (honly.paced hpaced) hqr
    have hne : (restartRead s).link.rxq ≠ [] := by
      intro hnil
      rw [queuedBytes, hnil] at hqr
      exact absurd (List.prefix_nil.1 hqr) (List.cons_ne_nil _ _)
    obtain ⟨x, q, hx⟩ := List.exists_cons_of_ne_nil hne
    obtain ⟨v, hv, -, -, hvclock⟩ := awaitByte_takes (honly.paced hpaced) (b := x)
      (bs := q ++ (restartRead s).link.hostStream) (by rw [stream, hx]; rfl) (.inl hne)
    rw [hu] at hv
    cases hv
    have huclock : u.clock = s.clock := (hvclock hne).trans hclock
    have hparams : u.params = s.params :=
      ((awaitByte_answers _).kept hu).params.trans (restartRead_kept s).params
    have hlimit : attemptLimit (readLimit s) s = readLimit u := by
      have : readLimit u = readLimit s := by rw [readLimit, readLimit, huclock, hparams]
      rw [this, attemptLimit]
      split <;> rfl
    rw [List.length_cons, readLoop, hu, andThen_next] at h
    simp only [hlimit] at h
    rw [readLoop_queued_clock ((honly.trans (awaitByte_next hu).1).paced hpaced) hqu h, ← hlimit, huclock]
    congr 1
    rw [attemptLimit]
    split <;> rfl

/-- Settles O27: each attempt ends by its limit, and up to that limit the drawn duration is not cut off. -/
theorem readCallsAreBounded : Obligations.ReadCallsAreBounded := by
  unfold Obligations.ReadCallsAreBounded
  refine ⟨fun s s' k h => ⟨fun hunit => ?group, fun hunit hk => ?byte⟩, fun s bs d ds hpaced hq hpace hd => ?tight⟩
  case group =>
    have hclock := readLoop_group_clock (s := { s with rx.readStartMs := nowMs s }) h hunit
      (by simp only [readLimit]; omega) (readDeadline_le_readLimit rfl rfl)
    simp only [readLimit] at hclock
    omega
  case byte =>
    have hclock := readLoop_byte_clock (s := { s with rx.readStartMs := nowMs s }) h hunit
    have hone : 1 * ((s.params.readTimeoutMs + 1) * 1000) ≤ k * ((s.params.readTimeoutMs + 1) * 1000) :=
      Nat.mul_le_mul_right _ hk
    simp only [readLimit] at hclock
    omega
  case tight =>
    obtain ⟨s', hs', -, hread, -⟩ := readTakesQueuedBytes s bs hpaced hq
    refine ⟨s', hs', hread, ?_⟩
    rw [readLoop_queued_clock (s := { s with rx.readStartMs := nowMs s }) hpaced hq hs']
    simp only [clockUntil, clockAfter, hpace, readLimit]
    omega

end Sys2Proof.Machine
end

section
/-! PROOFS of the family "other", commands that arrive in time and commands that do not (40 R120 to R128, R134, 60 R251, R264,
R265; 70 R304). The reception of a command ends in one of two ways: the bytes taken are those of a whole command, or a
read has timed out, and then the next byte of the stream, if there is one, is later than the deadline. -/

namespace Sys2Proof.Machine

/-! ## A read that times out -/

/-- After a loop that timed out the next byte is later than the deadline, and so is the clock not sooner. -/
theorem readLoop_timeout {D : Nat} {k : Nat} {got : List Byte} {limit : Nat} {s s' : State} (hpaced : Paced s)
    (hD : D ≤ readDeadline (restartRead s)) (h : readLoop k got limit s = .next s') (hread : s'.rx.lastRead = .timeout) :
    (∀ b ∈ (stream s').head?, D < b.arrival) ∧ D ≤ s'.clock.t ∧ (s.link.hostStream = [] → stream s' = []) := by
  induction k generalizing got limit s with
  | zero =>
    rw [(elapseUntil_next h).1.rest] at hread
    cases hread
  | succ k ih =>
    obtain ⟨⟨r, u⟩, hu, h⟩ := andThen_eq_next.1 h
    have hrestart := restartRead_kept s
    have hkept := (awaitByte_answers _).kept hu
    cases r with
    | some b =>
      obtain ⟨hlate, hclock, hhost⟩ := ih (hkept.paced (hrestart.paced hpaced)) (hD.trans (attemptDeadline_mono hu)) h
      refine ⟨hlate, hclock, fun hs => hhost ?_⟩
      exact List.suffix_nil.1 (hs ▸ hkept.host.trans hrestart.host)
    | none =>
      cases h
      obtain ⟨hq, hlate, rfl⟩ := awaitByte_none (hrestart.paced hpaced) hu
      have hstream : stream (setTime (max (restartRead s).clock.t (readDeadline (restartRead s))) (restartRead s)) =
          (restartRead s).link.hostStream := by rw [stream, setTime_link, hq, List.nil_append]
      have hDmax := hD.trans (le_max_right (restartRead s).clock.t _)
      refine ⟨fun b hb => hDmax.trans_lt (hlate b (by rw [← hstream]; exact hb)), hDmax, fun hs => hstream.trans ?_⟩
      exact List.suffix_nil.1 (hs ▸ hrestart.host)

/-- A reception from `s` that ended at `s'` with a timeout. -/
structure TimedOut (s s' : State) : Prop where
  late  : ∀ b ∈ (stream s').head?, deadlineFromNow s < b.arrival
  clock : deadlineFromNow s ≤ s'.clock.t
  empty : s.link.hostStream = [] → stream s' = []

/-- What was kept before a timeout may be counted to it, and so may the time after it. -/
theorem TimedOut.of_kept {s u s' : State} (h : Kept s u) (k : TimedOut u s') : TimedOut s s' :=
  ⟨fun b hb => (deadlineFromNow_mono h).trans_lt (k.late b hb), (deadlineFromNow_mono h).trans k.clock,
    fun hs => k.empty (List.suffix_nil.1 (hs ▸ h.host))⟩

theorem TimedOut.then_time {s u s' : State} (h : TimedOut s u) (htime : OnlyTime u s') : TimedOut s s' :=
  ⟨by rw [htime.kept]; exact h.late, h.clock.trans htime.forward, by rw [htime.kept]; exact h.empty⟩

theorem readBytes_timeout {k : Nat} {s s' : State} (hpaced : Paced s) (h : readBytes k s = .next s')
    (hread : s'.rx.lastRead = .timeout) : TimedOut s s' := by
  have hfresh : restartRead { s with rx.readStartMs := nowMs s } = { s with rx.readStartMs := nowMs s } :=
    restartRead_fresh rfl
  obtain ⟨hlate, hclock, hempty⟩ :=
    readLoop_timeout (D := deadlineFromNow s) (s := { s with rx.readStartMs := nowMs s }) hpaced (by rw [hfresh]; rfl) h
      hread
  exact ⟨hlate, hclock, hempty⟩

/-- What a read of `k` bytes by the receiver can do: take them, or take fewer and time out. -/
inductive ReadEnd (k : Nat) (s s' : State) : Prop
  | ok (taken : List RxByte) (hstream : stream s = taken ++ stream s') (hlen : taken.length = k)
      (hread : s'.rx.lastRead = .ok (taken.map RxByte.byte))
  | timeout (taken : List RxByte) (hstream : stream s = taken ++ stream s') (hlen : taken.length < k)
      (hread : s'.rx.lastRead = .timeout) (hout : TimedOut s s')

theorem readOperand_end {k : Nat} {s s' : State} (hpaced : Paced s) (h : readOperand k s = .next s') :
    ReadEnd k s s' := by
  obtain ⟨u, hu, h⟩ := andThen_eq_next.1 h
  have htime := elapse_next h
  have hrx : s'.rx = u.rx := by rw [htime.rest]
  obtain ⟨honly, -, -, ⟨bs, hread, hlen, hbytes⟩ | ⟨hread, taken, hlen, hstream⟩⟩ := readBytes_next hu
  · obtain ⟨taken, htaken⟩ := honly.taken
    rw [htaken, List.map_append] at hbytes
    have hbs : bs = taken.map RxByte.byte := List.append_cancel_right hbytes
    refine .ok taken (by rw [htime.kept]; exact htaken) ?_ (by rw [hrx, hread, hbs])
    rw [← hlen, hbs, List.length_map]
  · exact .timeout taken (by rw [htime.kept]; exact hstream.symm) hlen (by rw [hrx]; exact hread)
      ((readBytes_timeout hpaced hu hread).then_time htime)

/-- After a read of payload: the bytes taken are staged, or none is. -/
theorem readPayload_end {k : Nat} {s s' : State} (hpaced : Paced s) (h : readPayload k s = .next s') :
    ReadEnd k s s' ∧ s'.seq = s.seq ∧
      (∀ bs, s'.rx.lastRead = .ok bs → s'.rx.stage = s.rx.stage ++ bs) ∧
      (s'.rx.lastRead = .timeout → s'.rx.stage = s.rx.stage) := by
  obtain ⟨u, hu, h⟩ := andThen_eq_next.1 h
  cases h
  obtain ⟨-, hstage, hseq⟩ := readOperand_next hu
  have hend := readOperand_end hpaced hu
  have hlink : (stageRead u).link = u.link := (stageRead_spec u).2.2.1
  have hstream : stream (stageRead u) = stream u := by rw [stream, hlink, stream]
  have hlast := (stageRead_spec u).2.2.2
  have hclock : (stageRead u).clock = u.clock := by unfold stageRead; split <;> rfl
  refine ⟨?_, by rw [(stageRead_spec u).2.1, hseq], fun bs hbs => ?_, fun hto => ?_⟩
  · cases hend with
    | ok taken hs hlen hread => exact .ok taken (by rw [hstream]; exact hs) hlen (by rw [hlast]; exact hread)
    | timeout taken hs hlen hread hout =>
      exact .timeout taken (by rw [hstream]; exact hs) hlen (by rw [hlast]; exact hread)
        ⟨by rw [hstream]; exact hout.late, by rw [hclock]; exact hout.clock, by rw [hstream]; exact hout.empty⟩
  · rw [hlast] at hbs
    rw [stageRead, hbs, ← hstage]
  · rw [hlast] at hto
    rw [stageRead, hto, hstage]

/-! ## The Frames of a payload -/

/-- Eight bytes are a Frame's. -/
theorem frame_of_length {bs : List Byte} (h : bs.length = 8) : ∃ f : Frame, bs = f.bytes := by
  obtain ⟨f, rest, -, hbs⟩ := takeFrame_enough h.ge
  have hrest : rest = [] := by
    rw [← hbs, List.length_append, Frame.bytes_length] at h
    exact List.length_eq_zero_iff.1 (by omega)
  exact ⟨f, by rw [← hbs, hrest, List.append_nil]⟩

theorem takeFrame_short {bs : List Byte} (h : bs.length < 8) : takeFrame bs = none := by
  unfold takeFrame
  split
  · simp only [List.length_cons] at h
    omega
  · rfl

/-- A Frame cut short is dropped with its bytes (log 20). -/
theorem takeFrames_cut : ∀ {n : Nat} {fs : List Frame} {part : List Byte}, fs.length < n → part.length < 8 →
    takeFrames n (framesBytes fs ++ part) = (fs, [])
  | 0, _, _, h, _ => absurd h (Nat.not_lt_zero _)
  | n + 1, [], part, _, hpart => by rw [framesBytes, List.nil_append, takeFrames, takeFrame_short hpart]
  | n + 1, f :: fs, part, h, hpart => by
    rw [framesBytes, List.append_assoc, takeFrames, takeFrame_bytes]
    simp only [takeFrames_cut (Nat.lt_of_succ_lt_succ h) hpart]

/-- What the reads of `n` Frames can do. -/
inductive FramesEnd (n : Nat) (s s' : State) : Prop
  | ok (fs : List Frame) (taken : List RxByte) (hstream : stream s = taken ++ stream s')
      (hbytes : taken.map RxByte.byte = framesBytes fs) (hlen : fs.length = n) (bs : List Byte)
      (hread : s'.rx.lastRead = .ok bs) (hstage : s'.rx.stage = s.rx.stage ++ framesBytes fs)
  | timeout (fs : List Frame) (part : List Byte) (taken : List RxByte) (hstream : stream s = taken ++ stream s')
      (hbytes : taken.map RxByte.byte = framesBytes fs ++ part) (hlen : fs.length < n) (hpart : part.length < 8)
      (hread : s'.rx.lastRead = .timeout) (hstage : s'.rx.stage = s.rx.stage ++ framesBytes fs) (hout : TimedOut s s')

theorem readFrames_end : ∀ {n : Nat} {s s' : State}, Paced s → (∃ bs, s.rx.lastRead = .ok bs) →
    readFrames n s = .next s' → FramesEnd n s s'
  | 0, s, s', _, ⟨bs, hread⟩, h => by
    cases h
    exact .ok [] [] rfl rfl rfl bs hread (List.append_nil _).symm
  | n + 1, s, s', hpaced, _, h => by
    obtain ⟨u, hu, h⟩ := andThen_eq_next.1 h
    obtain ⟨hend, -, hok, hto⟩ := readPayload_end hpaced hu
    have hkept : Kept s u := (readPayload_answers 8 s).kept hu
    cases hend with
    | timeout taken hstream hlen hread hout =>
      rw [ifRead, hread] at h
      cases h
      exact .timeout [] (taken.map RxByte.byte) taken hstream rfl (Nat.succ_pos n) (by rwa [List.length_map]) hread
        ((hto hread).trans (List.append_nil _).symm) hout
    | ok taken hstream hlen hread =>
      obtain ⟨f, hf⟩ := frame_of_length (bs := taken.map RxByte.byte) (by rw [List.length_map, hlen])
      have hstage := hok _ hread
      rw [ifRead, hread] at h
      cases readFrames_end (hkept.paced hpaced) ⟨_, hread⟩ h with
      | ok fs taken' hstream' hbytes hlen' bs hread' hstage' =>
        refine .ok (f :: fs) (taken ++ taken') (by rw [hstream, hstream', List.append_assoc]) ?_
          (congrArg (· + 1) hlen') bs hread' ?_
        · rw [List.map_append, hf, hbytes, framesBytes]
        · rw [hstage', hstage, hf, framesBytes, List.append_assoc]
      | timeout fs part taken' hstream' hbytes hlen' hpart hread' hstage' hout =>
        refine .timeout (f :: fs) part (taken ++ taken') (by rw [hstream, hstream', List.append_assoc]) ?_
          (Nat.succ_lt_succ hlen') hpart hread' ?_ (.of_kept hkept hout)
        · rw [List.map_append, hf, hbytes, framesBytes, List.append_assoc]
        · rw [hstage', hstage, hf, framesBytes, List.append_assoc]

/-! ## How the reception of a command ends -/

/-- The command received, and its bytes: all of them taken from the stream, or a read has timed out. -/
inductive ReceiveEnd (m : Byte) (s s' : State) : Prop
  | whole (taken : List RxByte) (hstream : stream s = taken ++ stream s')
      (hwhole : wholeCommand (decodeCommand m (receivedBytes s')).1 = true)
      (hbytes : (decodeCommand m (receivedBytes s')).1.bytes = m :: taken.map RxByte.byte)
  | cut (taken : List RxByte) (hstream : stream s = taken ++ stream s')
      (hdec : (decodeCommand m (receivedBytes s')).1 = (decodeCommand m (taken.map RxByte.byte)).1)
      (hcut : wholeCommand (decodeCommand m (receivedBytes s')).1 = false) (hout : TimedOut s s')

theorem receivedBytes_of_timeout {s : State} (h : s.rx.lastRead = .timeout) : receivedBytes s = s.rx.stage := by
  unfold receivedBytes
  split
  · next hread =>
    rw [h] at hread
    cases hread
  · rfl

theorem receivedBytes_of_payload {s : State} (h : s.seq.rxstate = .readingPayload) : receivedBytes s = s.rx.stage := by
  rw [receivedBytes, h]

/-- What the read of the end marker can do, and what the receiver then holds. -/
theorem readEndMarker_end {s s' : State} (hpaced : Paced s) (h : readEndMarker s = .next s') :
    (∃ b, stream s = b :: stream s' ∧ receivedBytes s' = s.rx.stage ++ [b.byte]) ∨
      (stream s = stream s' ∧ receivedBytes s' = s.rx.stage ∧ TimedOut s s') := by
  obtain ⟨-, hstage, hseq⟩ := readOperand_next h
  cases readOperand_end (s := setRxstate .readingEndMarker s) hpaced h with
  | ok taken hstream hlen hread =>
    obtain ⟨b, rfl⟩ := List.length_eq_one_iff.1 hlen
    refine .inl ⟨b, hstream, ?_⟩
    rw [receivedBytes, hseq, hread, hstage]
    rfl
  | timeout taken hstream hlen hread hout =>
    have hnil : taken = [] := List.length_eq_zero_iff.1 (by omega)
    subst hnil
    refine .inr ⟨hstream, by rw [receivedBytes_of_timeout hread, hstage]; rfl, hout.late, hout.clock, hout.empty⟩

theorem startCommand_kept (s : State) : Kept s (startCommand s) := .of_apart

theorem receiveSingleFrame_end {s s' : State} (hpaced : Paced s)
    (h : andThen (readPayload 8 (startCommand s)) (ifRead readEndMarker) = .next s') :
    ReceiveEnd Config.mSingle s s' := by
  obtain ⟨u, hu, h⟩ := andThen_eq_next.1 h
  have hkept : Kept s u := (startCommand_kept s).trans ((readPayload_answers 8 _).kept hu)
  obtain ⟨hend, -, hok, hto⟩ := readPayload_end ((startCommand_kept s).paced hpaced) hu
  cases hend with
  | timeout taken hstream hlen hread hout =>
    rw [ifRead, hread] at h
    cases h
    have hrec : receivedBytes s' = [] := (receivedBytes_of_timeout hread).trans (hto hread)
    refine .cut taken hstream ?_ (by rw [hrec]; rfl) (.of_kept (startCommand_kept s) hout)
    rw [hrec, decodeCommand_mSingle, decodeCommand_mSingle, decodeSingleFrame, decodeSingleFrame,
      takeFrame_short (bs := taken.map RxByte.byte) (by rwa [List.length_map])]
    rfl
  | ok taken hstream hlen hread =>
    have hstage : u.rx.stage = taken.map RxByte.byte := hok _ hread
    obtain ⟨f, hf⟩ := frame_of_length (bs := taken.map RxByte.byte) (by rw [List.length_map, hlen])
    rw [ifRead, hread] at h
    obtain ⟨b, hb, hrec⟩ | ⟨hs, hrec, hout⟩ := readEndMarker_end (hkept.paced hpaced) h
    · rw [hstage] at hrec
      refine .whole (taken ++ [b]) ?_ (by rw [hrec, hf]; rfl) ?_
      · rw [List.append_assoc, List.singleton_append, ← hb]
        exact hstream
      · rw [hrec, List.map_append, hf]
        rfl
    · rw [hstage] at hrec
      refine .cut taken (by rw [← hs]; exact hstream) (by rw [hrec]) (by rw [hrec, hf]; rfl) (.of_kept hkept hout)

/-- The reception of ANIMATION after an accepted count, from the state `u` in which the count stands in `STAGE`. -/
theorem receiveFrames_end {n : Byte} {u s' : State} (hpaced : Paced u) (hn : countAccepted n = true)
    (hstage : u.rx.stage = [n]) (hread : ∃ bs, u.rx.lastRead = .ok bs)
    (h : andThen (readFrames n.toNat u) (ifRead readEndMarker) = .next s') :
    ∃ taken, stream u = taken ++ stream s' ∧
      ((wholeCommand (decodeAnimation (receivedBytes s')).1 = true ∧
          (decodeAnimation (receivedBytes s')).1.bytes = Config.mAnim :: n :: taken.map RxByte.byte) ∨
        ((decodeAnimation (receivedBytes s')).1 = (decodeAnimation (n :: taken.map RxByte.byte)).1 ∧
          wholeCommand (decodeAnimation (receivedBytes s')).1 = false ∧ TimedOut u s')) := by
  obtain ⟨v, hv, h⟩ := andThen_eq_next.1 h
  have hkept : Kept u v := (readFrames_answers _ u).kept hv
  cases readFrames_end hpaced hread hv with
  | timeout fs part taken hstream hbytes hlen hpart hread' hvstage hout =>
    rw [ifRead, hread'] at h
    cases h
    have hrec : receivedBytes s' = n :: framesBytes fs := by
      rw [receivedBytes_of_timeout hread', hvstage, hstage]
      rfl
    have hcut : decodeAnimation (n :: framesBytes fs) = (.animation (some n) fs none, []) := by
      rw [decodeAnimation_accepted hn, decodeFrames_cut hlen]
    have hpartial : decodeAnimation (n :: (framesBytes fs ++ part)) = (.animation (some n) fs none, []) := by
      rw [decodeAnimation_accepted hn, decodeFrames, takeFrames_cut hlen hpart]
      exact if_neg hlen.ne
    refine ⟨taken, hstream, .inr ⟨by rw [hrec, hbytes, hcut, hpartial], ?_, hout⟩⟩
    rw [hrec, hcut]
    simp [wholeCommand, hn]
  | ok fs taken hstream hbytes hlen bs hread' hvstage =>
    rw [hstage] at hvstage
    rw [ifRead, hread'] at h
    obtain ⟨b, hb, hrec⟩ | ⟨hs, hrec, hout⟩ := readEndMarker_end (hkept.paced hpaced) h
    · rw [hvstage] at hrec
      have hdec : decodeAnimation (receivedBytes s') = (.animation (some n) fs (some b.byte), []) := by
        rw [hrec, List.append_assoc, List.singleton_append, decodeAnimation_accepted hn, decodeFrames_whole hlen]
        rfl
      refine ⟨taken ++ [b], by rw [hstream, hb, List.append_assoc]; rfl, .inl ⟨?_, ?_⟩⟩
      · rw [hdec]
        simp [wholeCommand, hn, hlen]
      · rw [hdec, List.map_append, hbytes]
        rfl
    · rw [hvstage] at hrec
      have hdec : decodeAnimation (receivedBytes s') = (.animation (some n) fs none, []) := by
        rw [hrec, List.singleton_append, decodeAnimation_accepted hn]
        simpa [takeByte] using decodeFrames_whole hlen []
      refine ⟨taken, by rw [hstream, hs], .inr ⟨by rw [hrec, hbytes]; rfl, ?_, .of_kept hkept hout⟩⟩
      rw [hdec]
      simp [wholeCommand, hn]

theorem receiveAnimation_end {s s' : State} (hpaced : Paced s)
    (h : andThen (readPayload 1 (startCommand s)) (ifRead readAnimation) = .next s') :
    ReceiveEnd Config.mAnim s s' := by
  obtain ⟨u, hu, h⟩ := andThen_eq_next.1 h
  have hkept : Kept s u := (startCommand_kept s).trans ((readPayload_answers 1 _).kept hu)
  obtain ⟨hend, hseq, hok, hto⟩ := readPayload_end ((startCommand_kept s).paced hpaced) hu
  cases hend with
  | timeout taken hstream hlen hread hout =>
    rw [ifRead, hread] at h
    cases h
    have hnil : taken = [] := List.length_eq_zero_iff.1 (by omega)
    subst hnil
    have hrec : receivedBytes s' = [] := (receivedBytes_of_timeout hread).trans (hto hread)
    exact .cut [] hstream (by rw [hrec]; rfl) (by rw [hrec]; rfl) (.of_kept (startCommand_kept s) hout)
  | ok taken hstream hlen hread =>
    obtain ⟨b, rfl⟩ := List.length_eq_one_iff.1 hlen
    have hstage : u.rx.stage = [b.byte] := hok _ hread
    rw [ifRead, hread] at h
    simp only [readAnimation, hstage] at h
    by_cases hn : countAccepted b.byte = true
    · rw [if_pos hn] at h
      obtain ⟨taken, hs, hends⟩ := receiveFrames_end (hkept.paced hpaced) hn hstage ⟨_, hread⟩ h
      have hstream' : stream s = (b :: taken) ++ stream s' := by
        rw [List.cons_append, ← hs]
        exact hstream
      obtain ⟨hwhole, hbytes⟩ | ⟨hdec, hcut, hout⟩ := hends
      · exact .whole (b :: taken) hstream' hwhole hbytes
      · exact .cut (b :: taken) hstream' hdec hcut (.of_kept hkept hout)
    · rw [if_neg hn] at h
      cases h
      have hrec : receivedBytes s' = [b.byte] := (receivedBytes_of_payload (by rw [hseq]; rfl)).trans hstage
      refine .whole [b] hstream ?_ ?_
      · rw [hrec, decodeCommand_mAnim, decodeAnimation_rejected hn]
        simp [wholeCommand, hn]
      · rw [hrec, decodeCommand_mAnim, decodeAnimation_rejected hn]
        rfl

theorem receiveBrightness_end {s s' : State} (hpaced : Paced s) (h : readPayload 1 (startCommand s) = .next s') :
    ReceiveEnd Config.mBright s s' := by
  obtain ⟨hend, hseq, hok, hto⟩ := readPayload_end ((startCommand_kept s).paced hpaced) h
  cases hend with
  | timeout taken hstream hlen hread hout =>
    have hnil : taken = [] := List.length_eq_zero_iff.1 (by omega)
    subst hnil
    have hrec : receivedBytes s' = [] := (receivedBytes_of_timeout hread).trans (hto hread)
    exact .cut [] hstream (by rw [hrec]; rfl) (by rw [hrec]; rfl) (.of_kept (startCommand_kept s) hout)
  | ok taken hstream hlen hread =>
    obtain ⟨b, rfl⟩ := List.length_eq_one_iff.1 hlen
    have hrec : receivedBytes s' = [b.byte] := (receivedBytes_of_payload (by rw [hseq]; rfl)).trans (hok _ hread)
    exact .whole [b] hstream (by rw [hrec]; rfl) (by rw [hrec]; rfl)

/-- What the reception of a command can do. -/
theorem receive_end {m : Byte} {s s' : State} (hpaced : Paced s) (h : receive m s = .next s') : ReceiveEnd m s s' := by
  unfold receive at h
  split at h
  · next hm => subst hm; exact receiveSingleFrame_end hpaced h
  · split at h
    · next hm => subst hm; exact receiveAnimation_end hpaced h
    · split at h
      · next hm => subst hm; exact receiveBrightness_end hpaced h
      · next hs ha hb =>
        cases h
        refine .whole [] rfl ?_ ?_
        · rw [decodeCommand_ignored _ hs ha hb]
          simp [wholeCommand, isStartMarker, hs, ha, hb]
        · rw [decodeCommand_ignored _ hs ha hb]
          rfl

/-! ## A command in time -/

/-- A command whose bytes all arrive within the timeout of its start is received whole, and exactly its bytes are taken. -/
theorem receiveCommand_timely {c : Command} {m : Byte} {ops : List Byte} {s : State} (h : Paced s)
    (hc : wholeCommand c = true) (hb : c.bytes = m :: ops) (hops : ops <+: (stream s).map RxByte.byte)
    (htimely : Timely s ops.length) :
    ∃ s1, receiveCommand m s = .next (c, s1) ∧ OnlyReception s s1 ∧ stream s1 = (stream s).drop ops.length := by
  obtain ⟨s1, hs1⟩ := receive_completes m h
  obtain ⟨rest, hrest⟩ := hops
  cases receive_end h hs1 with
  | whole taken hstream hwhole hbytes =>
    have hdec := decodeCommand_whole hwhole hbytes ((stream s1).map RxByte.byte)
    rw [← List.map_append, ← hstream, ← hrest, decodeCommand_whole hc hb, Prod.mk.injEq] at hdec
    obtain ⟨hsame, -⟩ := hdec
    rw [← hsame, hb, List.cons.injEq] at hbytes
    refine ⟨s1, by rw [receiveCommand, hs1, andThen_next, ← hsame], receive_next hs1, ?_⟩
    rw [hstream, hbytes.2, List.length_map, List.drop_left]
  | cut taken hstream hdec hcut hout =>
    exfalso
    have hmap : taken.map RxByte.byte ++ (stream s1).map RxByte.byte = ops ++ rest := by
      rw [hrest, hstream, List.map_append]
    rcases Nat.lt_or_ge taken.length ops.length with hlt | hge
    · cases hnext : stream s1 with
      | nil =>
        have hlen := congrArg List.length hmap
        rw [hnext, List.length_append, List.length_append, List.length_map, List.map_nil, List.length_nil] at hlen
        omega
      | cons b bs =>
        have hlate := hout.late b (by rw [hnext]; rfl)
        have hin : b ∈ (stream s).take ops.length := by
          obtain ⟨k, hk⟩ : ∃ k, ops.length - taken.length = k + 1 := Nat.exists_eq_add_one.2 (by omega)
          rw [hstream, hnext, List.take_append, hk, List.take_succ_cons]
          exact List.mem_append_right _ List.mem_cons_self
        have hsoon := htimely b hin
        simp only [deadlineFromNow] at hlate
        omega
    · have hpre : ops <+: taken.map RxByte.byte :=
        List.prefix_of_prefix_length_le ⟨rest, rfl⟩ ⟨_, hmap⟩ (by rwa [List.length_map])
      obtain ⟨extra, hextra⟩ := hpre
      rw [hdec, ← hextra, decodeCommand_whole hc hb, hc] at hcut
      cases hcut

/-- Settles O14: the command is received whole and run; behind POLL's marker the clock has gone on and the deadline with
it. -/
theorem timelyCommandIsReceived : Obligations.TimelyCommandIsReceived := by
  unfold Obligations.TimelyCommandIsReceived
  have handle : ∀ (s : State) (c : Command) (m : Byte) (ops : List Byte), Paced s → wholeCommand c = true →
      c.bytes = m :: ops → ops <+: (stream s).map RxByte.byte → Timely s ops.length →
      ∃ s1 s', OnlyReception s s1 ∧ stream s1 = (stream s).drop ops.length ∧ exec c.toInstr s1 = .next s' ∧
        exec (.handleCommand m) s = .next s' := by
    intro s c m ops h hc hb hops htimely
    obtain ⟨s1, hs1, honly, hstream⟩ := receiveCommand_timely h hc hb hops htimely
    obtain ⟨s', hrun⟩ := handleCommand_of_received (honly.paced h) hs1
    exact ⟨s1, s', honly, hstream, hrun⟩
  refine ⟨handle, fun s c b h hc hhead harrived hbytes htimely => ?_⟩
  obtain ⟨u, hu, hust⟩ := takeMarker_arrived h hhead harrived
  have huonly := (takeMarker_next hu).1
  have hkept := (takeMarker_answers s).kept hu
  obtain ⟨m, ops, hb⟩ := c.bytes_eq_cons
  obtain ⟨bs, hs⟩ : ∃ bs, stream s = b :: bs := List.head?_eq_some_iff.1 hhead
  rw [hs, List.drop_one, List.tail_cons] at hust
  rw [hb, hs, List.map_cons, List.cons_prefix_cons] at hbytes
  obtain ⟨rfl, hops⟩ := hbytes
  have hutimely : Timely u ops.length := by
    intro x hx
    have hsoon := htimely x (by
      rw [hb, hs, List.length_cons, List.take_succ_cons]
      exact List.mem_cons_of_mem _ (hust ▸ hx))
    have hnow : nowMs s ≤ nowMs u := Nat.div_le_div_right hkept.forward
    rw [hkept.params]
    omega
  obtain ⟨s1, s', honly, hstream, hs', hhandle⟩ :=
    handle u c b.byte ops (huonly.paced h) hc hb (by rw [hust]; exact hops) hutimely
  refine ⟨s1, s', received_of_marker hb huonly ?_ honly hstream, hs', (exec_poll_of_marker hu).trans hhandle⟩
  rw [hust, hs]
  rfl

/-! ## A command cut short -/

/-- With too few bytes queued and the next one later than the deadline, or none to come, the loop takes those queued and
times out. -/
theorem readLoop_cutShort {k : Nat} {got : List Byte} {limit : Nat} {s : State} (hfresh : s.rx.readStartMs = nowMs s)
    (hlen : s.link.rxq.length < k)
    (hlate : ∀ b ∈ s.link.hostStream.head?, max s.clock.t (deadlineFromNow s) < b.arrival) :
    ∃ s', readLoop k got limit s = .next s' ∧ s'.rx.lastRead = .timeout ∧ stream s' = s.link.hostStream := by
  induction k generalizing got limit s with
  | zero => exact absurd hlen (Nat.not_lt_zero _)
  | succ k ih =>
    have hdeadline : readDeadline s = deadlineFromNow s := by rw [readDeadline, deadlineFromNow, hfresh]
    rw [readLoop, restartRead_fresh hfresh]
    cases hq : s.link.rxq with
    | nil =>
      rw [awaitByte_late hq (by rw [hdeadline]; exact hlate)]
      refine ⟨_, rfl, rfl, ?_⟩
      simp only [stream, setTime_link, hq, List.nil_append]
    | cons x q =>
      have hdeliver : deliver s = .next s := deliver_of_late fun b hb => (le_max_left _ _).trans_lt (hlate b hb)
      have hawait : awaitByte s = .next (some x.byte, { s with link.rxq := q }) := by
        rw [awaitByte, hdeliver, andThen_next, removeOldest_of_cons hq]
      rw [hq, List.length_cons] at hlen
      rw [hawait]
      exact ih (s := { s with link.rxq := q }) hfresh (Nat.lt_of_succ_lt_succ hlen) hlate

theorem readPayload_cutShort {k : Nat} {s : State} (h : Paced s) (hlen : s.link.rxq.length < k)
    (hlate : ∀ b ∈ s.link.hostStream.head?, max s.clock.t (deadlineFromNow s) < b.arrival) :
    ∃ s', readPayload k s = .next s' ∧ s'.rx.lastRead = .timeout ∧ stream s' = s.link.hostStream := by
  obtain ⟨u, hu, hread, hstream⟩ :=
    readLoop_cutShort (got := []) (limit := readLimit s) (s := { s with rx.readStartMs := nowMs s }) rfl hlen hlate
  have hbytes : readBytes k s = .next u := hu
  obtain ⟨v, hv, htime⟩ := elapse_completes ((readBytes_next hbytes).1.paced h)
  have hvread : v.rx.lastRead = .timeout := by rw [htime.rest]; exact hread
  refine ⟨v, ?_, hvread, htime.kept.trans hstream⟩
  rw [readPayload, readOperand, hbytes, andThen_next, hv, andThen_next, stageRead, hvread]

/-- The first read of each command, cut short: nothing is received for it. -/
theorem receive_cutShort {m : Byte} {k : Nat} {s : State}
    (hm : (m = Config.mSingle ∧ k = 8) ∨ (m = Config.mAnim ∧ k = 1) ∨ (m = Config.mBright ∧ k = 1)) (h : Paced s)
    (hlen : s.link.rxq.length < k)
    (hlate : ∀ b ∈ s.link.hostStream.head?, max s.clock.t (deadlineFromNow s) < b.arrival) :
    ∃ u, receive m s = .next u ∧ receivedBytes u = [] ∧ stream u = s.link.hostStream ∧ TimedOut s u := by
  obtain ⟨u, hu, hread, hstream⟩ := readPayload_cutShort (s := startCommand s) h hlen hlate
  have hreceive : receive m s = .next u := by
    obtain ⟨rfl, rfl⟩ | ⟨rfl, rfl⟩ | ⟨rfl, rfl⟩ := hm
    · change andThen (readPayload 8 (startCommand s)) (ifRead readEndMarker) = _
      rw [hu, andThen_next, ifRead, hread]
    · change andThen (readPayload 1 (startCommand s)) (ifRead readAnimation) = _
      rw [hu, andThen_next, ifRead, hread]
    · exact hu
  obtain ⟨hend, -, -, hstage⟩ := readPayload_end ((startCommand_kept s).paced h) hu
  refine ⟨u, hreceive, (receivedBytes_of_timeout hread).trans (hstage hread), hstream, ?_⟩
  cases hend with
  | ok taken _ _ hok => rw [hread] at hok; cases hok
  | timeout _ _ _ _ hout => exact .of_kept (startCommand_kept s) hout

/-- A HANDLE_COMMAND whose command turns out cut short runs the abort sequence of its command. -/
theorem handleCommand_aborts {m : Byte} {cmd : CommandKind} {s u : State} (h : Paced s) (hu : receive m s = .next u)
    (hrun : runCommand (decodeCommand m (receivedBytes u)).1 u = raiseError .readTimeout cmd u) :
    ∃ s', exec (.handleCommand m) s = .next s' ∧
      OnlyDiagnostic (returnToLoop (abortWrites .readTimeout cmd u)) s' := by
  obtain ⟨s', hs', hd⟩ := raiseError_completes .readTimeout cmd ((receive_next hu).paced h)
  refine ⟨s', ?_, hd⟩
  change execHandleCommand m s = _
  rw [execHandleCommand, receiveCommand, hu, andThen_next, andThen_next, hrun, hs']

/-- What an abort after a timeout leaves, for a command that clears nothing. -/
theorem unchanged_of_timedOut {cmd : CommandKind} {s u s' : State} (hu : OnlyReception s u) (hout : TimedOut s u)
    (hd : OnlyDiagnostic
      { u with seq.rxstate := .idle, rx.stage := [], trace := .error .readTimeout (some cmd) :: u.trace } s') :
    stream s' = stream u ∧ deadlineFromNow s ≤ s'.clock.t ∧
      s' = { s with
        seq.rxstate := .idle, rx := s'.rx, tx := s'.tx, link := s'.link, clock := s'.clock
        trace := .error .readTimeout (some cmd) :: s.trace } ∧
      s'.rx.stage = [] ∧ s.tx.txq <+: s'.tx.txq := by
  have hutx : u.tx = s.tx := by rw [hu.rest]
  refine ⟨hd.time.kept, hout.clock.trans hd.time.forward, ?_, by rw [hd.time.rest], by rw [← hutx]; exact hd.grown⟩
  rw [hd.time.rest, hu.rest]

/-- What an abort after a timeout leaves of an ANIMATION. -/
theorem cleared_of_timedOut {s u s' : State} (hu : OnlyReception s u) (hout : TimedOut s u)
    (hd : OnlyDiagnostic (returnToLoop (abortWrites .readTimeout .animation u)) s') :
    stream s' = stream u ∧ deadlineFromNow s ≤ s'.clock.t ∧
      s' = { s with
        store :=
          { s.store with ab := [], rb := if s.params.renderOnAnimAbort = .keep then s.store.rb else s.store.si }
        anim := { s.anim with active := false, frameCount := 0, currentFrameIndex := 0 }
        seq.rxstate := .idle, ie := true, rx := s'.rx, tx := s'.tx, link := s'.link, clock := s'.clock
        trace := .cleared (shownFrame s) :: .error .readTimeout (some .animation) :: s.trace } ∧
      s'.rx.stage = [] ∧ s.tx.txq <+: s'.tx.txq := by
  rw [returnToLoop_abortWrites_animation] at hd
  have hutx : u.tx = s.tx := by rw [hu.rest]
  refine ⟨hd.time.kept, hout.clock.trans hd.time.forward, ?_, by rw [hd.time.rest], by rw [← hutx]; exact hd.grown⟩
  rw [hd.time.rest, hu.rest]
  rfl

theorem runCommand_singleFrame_cut {bs : List Byte} (h : wholeCommand (decodeCommand Config.mSingle bs).1 = false)
    (u : State) : runCommand (decodeCommand Config.mSingle bs).1 u = raiseError .readTimeout .singleFrame u := by
  obtain ⟨rows, e, hc⟩ := decodeSingleFrame_kind bs
  rw [decodeCommand_mSingle, hc] at h ⊢
  cases rows with
  | none => exact exec_singleFrame_of_rows_missing e u
  | some f =>
    cases e with
    | none => exact exec_singleFrame_of_end_missing f u
    | some b => cases h

theorem runCommand_animation_cut {bs : List Byte} (h : wholeCommand (decodeCommand Config.mAnim bs).1 = false)
    (u : State) : runCommand (decodeCommand Config.mAnim bs).1 u = raiseError .readTimeout .animation u := by
  rw [decodeCommand_mAnim] at h ⊢
  cases bs with
  | nil => rfl
  | cons n rest =>
    by_cases hn : countAccepted n = true
    · rw [decodeAnimation_accepted hn, decodeFrames] at h ⊢
      split at h
      next fs after _ =>
        split at h
        · next hlen =>
          rw [if_pos hlen]
          cases after with
          | nil => exact exec_animation_of_end_missing hn hlen.ge u
          | cons e after => simp [wholeCommand, hn, hlen, takeByte] at h
        · next hlen =>
          rw [if_neg hlen]
          rcases Nat.lt_or_ge fs.length n.toNat with hlt | hge
          · exact exec_animation_of_frame_missing hn hlt none u
          · exact exec_animation_of_end_missing hn hge u
    · rw [decodeAnimation_rejected hn] at h
      simp [wholeCommand, hn] at h

/-- Settles O23: with too few rows the first read times out, with all of them that of the end marker. -/
theorem singleFrameCutShortTimesOut : Obligations.SingleFrameCutShortTimesOut := by
  unfold Obligations.SingleFrameCutShortTimesOut
  intro s h hcase
  obtain ⟨u, hu, hcut, hstream, hout⟩ : ∃ u, receive Config.mSingle s = .next u ∧
      wholeCommand (decodeCommand Config.mSingle (receivedBytes u)).1 = false ∧ stream u = s.link.hostStream ∧
      TimedOut s u := by
    obtain ⟨hlen, hlate⟩ | ⟨hlen, hhost⟩ := hcase
    · obtain ⟨u, hu, hrec, hstream, hout⟩ := receive_cutShort (.inl ⟨rfl, rfl⟩) h hlen hlate
      exact ⟨u, hu, by rw [hrec]; rfl, hstream, hout⟩
    · obtain ⟨u, hu⟩ := receive_completes Config.mSingle h
      cases receive_end h hu with
      | cut _ _ _ hcut hout => exact ⟨u, hu, hcut, by rw [hout.empty hhost, hhost], hout⟩
      | whole taken hstream hwhole hbytes =>
        obtain ⟨rows, e, hc⟩ := decodeSingleFrame_kind (receivedBytes u)
        rw [decodeCommand_mSingle, hc] at hwhole hbytes
        simp only [wholeCommand, Bool.and_eq_true, Option.isSome_iff_exists] at hwhole
        obtain ⟨⟨f, rfl⟩, ⟨b, rfl⟩⟩ := hwhole
        have hten : 10 = taken.length + 1 := by
          simpa [Command.bytes, Frame.bytes_length] using congrArg List.length hbytes
        have height := congrArg List.length hstream
        rw [stream, hhost, List.append_nil, hlen, List.length_append] at height
        omega
  obtain ⟨s', hs', hd⟩ := handleCommand_aborts h hu (runCommand_singleFrame_cut hcut u)
  obtain ⟨hkept, hleft⟩ := unchanged_of_timedOut (cmd := .singleFrame) (receive_next hu) hout hd
  exact ⟨s', hs', hkept.trans hstream, hleft⟩

/-- Settles O24: the same, by the abort sequence of the command. -/
theorem otherCommandsCutShortTimeOut : Obligations.OtherCommandsCutShortTimeOut := by
  unfold Obligations.OtherCommandsCutShortTimeOut
  refine ⟨fun s h hcase => ?animation, fun s h hq hlate => ?brightness⟩
  case brightness =>
    obtain ⟨u, hu, hrec, hstream, hout⟩ :=
      receive_cutShort (m := Config.mBright) (k := 1) (.inr (.inr ⟨rfl, rfl⟩)) h (by rw [hq]; exact Nat.one_pos) hlate
    obtain ⟨s', hs', hd⟩ := handleCommand_aborts (cmd := .brightness) h hu (by rw [hrec]; rfl)
    obtain ⟨hkept, hleft⟩ := unchanged_of_timedOut (cmd := .brightness) (receive_next hu) hout hd
    exact ⟨s', hs', hkept.trans hstream, hleft⟩
  case animation =>
    obtain ⟨u, hu, hcut, hstream, hout⟩ : ∃ u, receive Config.mAnim s = .next u ∧
        wholeCommand (decodeCommand Config.mAnim (receivedBytes u)).1 = false ∧ stream u = s.link.hostStream ∧
        TimedOut s u := by
      obtain ⟨hq, hlate⟩ | ⟨hhost, n, rest, hbytes, h1, h10, hshort⟩ := hcase
      · obtain ⟨u, hu, hrec, hstream, hout⟩ :=
          receive_cutShort (.inr (.inl ⟨rfl, rfl⟩)) h (by rw [hq]; exact Nat.one_pos) hlate
        exact ⟨u, hu, by rw [hrec]; rfl, hstream, hout⟩
      · obtain ⟨u, hu⟩ := receive_completes Config.mAnim h
        cases receive_end h hu with
        | cut _ _ _ hcut hout => exact ⟨u, hu, hcut, by rw [hout.empty hhost, hhost], hout⟩
        | whole taken hstream hwhole hcbytes =>
          exfalso
          have hall : taken.map RxByte.byte ++ (stream u).map RxByte.byte = n :: rest := by
            rw [← List.map_append, ← hstream, stream, hhost, List.append_nil]
            exact hbytes
          obtain ⟨count, fs, e, hc⟩ := decodeAnimation_kind (receivedBytes u)
          rw [decodeCommand_mAnim, hc] at hwhole hcbytes
          cases count with
          | none => cases hwhole
          | some count =>
            rw [Command.bytes, List.cons.injEq] at hcbytes
            rw [← hcbytes.2] at hall
            simp only [Option.toList_some, List.cons_append, List.cons.injEq] at hall
            obtain ⟨rfl, hall⟩ := hall
            have hn := countAccepted_of_bounds h1 h10
            simp only [wholeCommand, if_pos hn, Bool.and_eq_true, beq_iff_eq, Option.isSome_iff_exists] at hwhole
            obtain ⟨hlen, b, rfl⟩ := hwhole
            have hlong := congrArg List.length hall
            simp only [List.length_append, framesBytes_length, hlen, Option.toList_some, List.length_singleton] at hlong
            omega
    obtain ⟨s', hs', hd⟩ := handleCommand_aborts h hu (runCommand_animation_cut hcut u)
    obtain ⟨hkept, hleft⟩ := cleared_of_timedOut (receive_next hu) hout hd
    exact ⟨s', hs', hkept.trans hstream, hleft⟩

end Sys2Proof.Machine
end
